-- ==== Sys2Proof/Word.lean ====
section
/-! DEFINITION. The machine's word types (00_scope.md R6: registers, constants and addresses are 32 bits, a byte is 8 bits). -/

namespace Sys2Proof

/-- A byte, 8 bits (R6). -/
abbrev Byte := BitVec 8

/-- A register value, an address or an instruction word, 32 bits (R6, R11, R50). -/
abbrev Word := BitVec 32

/-- The number of a general register, 0 to 63 (R11). In an instruction word it stands in the low six bits of an 8-bit
field (R52). -/
abbrev RegNum := BitVec 6

end Sys2Proof
end

