-- ==== Sys2Proof/Config.lean ====
section
/-! DEFINITION. What the spec leaves to the one who launches the machine: the OPEN rows of the table under 00_scope.md R6, as
plain data, and the free values behind the readings the spec does not state. -/

namespace Sys2Proof

/-- P_BYTE_ORDER (20_memory.md R34): the order of a word's bytes, the same for data and for instruction words. -/
inductive ByteOrder where
  | big
  | little
  deriving DecidableEq, Repr

/-- P_IMM8_EXT (30_encoding.md R54): how a `const8` field becomes a 32-bit operand. -/
inductive Imm8Ext where
  | sign
  | zero
  deriving DecidableEq, Repr

/-- P_DIV and P_MOD (41_arithmetic.md R83), outside the domain where every reading agrees. -/
inductive DivReading where
  /-- The spec's default: signed, truncating toward zero, with faults at the two corners. -/
  | signedTruncating
  /-- Any other function of the two operands: a free value (log 7). -/
  | other
  deriving DecidableEq, Repr

/-- P_OVF_ADD, P_OVF_SUB, P_OVF_MUL (41_arithmetic.md R101): the overflow word of an "o" operation. -/
inductive OvfReading where
  /-- The spec's default: the high word of the exact signed 64-bit result. -/
  | signedHigh
  /-- Any other function of the two operands: a free value (log 7). -/
  | other
  deriving DecidableEq, Repr

/-- P_SHIFT_BIG (43_shift.md R131): the result of a shift by 32 or more. -/
inductive ShiftBigReading where
  /-- The spec's default: rule R130's formulas continued, every bit shifted out. -/
  | shiftedOut
  /-- Any other function of the shift, the value and the amount: a free value (log 7). -/
  | other
  deriving DecidableEq, Repr

/-- The three shifts of 43_shift.md R130, the first argument of P_SHIFT_BIG. -/
inductive ShiftKind where
  | shl
  | shr
  | shru
  deriving DecidableEq, Repr

/-- What P_DIV and P_MOD return: "a 32-bit value or a fault" (41_arithmetic.md R83). -/
inductive DivResult where
  | value (w : Word)
  | divideByZero
  | divideOverflow
  deriving DecidableEq, Repr, Inhabited

/-- P_OPC (30_encoding.md R57): the opcode number of each of the 47 native mnemonics, in the order of
spec/opcode_table.json. -/
abbrev Opcodes := Vector (BitVec 8) 47

/-- The open parameters that say how the machine reads its instructions (R6). -/
structure Params where
  byteOrder : ByteOrder
  imm8Ext : Imm8Ext
  div : DivReading
  mod : DivReading
  ovfAdd : OvfReading
  ovfSub : OvfReading
  ovfMul : OvfReading
  shiftBig : ShiftBigReading
  opc : Opcodes
  deriving DecidableEq, Repr

/-- A range of byte addresses backed by data memory, `lo` included and `hi` excluded (20_memory.md R31). -/
structure AddrRange where
  lo : Nat
  hi : Nat
  deriving DecidableEq, Repr

/-- FREE VALUE: the quotient under a reading of P_DIV other than the default, outside layer 1 of R83 (log 7). -/
opaque Config.divOther : Word → Word → DivResult

/-- FREE VALUE: the remainder under a reading of P_MOD other than the default, outside layer 1 of R83 (log 7). -/
opaque Config.modOther : Word → Word → DivResult

/-- FREE VALUE: the overflow word under a reading of P_OVF_ADD other than the default (R101, log 7). -/
opaque Config.ovfAddOther : Word → Word → Word

/-- FREE VALUE: the overflow word under a reading of P_OVF_SUB other than the default (R101, log 7). -/
opaque Config.ovfSubOther : Word → Word → Word

/-- FREE VALUE: the overflow word under a reading of P_OVF_MUL other than the default (R101, log 7). -/
opaque Config.ovfMulOther : Word → Word → Word

/-- FREE VALUE: a shift by 32 or more under a reading of P_SHIFT_BIG other than the default (R131, log 7). -/
opaque Config.shiftBigOther : ShiftKind → Word → Nat → Word

/-- FREE VALUE: the launch content of a byte of memory that the launch gives no content for (10_state.md R25;
93_implementation_defined.md U20: "any value"; log 3), and of the text at `State.reset`, whose program no launch has given yet
(log 4). -/
opaque Config.launchByte : Nat → Byte

end Sys2Proof
end

