-- ==== Sys2Proof/Machine/Alu.lean ====
section
/-! DEFINITION. Division, modulo and the shifts as functions of their operands (41_arithmetic.md R83, R84; 43_shift.md R130,
R131). -/

namespace Sys2Proof.Machine

/-- Layer 1 of R83, where every reading of "/" and "modulo" agrees: both operands below 2^31, the divisor not zero. -/
def divisionAgreed (a b : Word) : Bool := decide (a.toNat < 2 ^ 31) && decide (b.toNat < 2 ^ 31) && decide (b ≠ 0)

/-- The default P_DIV (R83, R84): signed, truncating toward zero, with faults at the two corners. -/
def divSigned (a b : Word) : DivResult :=
  if b = 0 then .divideByZero
  else if a.toInt = -2 ^ 31 ∧ b.toInt = -1 then .divideOverflow
  else .value (BitVec.ofInt 32 (a.toInt.tdiv b.toInt))

/-- The default P_MOD (R83, R84): the remainder of the truncated quotient, `s(a) - s(b) * q`, with the same faults. -/
def modSigned (a b : Word) : DivResult :=
  if b = 0 then .divideByZero
  else if a.toInt = -2 ^ 31 ∧ b.toInt = -1 then .divideOverflow
  else .value (BitVec.ofInt 32 (a.toInt - b.toInt * a.toInt.tdiv b.toInt))

/-- P_DIV (R83): the agreed quotient in layer 1, outside it the chosen reading. -/
def divide (p : DivReading) (a b : Word) : DivResult :=
  if divisionAgreed a b then .value (BitVec.ofNat 32 (a.toNat / b.toNat))
  else
    match p with
    | .signedTruncating => divSigned a b
    | .other => Config.divOther a b

/-- P_MOD (R83): the agreed remainder in layer 1, outside it the chosen reading. -/
def modulo (p : DivReading) (a b : Word) : DivResult :=
  if divisionAgreed a b then .value (BitVec.ofNat 32 (a.toNat - b.toNat * (a.toNat / b.toNat)))
  else
    match p with
    | .signedTruncating => modSigned a b
    | .other => Config.modOther a b

/-- SHL, SHR and SHRU of R130, for any amount: left with zeros, right with copies of the top bit, right with zeros. -/
def shiftBy (k : ShiftKind) (v : Word) (n : Nat) : Word :=
  match k with
  | .shl => v <<< n
  | .shr => v.sshiftRight n
  | .shru => v >>> n

/-- P_SHIFT_BIG (R131): by default R130's formulas continued for every amount, which shifts every bit out. -/
def shiftBig (p : ShiftBigReading) (k : ShiftKind) (v : Word) (n : Nat) : Word :=
  match p with
  | .shiftedOut =>
    match k with
    | .shl | .shru => 0
    | .shr => if v.msb then BitVec.allOnes 32 else 0
  | .other => Config.shiftBigOther k v n

/-- The result of a shift by the whole unsigned amount (R131 to R137). -/
def shift (p : ShiftBigReading) (k : ShiftKind) (v : Word) (amount : Word) : Word :=
  if amount.toNat ≤ 31 then shiftBy k v amount.toNat else shiftBig p k v amount.toNat

end Sys2Proof.Machine
end

