-- ==== Sys2Proof/Machine/Flags.lean ====
section
/-! DEFINITION. The machine has no flags (10_state.md R19). What other machines put in flags stands here in a general register: the
1 or 0 of a comparison (45_compare.md R160) and the overflow word of an "o" operation (41_arithmetic.md R101). -/

namespace Sys2Proof.Machine

/-- The result of a comparison (R160): 1 if the relation holds, else 0. -/
def truthWord (holds : Bool) : Word := if holds then 1 else 0

/-- The high word of an exact signed result written as a 64-bit two's-complement value: `W[63:32]` of R101. -/
def highWord (r : Int) : Word := (BitVec.ofInt 64 r).extractLsb' 32 32

/-- P_OVF_ADD (R101). -/
def overflowAdd (p : OvfReading) (a b : Word) : Word :=
  match p with
  | .signedHigh => highWord (a.toInt + b.toInt)
  | .other => Config.ovfAddOther a b

/-- P_OVF_SUB (R101). -/
def overflowSub (p : OvfReading) (a b : Word) : Word :=
  match p with
  | .signedHigh => highWord (a.toInt - b.toInt)
  | .other => Config.ovfSubOther a b

/-- P_OVF_MUL (R101). -/
def overflowMul (p : OvfReading) (a b : Word) : Word :=
  match p with
  | .signedHigh => highWord (a.toInt * b.toInt)
  | .other => Config.ovfMulOther a b

end Sys2Proof.Machine
end

