-- ==== Sys2Proof/Syntax.lean ====
section
/-! DEFINITION. The native instructions (00_scope.md R3), one constructor per row of spec/opcode_table.json, in the table's
order, with the operands of 30_encoding.md R51 in the order they are written. -/

namespace Sys2Proof

/-- A native instruction with its operands. A register operand is its number; `const8` and `const16` are the field's bits
unchanged (R53, R54): what an instruction makes of them is the instruction's own. -/
inductive Instr where
  -- 40_constants.md
  | lch (rdes : RegNum) (const16 : BitVec 16)
  | lcl (rdes : RegNum) (const16 : BitVec 16)
  -- 41_arithmetic.md
  | add (rdes src1 src2 : RegNum)
  | sub (rdes src1 src2 : RegNum)
  | mul (rdes src1 src2 : RegNum)
  | div (rdes src1 src2 : RegNum)
  | mod (rdes src1 src2 : RegNum)
  | addo (rdes src1 src2 : RegNum)
  | subo (rdes src1 src2 : RegNum)
  | mulo (rdes src1 src2 : RegNum)
  | addi (rdes src1 : RegNum) (const8 : BitVec 8)
  | subi (rdes src1 : RegNum) (const8 : BitVec 8)
  | muli (rdes src1 : RegNum) (const8 : BitVec 8)
  | divi (rdes src1 : RegNum) (const8 : BitVec 8)
  | modi (rdes src1 : RegNum) (const8 : BitVec 8)
  | addio (rdes src1 : RegNum) (const8 : BitVec 8)
  | subio (rdes src1 : RegNum) (const8 : BitVec 8)
  | mulio (rdes src1 : RegNum) (const8 : BitVec 8)
  -- 42_logical.md
  | and (rdes src1 src2 : RegNum)
  | nor (rdes src1 src2 : RegNum)
  | or (rdes src1 src2 : RegNum)
  | xor (rdes src1 src2 : RegNum)
  -- 43_shift.md
  | shl (rdes src1 src2 : RegNum)
  | shr (rdes src1 src2 : RegNum)
  | shru (rdes src1 src2 : RegNum)
  | shli (rdes src1 : RegNum) (const8 : BitVec 8)
  | shri (rdes src1 : RegNum) (const8 : BitVec 8)
  | shrui (rdes src1 : RegNum) (const8 : BitVec 8)
  -- 44_loadstore.md; in `st1` and `st4` the first operand is the value stored, the second the base
  | st1 (src1 src2 : RegNum) (const8 : BitVec 8)
  | st4 (src1 src2 : RegNum) (const8 : BitVec 8)
  | ld1 (rdes src1 : RegNum) (const8 : BitVec 8)
  | ld4 (rdes src1 : RegNum) (const8 : BitVec 8)
  | ex4 (rdes src1 : RegNum) (const8 : BitVec 8)
  -- 45_compare.md
  | eq (rdes src1 src2 : RegNum)
  | ges (rdes src1 src2 : RegNum)
  | gts (rdes src1 src2 : RegNum)
  | geu (rdes src1 src2 : RegNum)
  | gtu (rdes src1 src2 : RegNum)
  -- 46_branch.md
  | jez (rdes src1 src2 : RegNum)
  | jnz (rdes src1 src2 : RegNum)
  | bez (rdes src1 src2 : RegNum)
  | bnz (rdes src1 src2 : RegNum)
  | bezi (src1 : RegNum) (const16 : BitVec 16)
  | bnzi (src1 : RegNum) (const16 : BitVec 16)
  -- 47_console.md, 48_halt.md
  | cin (rdes : RegNum)
  | cout (src1 : RegNum)
  | halt
  deriving DecidableEq, Repr

/-- The 47 native mnemonics (R3), in the order of spec/opcode_table.json. -/
inductive Mnemonic where
  | lch | lcl
  | add | sub | mul | div | mod | addo | subo | mulo
  | addi | subi | muli | divi | modi | addio | subio | mulio
  | and | nor | or | xor
  | shl | shr | shru | shli | shri | shrui
  | st1 | st4 | ld1 | ld4 | ex4
  | eq | ges | gts | geu | gtu
  | jez | jnz | bez | bnz | bezi | bnzi
  | cin | cout | halt
  deriving DecidableEq, Repr

/-- The five word formats of 30_encoding.md R52. -/
inductive Format where
  /-- three registers -/
  | rrr
  /-- two registers and a `const8` -/
  | rri
  /-- a register and a `const16` -/
  | rh
  /-- one register, `B` and `C` zero -/
  | r
  /-- no operand, `A`, `B` and `C` zero -/
  | n
  deriving DecidableEq, Repr

/-- The mnemonic of an instruction. -/
def Instr.mnemonic : Instr → Mnemonic
  | .lch _ _ => .lch
  | .lcl _ _ => .lcl
  | .add _ _ _ => .add
  | .sub _ _ _ => .sub
  | .mul _ _ _ => .mul
  | .div _ _ _ => .div
  | .mod _ _ _ => .mod
  | .addo _ _ _ => .addo
  | .subo _ _ _ => .subo
  | .mulo _ _ _ => .mulo
  | .addi _ _ _ => .addi
  | .subi _ _ _ => .subi
  | .muli _ _ _ => .muli
  | .divi _ _ _ => .divi
  | .modi _ _ _ => .modi
  | .addio _ _ _ => .addio
  | .subio _ _ _ => .subio
  | .mulio _ _ _ => .mulio
  | .and _ _ _ => .and
  | .nor _ _ _ => .nor
  | .or _ _ _ => .or
  | .xor _ _ _ => .xor
  | .shl _ _ _ => .shl
  | .shr _ _ _ => .shr
  | .shru _ _ _ => .shru
  | .shli _ _ _ => .shli
  | .shri _ _ _ => .shri
  | .shrui _ _ _ => .shrui
  | .st1 _ _ _ => .st1
  | .st4 _ _ _ => .st4
  | .ld1 _ _ _ => .ld1
  | .ld4 _ _ _ => .ld4
  | .ex4 _ _ _ => .ex4
  | .eq _ _ _ => .eq
  | .ges _ _ _ => .ges
  | .gts _ _ _ => .gts
  | .geu _ _ _ => .geu
  | .gtu _ _ _ => .gtu
  | .jez _ _ _ => .jez
  | .jnz _ _ _ => .jnz
  | .bez _ _ _ => .bez
  | .bnz _ _ _ => .bnz
  | .bezi _ _ => .bezi
  | .bnzi _ _ => .bnzi
  | .cin _ => .cin
  | .cout _ => .cout
  | .halt => .halt

end Sys2Proof
end

