-- ==== Sys2Proof/WellFormed.lean ====
section
/-! DEFINITION. When a term of `Instr` is an instruction of the machine. Register numbers below 64 and constants in their field
ranges hold by the operands' types; the one check left is the even destination of the "o" operations. -/

namespace Sys2Proof

/-- A register number is even (10_state.md R15: "rdes must be an even-numbered register"). -/
def RegNum.isEven (r : RegNum) : Bool := !r.getLsbD 0

/-- Well-formedness of an instruction: the six "o" operations need an even destination (10_state.md R15, 41_arithmetic.md
R102), every other term is legal (30_encoding.md R58). -/
def Instr.wf : Instr → Bool
  | .addo rdes _ _ => RegNum.isEven rdes
  | .subo rdes _ _ => RegNum.isEven rdes
  | .mulo rdes _ _ => RegNum.isEven rdes
  | .addio rdes _ _ => RegNum.isEven rdes
  | .subio rdes _ _ => RegNum.isEven rdes
  | .mulio rdes _ _ => RegNum.isEven rdes
  | .lch _ _ | .lcl _ _ => true
  | .add _ _ _ | .sub _ _ _ | .mul _ _ _ | .div _ _ _ | .mod _ _ _ => true
  | .addi _ _ _ | .subi _ _ _ | .muli _ _ _ | .divi _ _ _ | .modi _ _ _ => true
  | .and _ _ _ | .nor _ _ _ | .or _ _ _ | .xor _ _ _ => true
  | .shl _ _ _ | .shr _ _ _ | .shru _ _ _ | .shli _ _ _ | .shri _ _ _ | .shrui _ _ _ => true
  | .st1 _ _ _ | .st4 _ _ _ | .ld1 _ _ _ | .ld4 _ _ _ | .ex4 _ _ _ => true
  | .eq _ _ _ | .ges _ _ _ | .gts _ _ _ | .geu _ _ _ | .gtu _ _ _ => true
  | .jez _ _ _ | .jnz _ _ _ | .bez _ _ _ | .bnz _ _ _ | .bezi _ _ | .bnzi _ _ => true
  | .cin _ | .cout _ | .halt => true

end Sys2Proof
end

