-- ==== Sys2Proof/Decode.lean ====
section
/-! DEFINITION. The instruction word (30_encoding.md): its fields, the byte order it is stored in, the opcode map, decoding with
the four reasons of R59 in their order, and after it the encoder. -/

namespace Sys2Proof

/-- Why a word is illegal (30_encoding.md R59). -/
inductive IllegalKind where
  | undefinedOpcode
  | reservedField
  | registerNumber
  | oddPair
  deriving DecidableEq, Repr

/-- What decoding a word answers: an instruction, or a rejection by name. -/
inductive Decoded where
  | legal (i : Instr)
  | illegal (why : IllegalKind)
  deriving DecidableEq, Repr

/-! ## Byte order (20_memory.md R34) -/

/-- The byte of the word `v` that stands at its address plus `k` (R34). -/
def byteOfWord (order : ByteOrder) (v : Word) (k : Nat) : Byte :=
  match order with
  | .big => v.extractLsb' (8 * (3 - k)) 8
  | .little => v.extractLsb' (8 * k) 8

/-- The word whose bytes at its address plus 0, 1, 2, 3 are `b0`, `b1`, `b2`, `b3` (R34). -/
def wordOfBytes (order : ByteOrder) (b0 b1 b2 b3 : Byte) : Word :=
  match order with
  | .big => b0 ++ b1 ++ b2 ++ b3
  | .little => b3 ++ b2 ++ b1 ++ b0

/-! ## The opcode map (30_encoding.md R57) -/

/-- The place of a mnemonic in spec/opcode_table.json. -/
def Mnemonic.index : Mnemonic → Fin 47
  | .lch => 0
  | .lcl => 1
  | .add => 2
  | .sub => 3
  | .mul => 4
  | .div => 5
  | .mod => 6
  | .addo => 7
  | .subo => 8
  | .mulo => 9
  | .addi => 10
  | .subi => 11
  | .muli => 12
  | .divi => 13
  | .modi => 14
  | .addio => 15
  | .subio => 16
  | .mulio => 17
  | .and => 18
  | .nor => 19
  | .or => 20
  | .xor => 21
  | .shl => 22
  | .shr => 23
  | .shru => 24
  | .shli => 25
  | .shri => 26
  | .shrui => 27
  | .st1 => 28
  | .st4 => 29
  | .ld1 => 30
  | .ld4 => 31
  | .ex4 => 32
  | .eq => 33
  | .ges => 34
  | .gts => 35
  | .geu => 36
  | .gtu => 37
  | .jez => 38
  | .jnz => 39
  | .bez => 40
  | .bnz => 41
  | .bezi => 42
  | .bnzi => 43
  | .cin => 44
  | .cout => 45
  | .halt => 46

/-- The 47 mnemonics in the table's order. -/
def Mnemonic.all : List Mnemonic :=
  [.lch, .lcl, .add, .sub, .mul, .div, .mod, .addo,
   .subo, .mulo, .addi, .subi, .muli, .divi, .modi, .addio,
   .subio, .mulio, .and, .nor, .or, .xor, .shl, .shr,
   .shru, .shli, .shri, .shrui, .st1, .st4, .ld1, .ld4,
   .ex4, .eq, .ges, .gts, .geu, .gtu, .jez, .jnz,
   .bez, .bnz, .bezi, .bnzi, .cin, .cout, .halt]

/-- The opcode number P_OPC gives a mnemonic. -/
def Opcodes.code (opc : Opcodes) (m : Mnemonic) : BitVec 8 := opc[m.index]

/-- The mnemonic an opcode number stands for, if any. -/
def Opcodes.mnemonic? (opc : Opcodes) (op : BitVec 8) : Option Mnemonic :=
  Mnemonic.all.find? (fun m => opc.code m == op)

/-- P_OPC is "an injective map" (R57): the 47 numbers differ. -/
def Opcodes.injective (opc : Opcodes) : Bool := decide opc.toList.Nodup

/-- The spec's default opcode number of a mnemonic (the table of R57). -/
def defaultCode : Mnemonic → BitVec 8
  | .lch => 0x10
  | .lcl => 0x11
  | .add => 0x20
  | .sub => 0x21
  | .mul => 0x22
  | .div => 0x23
  | .mod => 0x24
  | .addo => 0x28
  | .subo => 0x29
  | .mulo => 0x2A
  | .addi => 0x30
  | .subi => 0x31
  | .muli => 0x32
  | .divi => 0x33
  | .modi => 0x34
  | .addio => 0x38
  | .subio => 0x39
  | .mulio => 0x3A
  | .and => 0x40
  | .nor => 0x41
  | .or => 0x42
  | .xor => 0x43
  | .shl => 0x50
  | .shr => 0x51
  | .shru => 0x52
  | .shli => 0x58
  | .shri => 0x59
  | .shrui => 0x5A
  | .st1 => 0x60
  | .st4 => 0x61
  | .ld1 => 0x62
  | .ld4 => 0x63
  | .ex4 => 0x64
  | .eq => 0x70
  | .ges => 0x71
  | .gts => 0x72
  | .geu => 0x73
  | .gtu => 0x74
  | .jez => 0x80
  | .jnz => 0x81
  | .bez => 0x82
  | .bnz => 0x83
  | .bezi => 0x84
  | .bnzi => 0x85
  | .cin => 0x90
  | .cout => 0x91
  | .halt => 0xA0

/-- The spec's default P_OPC (R57, log 8). -/
def defaultOpcodes : Opcodes := ⟨(Mnemonic.all.map defaultCode).toArray, by decide⟩

/-- The word format of a mnemonic (R52, R57). -/
def Mnemonic.format : Mnemonic → Format
  | .lch => .rh
  | .lcl => .rh
  | .add => .rrr
  | .sub => .rrr
  | .mul => .rrr
  | .div => .rrr
  | .mod => .rrr
  | .addo => .rrr
  | .subo => .rrr
  | .mulo => .rrr
  | .addi => .rri
  | .subi => .rri
  | .muli => .rri
  | .divi => .rri
  | .modi => .rri
  | .addio => .rri
  | .subio => .rri
  | .mulio => .rri
  | .and => .rrr
  | .nor => .rrr
  | .or => .rrr
  | .xor => .rrr
  | .shl => .rrr
  | .shr => .rrr
  | .shru => .rrr
  | .shli => .rri
  | .shri => .rri
  | .shrui => .rri
  | .st1 => .rri
  | .st4 => .rri
  | .ld1 => .rri
  | .ld4 => .rri
  | .ex4 => .rri
  | .eq => .rrr
  | .ges => .rrr
  | .gts => .rrr
  | .geu => .rrr
  | .gtu => .rrr
  | .jez => .rrr
  | .jnz => .rrr
  | .bez => .rrr
  | .bnz => .rrr
  | .bezi => .rh
  | .bnzi => .rh
  | .cin => .r
  | .cout => .r
  | .halt => .n

/-- The six "o" operations, whose destination is a register pair (10_state.md R15). -/
def Mnemonic.writesPair : Mnemonic → Bool
  | .addo | .addio | .subo | .subio | .mulo | .mulio => true
  | _ => false

/-! ## Fields of a word (30_encoding.md R52) -/

/-- `op = w[31:24]`. -/
def fieldOp (w : Word) : BitVec 8 := w.extractLsb' 24 8

/-- `A = w[23:16]`. -/
def fieldA (w : Word) : BitVec 8 := w.extractLsb' 16 8

/-- `B = w[15:8]`. -/
def fieldB (w : Word) : BitVec 8 := w.extractLsb' 8 8

/-- `C = w[7:0]`. -/
def fieldC (w : Word) : BitVec 8 := w.extractLsb' 0 8

/-- `H = w[15:0]`, that is `B : C`. -/
def fieldH (w : Word) : BitVec 16 := w.extractLsb' 0 16

/-- The register number in a field: its low six bits (R52). -/
def regOfField (f : BitVec 8) : RegNum := f.extractLsb' 0 6

/-- The register the field `A` names. -/
def regA (w : Word) : RegNum := regOfField (fieldA w)

/-- The register the field `B` names. -/
def regB (w : Word) : RegNum := regOfField (fieldB w)

/-- The register the field `C` names. -/
def regC (w : Word) : RegNum := regOfField (fieldC w)

/-! ## Decoding (30_encoding.md R56, R58, R59) -/

/-- R59 (b): a field the format leaves unused is not zero. -/
def reservedFieldSet (f : Format) (w : Word) : Bool :=
  match f with
  | .r => fieldB w != 0 || fieldC w != 0
  | .n => fieldA w != 0 || fieldB w != 0 || fieldC w != 0
  | .rrr | .rri | .rh => false

/-- A field that holds a register has a value of 64 or more (its bits 7 or 6 are set). -/
def notARegister (f : BitVec 8) : Bool := decide (64 ≤ f.toNat)

/-- R59 (c): a register field of the format names no register. -/
def registerNumberBad (f : Format) (w : Word) : Bool :=
  match f with
  | .rrr => notARegister (fieldA w) || notARegister (fieldB w) || notARegister (fieldC w)
  | .rri => notARegister (fieldA w) || notARegister (fieldB w)
  | .rh | .r => notARegister (fieldA w)
  | .n => false

/-- R59 (d): the destination of an "o" operation is odd. -/
def oddPairField (m : Mnemonic) (w : Word) : Bool := m.writesPair && (fieldA w).getLsbD 0

/-- The instruction of mnemonic `m` with the operands that the fields of `w` hold (R52). -/
def instrOfFields (m : Mnemonic) (w : Word) : Instr :=
  match m with
  | .lch => .lch (regA w) (fieldH w)
  | .lcl => .lcl (regA w) (fieldH w)
  | .add => .add (regA w) (regB w) (regC w)
  | .sub => .sub (regA w) (regB w) (regC w)
  | .mul => .mul (regA w) (regB w) (regC w)
  | .div => .div (regA w) (regB w) (regC w)
  | .mod => .mod (regA w) (regB w) (regC w)
  | .addo => .addo (regA w) (regB w) (regC w)
  | .subo => .subo (regA w) (regB w) (regC w)
  | .mulo => .mulo (regA w) (regB w) (regC w)
  | .addi => .addi (regA w) (regB w) (fieldC w)
  | .subi => .subi (regA w) (regB w) (fieldC w)
  | .muli => .muli (regA w) (regB w) (fieldC w)
  | .divi => .divi (regA w) (regB w) (fieldC w)
  | .modi => .modi (regA w) (regB w) (fieldC w)
  | .addio => .addio (regA w) (regB w) (fieldC w)
  | .subio => .subio (regA w) (regB w) (fieldC w)
  | .mulio => .mulio (regA w) (regB w) (fieldC w)
  | .and => .and (regA w) (regB w) (regC w)
  | .nor => .nor (regA w) (regB w) (regC w)
  | .or => .or (regA w) (regB w) (regC w)
  | .xor => .xor (regA w) (regB w) (regC w)
  | .shl => .shl (regA w) (regB w) (regC w)
  | .shr => .shr (regA w) (regB w) (regC w)
  | .shru => .shru (regA w) (regB w) (regC w)
  | .shli => .shli (regA w) (regB w) (fieldC w)
  | .shri => .shri (regA w) (regB w) (fieldC w)
  | .shrui => .shrui (regA w) (regB w) (fieldC w)
  | .st1 => .st1 (regA w) (regB w) (fieldC w)
  | .st4 => .st4 (regA w) (regB w) (fieldC w)
  | .ld1 => .ld1 (regA w) (regB w) (fieldC w)
  | .ld4 => .ld4 (regA w) (regB w) (fieldC w)
  | .ex4 => .ex4 (regA w) (regB w) (fieldC w)
  | .eq => .eq (regA w) (regB w) (regC w)
  | .ges => .ges (regA w) (regB w) (regC w)
  | .gts => .gts (regA w) (regB w) (regC w)
  | .geu => .geu (regA w) (regB w) (regC w)
  | .gtu => .gtu (regA w) (regB w) (regC w)
  | .jez => .jez (regA w) (regB w) (regC w)
  | .jnz => .jnz (regA w) (regB w) (regC w)
  | .bez => .bez (regA w) (regB w) (regC w)
  | .bnz => .bnz (regA w) (regB w) (regC w)
  | .bezi => .bezi (regA w) (fieldH w)
  | .bnzi => .bnzi (regA w) (fieldH w)
  | .cin => .cin (regA w)
  | .cout => .cout (regA w)
  | .halt => .halt

/-- Decoding a word (R56): the opcode names the row, then the checks of R59 in their order, then the operands. -/
def decode (opc : Opcodes) (w : Word) : Decoded :=
  match opc.mnemonic? (fieldOp w) with
  | none => .illegal .undefinedOpcode
  | some m =>
    if reservedFieldSet m.format w then .illegal .reservedField
    else if registerNumberBad m.format w then .illegal .registerNumber
    else if oddPairField m w then .illegal .oddPair
    else .legal (instrOfFields m w)

/-- Decoding the four bytes of an instruction as they stand in memory. -/
def decodeBytes (order : ByteOrder) (opc : Opcodes) (b0 b1 b2 b3 : Byte) : Decoded :=
  decode opc (wordOfBytes order b0 b1 b2 b3)

/-- The word that the bits of an opcode-table row stand for: `nbits` bits of `w`, every higher bit 0. -/
def tableWord (nbits w : Nat) : Word := BitVec.ofNat 32 (w % 2 ^ nbits)

/-- The instruction the decoder reads from an instruction whose bits are `w` (the host's fixed name): the word is laid out in
the default byte order and read back from its bytes, under the default opcode numbers. -/
def decodeTableWord (nbits w : Nat) : Option Instr :=
  let v := tableWord nbits w
  match decodeBytes .big defaultOpcodes (byteOfWord .big v 0) (byteOfWord .big v 1) (byteOfWord .big v 2) (byteOfWord .big v 3) with
  | .legal i => some i
  | .illegal _ => none

/-! ## Encoding (30_encoding.md R52, R57) -/

/-- A register number in an 8-bit field: the top two bits are 0 (R52). -/
def fieldOfReg (r : RegNum) : BitVec 8 := 0#2 ++ r

/-- Format RRR. -/
def wordRRR (op : BitVec 8) (a b c : RegNum) : Word := op ++ fieldOfReg a ++ fieldOfReg b ++ fieldOfReg c

/-- Format RRI. -/
def wordRRI (op : BitVec 8) (a b : RegNum) (k : BitVec 8) : Word := op ++ fieldOfReg a ++ fieldOfReg b ++ k

/-- Format RH: `const16[15:8]` in `B`, `const16[7:0]` in `C`. -/
def wordRH (op : BitVec 8) (a : RegNum) (h : BitVec 16) : Word := op ++ fieldOfReg a ++ h

/-- Format R: `B` and `C` zero. -/
def wordR (op : BitVec 8) (a : RegNum) : Word := op ++ fieldOfReg a ++ 0#8 ++ 0#8

/-- Format N: `A`, `B` and `C` zero. -/
def wordN (op : BitVec 8) : Word := op ++ 0#8 ++ 0#8 ++ 0#8

/-- The word of an instruction (R52): the opcode of its mnemonic, then its operands in the order they are written. -/
def encode (opc : Opcodes) : Instr → Word
  | .lch a h => wordRH (opc.code .lch) a h
  | .lcl a h => wordRH (opc.code .lcl) a h
  | .add a b c => wordRRR (opc.code .add) a b c
  | .sub a b c => wordRRR (opc.code .sub) a b c
  | .mul a b c => wordRRR (opc.code .mul) a b c
  | .div a b c => wordRRR (opc.code .div) a b c
  | .mod a b c => wordRRR (opc.code .mod) a b c
  | .addo a b c => wordRRR (opc.code .addo) a b c
  | .subo a b c => wordRRR (opc.code .subo) a b c
  | .mulo a b c => wordRRR (opc.code .mulo) a b c
  | .addi a b k => wordRRI (opc.code .addi) a b k
  | .subi a b k => wordRRI (opc.code .subi) a b k
  | .muli a b k => wordRRI (opc.code .muli) a b k
  | .divi a b k => wordRRI (opc.code .divi) a b k
  | .modi a b k => wordRRI (opc.code .modi) a b k
  | .addio a b k => wordRRI (opc.code .addio) a b k
  | .subio a b k => wordRRI (opc.code .subio) a b k
  | .mulio a b k => wordRRI (opc.code .mulio) a b k
  | .and a b c => wordRRR (opc.code .and) a b c
  | .nor a b c => wordRRR (opc.code .nor) a b c
  | .or a b c => wordRRR (opc.code .or) a b c
  | .xor a b c => wordRRR (opc.code .xor) a b c
  | .shl a b c => wordRRR (opc.code .shl) a b c
  | .shr a b c => wordRRR (opc.code .shr) a b c
  | .shru a b c => wordRRR (opc.code .shru) a b c
  | .shli a b k => wordRRI (opc.code .shli) a b k
  | .shri a b k => wordRRI (opc.code .shri) a b k
  | .shrui a b k => wordRRI (opc.code .shrui) a b k
  | .st1 a b k => wordRRI (opc.code .st1) a b k
  | .st4 a b k => wordRRI (opc.code .st4) a b k
  | .ld1 a b k => wordRRI (opc.code .ld1) a b k
  | .ld4 a b k => wordRRI (opc.code .ld4) a b k
  | .ex4 a b k => wordRRI (opc.code .ex4) a b k
  | .eq a b c => wordRRR (opc.code .eq) a b c
  | .ges a b c => wordRRR (opc.code .ges) a b c
  | .gts a b c => wordRRR (opc.code .gts) a b c
  | .geu a b c => wordRRR (opc.code .geu) a b c
  | .gtu a b c => wordRRR (opc.code .gtu) a b c
  | .jez a b c => wordRRR (opc.code .jez) a b c
  | .jnz a b c => wordRRR (opc.code .jnz) a b c
  | .bez a b c => wordRRR (opc.code .bez) a b c
  | .bnz a b c => wordRRR (opc.code .bnz) a b c
  | .bezi a h => wordRH (opc.code .bezi) a h
  | .bnzi a h => wordRH (opc.code .bnzi) a h
  | .cin a => wordR (opc.code .cin) a
  | .cout a => wordR (opc.code .cout) a
  | .halt => wordN (opc.code .halt)

/-- A row of spec/opcode_table.json: a word is a legal encoding of the row exactly when `(w & mask) == match` (R56). -/
structure OpcodeRow where
  mnemonic : Mnemonic
  pattern : Word
  mask : Word
  deriving DecidableEq, Repr

/-- The `match` and `mask` columns of spec/opcode_table.json, under the default P_OPC. -/
def opcodeRows : List OpcodeRow :=
  [⟨.lch, 0x10000000, 0xFFC00000⟩, ⟨.lcl, 0x11000000, 0xFFC00000⟩, ⟨.add, 0x20000000, 0xFFC0C0C0⟩,
   ⟨.sub, 0x21000000, 0xFFC0C0C0⟩, ⟨.mul, 0x22000000, 0xFFC0C0C0⟩, ⟨.div, 0x23000000, 0xFFC0C0C0⟩,
   ⟨.mod, 0x24000000, 0xFFC0C0C0⟩, ⟨.addo, 0x28000000, 0xFFC1C0C0⟩, ⟨.subo, 0x29000000, 0xFFC1C0C0⟩,
   ⟨.mulo, 0x2A000000, 0xFFC1C0C0⟩, ⟨.addi, 0x30000000, 0xFFC0C000⟩, ⟨.subi, 0x31000000, 0xFFC0C000⟩,
   ⟨.muli, 0x32000000, 0xFFC0C000⟩, ⟨.divi, 0x33000000, 0xFFC0C000⟩, ⟨.modi, 0x34000000, 0xFFC0C000⟩,
   ⟨.addio, 0x38000000, 0xFFC1C000⟩, ⟨.subio, 0x39000000, 0xFFC1C000⟩, ⟨.mulio, 0x3A000000, 0xFFC1C000⟩,
   ⟨.and, 0x40000000, 0xFFC0C0C0⟩, ⟨.nor, 0x41000000, 0xFFC0C0C0⟩, ⟨.or, 0x42000000, 0xFFC0C0C0⟩,
   ⟨.xor, 0x43000000, 0xFFC0C0C0⟩, ⟨.shl, 0x50000000, 0xFFC0C0C0⟩, ⟨.shr, 0x51000000, 0xFFC0C0C0⟩,
   ⟨.shru, 0x52000000, 0xFFC0C0C0⟩, ⟨.shli, 0x58000000, 0xFFC0C000⟩, ⟨.shri, 0x59000000, 0xFFC0C000⟩,
   ⟨.shrui, 0x5A000000, 0xFFC0C000⟩, ⟨.st1, 0x60000000, 0xFFC0C000⟩, ⟨.st4, 0x61000000, 0xFFC0C000⟩,
   ⟨.ld1, 0x62000000, 0xFFC0C000⟩, ⟨.ld4, 0x63000000, 0xFFC0C000⟩, ⟨.ex4, 0x64000000, 0xFFC0C000⟩,
   ⟨.eq, 0x70000000, 0xFFC0C0C0⟩, ⟨.ges, 0x71000000, 0xFFC0C0C0⟩, ⟨.gts, 0x72000000, 0xFFC0C0C0⟩,
   ⟨.geu, 0x73000000, 0xFFC0C0C0⟩, ⟨.gtu, 0x74000000, 0xFFC0C0C0⟩, ⟨.jez, 0x80000000, 0xFFC0C0C0⟩,
   ⟨.jnz, 0x81000000, 0xFFC0C0C0⟩, ⟨.bez, 0x82000000, 0xFFC0C0C0⟩, ⟨.bnz, 0x83000000, 0xFFC0C0C0⟩,
   ⟨.bezi, 0x84000000, 0xFFC00000⟩, ⟨.bnzi, 0x85000000, 0xFFC00000⟩, ⟨.cin, 0x90000000, 0xFFC0FFFF⟩,
   ⟨.cout, 0x91000000, 0xFFC0FFFF⟩, ⟨.halt, 0xA0000000, 0xFFFFFFFF⟩]

/-- The word is a legal encoding of the row (R56). -/
def OpcodeRow.matches (row : OpcodeRow) (w : Word) : Bool := (w &&& row.mask) == row.pattern

end Sys2Proof
end

