-- ==== Sys2Proof/Machine/LaunchDefaults.lean ====
section
/-! DEFINITION. The launch arguments that `State.reset` stands on: the spec's default for each open parameter, and a value named
in the assumption log for each argument the spec gives no default (00_scope.md R6, 10_state.md R25). -/

namespace Sys2Proof.Machine

/-- The spec's default for every open parameter (the table under R6). -/
def defaultParams : Params where
  byteOrder := .big
  imm8Ext := .sign
  div := .signedTruncating
  mod := .signedTruncating
  ovfAdd := .signedHigh
  ovfSub := .signedHigh
  ovfMul := .signedHigh
  shiftBig := .shiftedOut
  opc := defaultOpcodes

/-- DESIGN CHOICE (log 1): what each of the registers 1 to 63 holds at reset. R25 leaves it unspecified and forbids zero. -/
def launchRegisterValue : Word := 0xA5A5A5A4

/-- The registers at reset: register 0 is zero (R12, R25), the others hold the value of log 1. -/
def launchRegisters : Vector Word 64 := (Vector.replicate 64 launchRegisterValue).set 0 0

/-- DESIGN CHOICE (log 4): P_TEXT_BASE at reset, the base the spec's own test vectors use. -/
def launchTextBase : Word := 0x100

/-- DESIGN CHOICE (log 4): the length of P_PROGRAM at reset, one instruction, the least text that has the entry inside it (R25,
70_reset_and_hazards.md R261). Which instruction it is stays free: nothing is stored there. -/
def launchTextLen : Nat := 1

/-- DESIGN CHOICE (log 5): P_DATA at reset, the whole 32-bit address space but the text, from which R31 keeps it apart. -/
def launchData : List AddrRange :=
  [⟨0, launchTextBase.toNat⟩, ⟨launchTextBase.toNat + 4 * launchTextLen, 2 ^ 32⟩]

/-- DESIGN CHOICE (log 6): P_INPUT at reset. -/
def launchInput : List Byte := []

end Sys2Proof.Machine
end

