-- ==== Sys2Proof/Machine/State.lean ====
section
/-! DEFINITION. The state of the machine (10_state.md R10), the reasons a step can stop, and the state after reset. -/

namespace Sys2Proof.Machine

/-- Why a fetch faults (20_memory.md R40). -/
inductive FetchKind where
  | misaligned
  | outsideText
  deriving DecidableEq, Repr

/-- The fault reasons of 60_exceptions.md R231 with the value each records. Reason 9, `UnwrittenRegister`, belongs to treatment
(a) of R241; this model takes treatment (b) (log 2). -/
inductive FaultReason where
  | fetchFault (pc : Word) (why : FetchKind)
  | illegalInstruction (w : Word) (why : IllegalKind)
  | alignmentFault (addr : Word)
  | busFault (addr : Word)
  | textWriteFault (addr : Word)
  | divideByZero
  | divideOverflow
  deriving DecidableEq, Repr

/-- The run status (10_state.md R23). -/
inductive Status where
  | running
  | halted
  | faulted (reason : FaultReason)
  deriving DecidableEq, Repr

/-- Memory: (address, byte) pairs, addresses strictly rising. An address that is not listed holds no stored byte. -/
abbrev Memory := List Host.Cell

/-- The launch arguments that a run never changes (00_scope.md R6, 20_memory.md R31): the model's own field, not a piece of the
spec's state. The text holds `textLen` instructions from `textBase`; their bytes stand in memory. -/
structure Launched where
  params : Params
  textBase : Word
  textLen : Nat
  data : List AddrRange
  deriving DecidableEq, Repr

/-- The state (R10): registers, `pc`, memory, the two console lists and the run status; and beside it the launch arguments. -/
structure State where
  regs : Vector Word 64
  pc : Word
  mem : Memory
  cinQ : List Byte
  coutQ : List Byte
  status : Status
  launch : Launched
  deriving DecidableEq, Repr

/-- Why no step exists from a state. -/
inductive Fault where
  /-- Raised by `step` when the status is `Halted`: "no further step exists" (10_state.md R23, 48_halt.md R200). Safe. -/
  | halted
  /-- Raised by `step` when the status is `Faulted(reason)`: "no step exists from a `Faulted` state" (60_exceptions.md R232).
  Safe. -/
  | faulted (reason : FaultReason)
  /-- Raised by `cin` when the console input is empty: the machine is stuck, "there is no step and no state change"
  (60_exceptions.md R230, R233). Safe: a real console might go on. -/
  | stuckOnConsoleInput
  deriving DecidableEq, Repr

/-- Why the model gives no meaning. -/
inductive Refusal where
  /-- Raised by an arm of `exec` whose instruction has no meaning yet. Safe. No arm is such an arm now. -/
  | notModelled (mnemonic : String)
  /-- Raised by `launch` for launch arguments that 70_reset_and_hazards.md R261 does not admit: "refused by the model, not run".
  Safe. -/
  | malformedLaunch
  deriving DecidableEq, Repr

/-- The machine right after reset: the launch state (10_state.md R25), `pc` at the one instruction of the text. The spec gives no
program, so nothing is stored there and its word is free (logs 3, 4). Registers 1 to 63, the place of the text, the data and the
input have no value in the spec either: logs 1, 4, 5, 6. -/
def State.reset : State where
  regs := launchRegisters
  pc := launchTextBase
  mem := []
  cinQ := launchInput
  coutQ := []
  status := .running
  launch := ⟨defaultParams, launchTextBase, launchTextLen, launchData⟩

end Sys2Proof.Machine
end

