-- ==== Sys2Proof/Machine/Memory.lean ====
section
/-! DEFINITION. Memory as sorted (address, byte) pairs: its canonical form, reading and writing one byte. -/

namespace Sys2Proof.Machine

/-- Every listed address of the memory is above `a`. -/
def Memory.above (a : Nat) : Memory → Bool
  | [] => true
  | (k, _) :: m => decide (a < k) && Memory.above a m

/-- The canonical form: addresses strictly rise and are below 2^32. An unlisted address holds no stored byte, so no entry can
equal it. -/
def Memory.wf : Memory → Bool
  | [] => true
  | (k, _) :: m => decide (k < 2 ^ 32) && Memory.above k m && Memory.wf m

/-- The byte stored at an address, if one is. -/
def Memory.stored : Memory → Nat → Option Byte
  | [], _ => none
  | (k, v) :: m, a => if k = a then some v else Memory.stored m a

/-- What an address reads as: the byte stored there, or the launch content the launch left open, a free value (10_state.md R25,
93_implementation_defined.md U20, log 3). -/
def Memory.readByte (m : Memory) (a : Nat) : Byte := (Memory.stored m a).getD (Config.launchByte a)

/-- Storing a byte: it replaces the entry of its address or is put in its place in the order. -/
def Memory.writeByte : Memory → Nat → Byte → Memory
  | [], a, b => [(a, b)]
  | (k, v) :: m, a, b =>
    if a < k then (a, b) :: (k, v) :: m
    else if k = a then (a, b) :: m
    else (k, v) :: Memory.writeByte m a b

/-- Storing the bytes of a list from an address up. -/
def Memory.writeBytes : Memory → Nat → List Byte → Memory
  | m, _, [] => m
  | m, a, b :: bs => Memory.writeBytes (Memory.writeByte m a b) (a + 1) bs

end Sys2Proof.Machine
end

