-- ==== Sys2Proof/Machine/Operands.lean ====
section
/-! DEFINITION. The operand forms: registers, `const8`, `const16`, the effective address and the shift amount
(30_encoding.md R51 to R54). -/

namespace Sys2Proof.Machine

/-- `x[r]`: register 0 reads as zero in every instruction (10_state.md R12). -/
def State.reg (s : State) (r : RegNum) : Word := if r = 0 then 0 else s.regs[r.toNat]'r.isLt

/-- The 32-bit operand of a `const8` field under a choice of P_IMM8_EXT (30_encoding.md R54). -/
def extendConst8 (e : Imm8Ext) (c : BitVec 8) : Word :=
  match e with
  | .sign => c.signExtend 32
  | .zero => c.zeroExtend 32

/-- `imm` of an instruction of format RRI (R54, 41_arithmetic.md R82). -/
def State.imm (s : State) (c : BitVec 8) : Word := extendConst8 s.launch.params.imm8Ext c

/-- The effective address of a load or store (20_memory.md R39, 44_loadstore.md R145): base plus `imm`, modulo 2^32. -/
def State.effAddr (s : State) (base : RegNum) (c : BitVec 8) : Word := s.reg base + s.imm c

/-- The byte offset of `bezi` and `bnzi` (R53): the signed count of instructions times 4, modulo 2^32. -/
def branchOffset (h : BitVec 16) : Word := 4 * h.signExtend 32

/-- `rdes + 1`, the second register of a pair (10_state.md R15). -/
def pairHigh (rdes : RegNum) : RegNum := rdes + 1

end Sys2Proof.Machine
end

