-- ==== Sys2Proof/Machine/Ops.lean ====
section
/-! DEFINITION. The named operations over registers, memory and the console, taking a fault, and the shapes the meanings share. -/

namespace Sys2Proof.Machine

/-- The outcome of one step. -/
abbrev Result := Host.Outcome State Fault Refusal

/-! ## Registers, pc, status -/

/-- `x[r] <- v`: a write to register 0 changes nothing (10_state.md R12). -/
def State.setReg (s : State) (r : RegNum) (v : Word) : State :=
  if r = 0 then s else { s with regs := s.regs.set r.toNat v r.isLt }

/-- `pc <- t`: no check is made when `pc` is written (10_state.md R18). -/
def State.setPc (s : State) (t : Word) : State := { s with pc := t }

/-- `pc <- pc + 4`, modulo 2^32 (10_state.md R17). -/
def State.advance (s : State) : State := s.setPc (s.pc + 4)

/-- The run status becomes `st`. -/
def State.setStatus (s : State) (st : Status) : State := { s with status := st }

/-- Memory becomes `m`. -/
def State.setMem (s : State) (m : Memory) : State := { s with mem := m }

/-- The console input not yet read becomes `q`. -/
def State.setCin (s : State) (q : List Byte) : State := { s with cinQ := q }

/-- The console output so far becomes `q`. -/
def State.setCout (s : State) (q : List Byte) : State := { s with coutQ := q }

/-! ## Taking a fault -/

/-- Taking a fault (60_exceptions.md R232): `status <- Faulted(reason)` and nothing else, `pc` included. No state is saved, nothing
is delivered and no return exists (R236). -/
def raise (reason : FaultReason) (s : State) : Result := .next (s.setStatus (.faulted reason))

/-! ## Regions (20_memory.md R31) -/

/-- The address is in the text: `P_TEXT_BASE <= a < P_TEXT_BASE + 4 * len(P_PROGRAM)`. -/
def State.inText (s : State) (a : Nat) : Bool :=
  decide (s.launch.textBase.toNat ≤ a) && decide (a < s.launch.textBase.toNat + 4 * s.launch.textLen)

/-- The address is in one of the ranges of P_DATA. -/
def State.inData (s : State) (a : Nat) : Bool := s.launch.data.any fun r => decide (r.lo ≤ a) && decide (a < r.hi)

/-- The address is backed: it is text or data. Where the ranges given for P_DATA run over the text, the text stands. -/
def State.backed (s : State) (a : Nat) : Bool := s.inText a || s.inData a

/-! ## Data accesses (20_memory.md R34, R36, R37) -/

/-- The width of a data access (R42). -/
inductive Width where
  | byte
  | word
  deriving DecidableEq, Repr

/-- How many bytes a width has. -/
def Width.bytes : Width → Nat
  | .byte => 1
  | .word => 4

/-- The addresses `addr` to `addr + n - 1` of an access. -/
def accessed (addr : Word) (n : Width) : List Nat := (List.range n.bytes).map (addr.toNat + ·)

/-- The checks of `MemRead`, in their order (R36): alignment, then backing. -/
def State.readFault (s : State) (addr : Word) (n : Width) : Option FaultReason :=
  if n = .word ∧ addr.toNat % 4 ≠ 0 then some (.alignmentFault addr)
  else if (accessed addr n).any (fun a => !s.backed a) then some (.busFault addr)
  else none

/-- The checks of `MemWrite`, in their order (R37): alignment, backing, then the text. -/
def State.writeFault (s : State) (addr : Word) (n : Width) : Option FaultReason :=
  match s.readFault addr n with
  | some f => some f
  | none => if (accessed addr n).any s.inText then some (.textWriteFault addr) else none

/-- The byte an address reads as. -/
def State.byteAt (s : State) (a : Nat) : Byte := Memory.readByte s.mem a

/-- The byte `MemRead(addr, 1)` returns once its checks have passed. -/
def State.loadByte (s : State) (addr : Word) : Byte := s.byteAt addr.toNat

/-- The word `MemRead(addr, 4)` returns once its checks have passed, its bytes in the order of P_BYTE_ORDER (R34). -/
def State.loadWord (s : State) (addr : Word) : Word :=
  wordOfBytes s.launch.params.byteOrder (s.byteAt addr.toNat) (s.byteAt (addr.toNat + 1)) (s.byteAt (addr.toNat + 2))
    (s.byteAt (addr.toNat + 3))

/-- The bytes of a word in the order they stand in memory (R34). -/
def bytesOfWord (order : ByteOrder) (v : Word) : List Byte :=
  [byteOfWord order v 0, byteOfWord order v 1, byteOfWord order v 2, byteOfWord order v 3]

/-- The effect of `MemWrite(addr, 1, v)` once its checks have passed. -/
def State.storeByte (s : State) (addr : Word) (v : Byte) : State := s.setMem (Memory.writeByte s.mem addr.toNat v)

/-- The effect of `MemWrite(addr, 4, v)` once its checks have passed. -/
def State.storeWord (s : State) (addr : Word) (v : Word) : State :=
  s.setMem (Memory.writeBytes s.mem addr.toNat (bytesOfWord s.launch.params.byteOrder v))

/-! ## Shapes the meanings share -/

/-- An instruction that writes `rdes` and goes on (41_arithmetic.md R80, 42_logical.md R120, 45_compare.md R160). -/
def writeResult (rdes : RegNum) (v : Word) (s : State) : Result := .next ((s.setReg rdes v).advance)

/-- A division: the value it returns is written, a fault it returns is raised (41_arithmetic.md R94, R97). -/
def writeDivResult (rdes : RegNum) (r : DivResult) (s : State) : Result :=
  match r with
  | .value v => writeResult rdes v s
  | .divideByZero => raise .divideByZero s
  | .divideOverflow => raise .divideOverflow s

/-- An "o" operation: `rdes` gets the ordinary result and `rdes + 1` the overflow word (41_arithmetic.md R100). -/
def writePair (rdes : RegNum) (low high : Word) (s : State) : Result :=
  .next (((s.setReg rdes low).setReg (pairHigh rdes) high).advance)

/-- An "o" operation raises `IllegalInstruction(w, odd_pair)` for an odd `rdes` and else goes on (R102); `i` is the instruction
itself, whose word the fault records (log 20). -/
def ifEvenPair (rdes : RegNum) (i : Instr) (s : State) (go : Result) : Result :=
  if RegNum.isEven rdes then go else raise (.illegalInstruction (encode s.launch.params.opc i) .oddPair) s

/-- An access goes on where its checks pass and else raises the first that fails (20_memory.md R38). -/
def ifNoFault (f : Option FaultReason) (s : State) (go : Result) : Result :=
  match f with
  | some reason => raise reason s
  | none => go

/-- A jump or branch with a link (46_branch.md R176): the link is written whether or not it is taken. The target is computed by the
caller from the state before the link is written. -/
def linkAndGo (rdes : RegNum) (taken : Bool) (target : Word) (s : State) : Result :=
  .next ((s.setReg rdes s.pc).setPc (if taken then target else s.pc + 4))

/-- A branch with no link (46_branch.md R182). -/
def branchTo (taken : Bool) (target : Word) (s : State) : Result := .next (s.setPc (if taken then target else s.pc + 4))

end Sys2Proof.Machine
end

