-- ==== Sys2Proof/Machine/Arithmetic.lean ====
section
/-! DEFINITION. The arithmetic operations, their immediate forms and the "o" forms (41_arithmetic.md). Sources are read before
any register is written (10_state.md R14). -/

namespace Sys2Proof.Machine

/-- `add` (R85): the low 32 bits of the exact sum (R81). -/
def execAdd (rdes src1 src2 : RegNum) (s : State) : Result := writeResult rdes (s.reg src1 + s.reg src2) s

/-- `addi` (R86): `add` with `imm` for the second operand (R82). -/
def execAddi (rdes src1 : RegNum) (const8 : BitVec 8) (s : State) : Result :=
  writeResult rdes (s.reg src1 + s.imm const8) s

/-- `sub` (R88): the low 32 bits of the exact difference (R81). -/
def execSub (rdes src1 src2 : RegNum) (s : State) : Result := writeResult rdes (s.reg src1 - s.reg src2) s

/-- `subi` (R89): `sub` with `imm` for the second operand (R82). -/
def execSubi (rdes src1 : RegNum) (const8 : BitVec 8) (s : State) : Result :=
  writeResult rdes (s.reg src1 - s.imm const8) s

/-- `mul` (R91): the low 32 bits of the exact product (R81). -/
def execMul (rdes src1 src2 : RegNum) (s : State) : Result := writeResult rdes (s.reg src1 * s.reg src2) s

/-- `muli` (R92): `mul` with `imm` for the second operand (R82). -/
def execMuli (rdes src1 : RegNum) (const8 : BitVec 8) (s : State) : Result :=
  writeResult rdes (s.reg src1 * s.imm const8) s

/-- `div` (R94): P_DIV of the two registers, the quotient or a fault (R83, R84). -/
def execDiv (rdes src1 src2 : RegNum) (s : State) : Result :=
  writeDivResult rdes (divide s.launch.params.div (s.reg src1) (s.reg src2)) s

/-- `divi` (R95): `div` with `imm` for the divisor. -/
def execDivi (rdes src1 : RegNum) (const8 : BitVec 8) (s : State) : Result :=
  writeDivResult rdes (divide s.launch.params.div (s.reg src1) (s.imm const8)) s

/-- `mod` (R97): P_MOD of the two registers, the remainder or a fault (R83, R84). -/
def execMod (rdes src1 src2 : RegNum) (s : State) : Result :=
  writeDivResult rdes (modulo s.launch.params.mod (s.reg src1) (s.reg src2)) s

/-- `modi` (R98): `mod` with `imm` for the divisor. -/
def execModi (rdes src1 : RegNum) (const8 : BitVec 8) (s : State) : Result :=
  writeDivResult rdes (modulo s.launch.params.mod (s.reg src1) (s.imm const8)) s

/-- `addo` (R103): the sum to `rdes`, P_OVF_ADD to `rdes + 1`; an odd `rdes` is illegal (R102). -/
def execAddo (rdes src1 src2 : RegNum) (s : State) : Result :=
  let a := s.reg src1
  let b := s.reg src2
  ifEvenPair rdes (.addo rdes src1 src2) s (writePair rdes (a + b) (overflowAdd s.launch.params.ovfAdd a b) s)

/-- `addio` (R104): `addo` with `imm` for the second operand. -/
def execAddio (rdes src1 : RegNum) (const8 : BitVec 8) (s : State) : Result :=
  let a := s.reg src1
  let b := s.imm const8
  ifEvenPair rdes (.addio rdes src1 const8) s (writePair rdes (a + b) (overflowAdd s.launch.params.ovfAdd a b) s)

/-- `subo` (R106): the difference to `rdes`, P_OVF_SUB to `rdes + 1`; an odd `rdes` is illegal (R102). -/
def execSubo (rdes src1 src2 : RegNum) (s : State) : Result :=
  let a := s.reg src1
  let b := s.reg src2
  ifEvenPair rdes (.subo rdes src1 src2) s (writePair rdes (a - b) (overflowSub s.launch.params.ovfSub a b) s)

/-- `subio` (R107): `subo` with `imm` for the second operand. -/
def execSubio (rdes src1 : RegNum) (const8 : BitVec 8) (s : State) : Result :=
  let a := s.reg src1
  let b := s.imm const8
  ifEvenPair rdes (.subio rdes src1 const8) s (writePair rdes (a - b) (overflowSub s.launch.params.ovfSub a b) s)

/-- `mulo` (R109): the product to `rdes`, P_OVF_MUL to `rdes + 1`; an odd `rdes` is illegal (R102). -/
def execMulo (rdes src1 src2 : RegNum) (s : State) : Result :=
  let a := s.reg src1
  let b := s.reg src2
  ifEvenPair rdes (.mulo rdes src1 src2) s (writePair rdes (a * b) (overflowMul s.launch.params.ovfMul a b) s)

/-- `mulio` (R110): `mulo` with `imm` for the second operand. -/
def execMulio (rdes src1 : RegNum) (const8 : BitVec 8) (s : State) : Result :=
  let a := s.reg src1
  let b := s.imm const8
  ifEvenPair rdes (.mulio rdes src1 const8) s (writePair rdes (a * b) (overflowMul s.launch.params.ovfMul a b) s)

end Sys2Proof.Machine
end

