-- ==== Sys2Proof/Machine/Branch.lean ====
section
/-! DEFINITION. The jumps and branches (46_branch.md). No target is checked (R185) and there is no delay slot (R175). -/

namespace Sys2Proof.Machine

/-- `jez` (R176): jump to the address in `src2` if `src1` is zero; `rdes` gets the address of this instruction. -/
def execJez (rdes src1 src2 : RegNum) (s : State) : Result := linkAndGo rdes (s.reg src1 == 0) (s.reg src2) s

/-- `jnz` (R177): jump to the address in `src2` if `src1` is not zero; `rdes` gets the address of this instruction. -/
def execJnz (rdes src1 src2 : RegNum) (s : State) : Result := linkAndGo rdes (s.reg src1 != 0) (s.reg src2) s

/-- `bez` (R180): branch by the byte offset in `src2` if `src1` is zero; `rdes` gets the address of this instruction. -/
def execBez (rdes src1 src2 : RegNum) (s : State) : Result := linkAndGo rdes (s.reg src1 == 0) (s.pc + s.reg src2) s

/-- `bnz` (R181): branch by the byte offset in `src2` if `src1` is not zero; `rdes` gets the address of this instruction. -/
def execBnz (rdes src1 src2 : RegNum) (s : State) : Result := linkAndGo rdes (s.reg src1 != 0) (s.pc + s.reg src2) s

/-- `bezi` (R182): branch by `const16` instructions if `src1` is zero. -/
def execBezi (src1 : RegNum) (const16 : BitVec 16) (s : State) : Result :=
  branchTo (s.reg src1 == 0) (s.pc + branchOffset const16) s

/-- `bnzi` (R183): branch by `const16` instructions if `src1` is not zero. -/
def execBnzi (src1 : RegNum) (const16 : BitVec 16) (s : State) : Result :=
  branchTo (s.reg src1 != 0) (s.pc + branchOffset const16) s

end Sys2Proof.Machine
end

