-- ==== Sys2Proof/Machine/Compare.lean ====
section
/-! DEFINITION. The comparisons (45_compare.md R160): 1 or 0 in a general register. -/

namespace Sys2Proof.Machine

/-- `eq` (R161). -/
def execEq (rdes src1 src2 : RegNum) (s : State) : Result :=
  writeResult rdes (truthWord (decide (s.reg src1 = s.reg src2))) s

/-- `ges` (R162). -/
def execGes (rdes src1 src2 : RegNum) (s : State) : Result :=
  writeResult rdes (truthWord (decide ((s.reg src1).toInt ≥ (s.reg src2).toInt))) s

/-- `gts` (R163). -/
def execGts (rdes src1 src2 : RegNum) (s : State) : Result :=
  writeResult rdes (truthWord (decide ((s.reg src1).toInt > (s.reg src2).toInt))) s

/-- `geu` (R164). -/
def execGeu (rdes src1 src2 : RegNum) (s : State) : Result :=
  writeResult rdes (truthWord (decide ((s.reg src1).toNat ≥ (s.reg src2).toNat))) s

/-- `gtu` (R165). -/
def execGtu (rdes src1 src2 : RegNum) (s : State) : Result :=
  writeResult rdes (truthWord (decide ((s.reg src1).toNat > (s.reg src2).toNat))) s

end Sys2Proof.Machine
end

