-- ==== Sys2Proof/Machine/Console.lean ====
section
/-! DEFINITION. The console instructions (47_console.md). -/

namespace Sys2Proof.Machine

/-- `cin` (R195): the first byte of the console input, zero-extended. On empty input there is no step (R233, log 18). -/
def execCin (rdes : RegNum) (s : State) : Result :=
  match s.cinQ with
  | [] => .fault .stuckOnConsoleInput
  | b :: rest => writeResult rdes (b.zeroExtend 32) (s.setCin rest)

/-- `cout` (R196): the low byte of `src1` is appended to the console output. -/
def execCout (src1 : RegNum) (s : State) : Result := .next ((s.setCout (s.coutQ ++ [(s.reg src1).extractLsb' 0 8])).advance)

end Sys2Proof.Machine
end

