-- ==== Sys2Proof/Machine/Constants.lean ====
section
/-! DEFINITION. The constant loads (40_constants.md). -/

namespace Sys2Proof.Machine

/-- `lch` (R70): bits 31 to 16 become the constant, bits 15 to 0 keep their old value. -/
def execLch (rdes : RegNum) (const16 : BitVec 16) (s : State) : Result :=
  writeResult rdes (const16 ++ (s.reg rdes).extractLsb' 0 16) s

/-- `lcl` (R71): the constant, sign-extended. -/
def execLcl (rdes : RegNum) (const16 : BitVec 16) (s : State) : Result := writeResult rdes (const16.signExtend 32) s

end Sys2Proof.Machine
end

