-- ==== Sys2Proof/Machine/Halt.lean ====
section
/-! DEFINITION. Halting (48_halt.md). -/

namespace Sys2Proof.Machine

/-- `halt` (R200): the status becomes `Halted` and nothing else changes, `pc` included. -/
def execHalt (s : State) : Result := .next (s.setStatus .halted)

end Sys2Proof.Machine
end

