-- ==== Sys2Proof/Machine/LoadStore.lean ====
section
/-! DEFINITION. The loads, the stores and the exchange (44_loadstore.md). -/

namespace Sys2Proof.Machine

/-- `st1` (R146): the least significant byte of `src1` to the effective address. -/
def execSt1 (src1 src2 : RegNum) (const8 : BitVec 8) (s : State) : Result :=
  let addr := s.effAddr src2 const8
  ifNoFault (s.writeFault addr .byte) s (.next ((s.storeByte addr ((s.reg src1).extractLsb' 0 8)).advance))

/-- `st4` (R147): the word `src1` to the effective address. -/
def execSt4 (src1 src2 : RegNum) (const8 : BitVec 8) (s : State) : Result :=
  let addr := s.effAddr src2 const8
  ifNoFault (s.writeFault addr .word) s (.next ((s.storeWord addr (s.reg src1)).advance))

/-- `ld1` (R148): the byte at the effective address, sign-extended. -/
def execLd1 (rdes src1 : RegNum) (const8 : BitVec 8) (s : State) : Result :=
  let addr := s.effAddr src1 const8
  ifNoFault (s.readFault addr .byte) s (writeResult rdes ((s.loadByte addr).signExtend 32) s)

/-- `ld4` (R149): the word at the effective address. -/
def execLd4 (rdes src1 : RegNum) (const8 : BitVec 8) (s : State) : Result :=
  let addr := s.effAddr src1 const8
  ifNoFault (s.readFault addr .word) s (writeResult rdes (s.loadWord addr) s)

/-- `ex4` (R150): the register and the word at the effective address change places, after all the checks of the write. -/
def execEx4 (rdes src1 : RegNum) (const8 : BitVec 8) (s : State) : Result :=
  let addr := s.effAddr src1 const8
  ifNoFault (s.writeFault addr .word) s (writeResult rdes (s.loadWord addr) (s.storeWord addr (s.reg rdes)))

end Sys2Proof.Machine
end

