-- ==== Sys2Proof/Machine/Logical.lean ====
section
/-! DEFINITION. The logical operations, bit by bit (42_logical.md R120). -/

namespace Sys2Proof.Machine

/-- `and` (R121). -/
def execAnd (rdes src1 src2 : RegNum) (s : State) : Result := writeResult rdes (s.reg src1 &&& s.reg src2) s

/-- `nor` (R123). -/
def execNor (rdes src1 src2 : RegNum) (s : State) : Result := writeResult rdes (~~~(s.reg src1 ||| s.reg src2)) s

/-- `or` (R125). -/
def execOr (rdes src1 src2 : RegNum) (s : State) : Result := writeResult rdes (s.reg src1 ||| s.reg src2) s

/-- `xor` (R127). -/
def execXor (rdes src1 src2 : RegNum) (s : State) : Result := writeResult rdes (s.reg src1 ^^^ s.reg src2) s

end Sys2Proof.Machine
end

