-- ==== Sys2Proof/Machine/Shift.lean ====
section
/-! DEFINITION. The shifts (43_shift.md). The amount is the whole operand, unsigned (R131). -/

namespace Sys2Proof.Machine

/-- `shl` (R132). -/
def execShl (rdes src1 src2 : RegNum) (s : State) : Result :=
  writeResult rdes (shift s.launch.params.shiftBig .shl (s.reg src1) (s.reg src2)) s

/-- `shli` (R133). -/
def execShli (rdes src1 : RegNum) (const8 : BitVec 8) (s : State) : Result :=
  writeResult rdes (shift s.launch.params.shiftBig .shl (s.reg src1) (s.imm const8)) s

/-- `shr` (R134). -/
def execShr (rdes src1 src2 : RegNum) (s : State) : Result :=
  writeResult rdes (shift s.launch.params.shiftBig .shr (s.reg src1) (s.reg src2)) s

/-- `shri` (R136). -/
def execShri (rdes src1 : RegNum) (const8 : BitVec 8) (s : State) : Result :=
  writeResult rdes (shift s.launch.params.shiftBig .shr (s.reg src1) (s.imm const8)) s

/-- `shru` (R135). -/
def execShru (rdes src1 src2 : RegNum) (s : State) : Result :=
  writeResult rdes (shift s.launch.params.shiftBig .shru (s.reg src1) (s.reg src2)) s

/-- `shrui` (R137). -/
def execShrui (rdes src1 : RegNum) (const8 : BitVec 8) (s : State) : Result :=
  writeResult rdes (shift s.launch.params.shiftBig .shru (s.reg src1) (s.imm const8)) s

end Sys2Proof.Machine
end

