-- ==== Sys2Proof/Machine/Dispatch.lean ====
section
/-! DEFINITION. The meaning of every native instruction, one arm per constructor. -/

namespace Sys2Proof.Machine

def exec (i : Instr) (s : State) : Host.Outcome State Fault Refusal :=
  match i with
  | .lch rdes h => Sys2Proof.Machine.execLch rdes h s
  | .lcl rdes h => Sys2Proof.Machine.execLcl rdes h s
  | .add rdes src1 src2 => Sys2Proof.Machine.execAdd rdes src1 src2 s
  | .sub rdes src1 src2 => Sys2Proof.Machine.execSub rdes src1 src2 s
  | .mul rdes src1 src2 => Sys2Proof.Machine.execMul rdes src1 src2 s
  | .div rdes src1 src2 => Sys2Proof.Machine.execDiv rdes src1 src2 s
  | .mod rdes src1 src2 => Sys2Proof.Machine.execMod rdes src1 src2 s
  | .addo rdes src1 src2 => Sys2Proof.Machine.execAddo rdes src1 src2 s
  | .subo rdes src1 src2 => Sys2Proof.Machine.execSubo rdes src1 src2 s
  | .mulo rdes src1 src2 => Sys2Proof.Machine.execMulo rdes src1 src2 s
  | .addi rdes src1 k => Sys2Proof.Machine.execAddi rdes src1 k s
  | .subi rdes src1 k => Sys2Proof.Machine.execSubi rdes src1 k s
  | .muli rdes src1 k => Sys2Proof.Machine.execMuli rdes src1 k s
  | .divi rdes src1 k => Sys2Proof.Machine.execDivi rdes src1 k s
  | .modi rdes src1 k => Sys2Proof.Machine.execModi rdes src1 k s
  | .addio rdes src1 k => Sys2Proof.Machine.execAddio rdes src1 k s
  | .subio rdes src1 k => Sys2Proof.Machine.execSubio rdes src1 k s
  | .mulio rdes src1 k => Sys2Proof.Machine.execMulio rdes src1 k s
  | .and rdes src1 src2 => Sys2Proof.Machine.execAnd rdes src1 src2 s
  | .nor rdes src1 src2 => Sys2Proof.Machine.execNor rdes src1 src2 s
  | .or rdes src1 src2 => Sys2Proof.Machine.execOr rdes src1 src2 s
  | .xor rdes src1 src2 => Sys2Proof.Machine.execXor rdes src1 src2 s
  | .shl rdes src1 src2 => Sys2Proof.Machine.execShl rdes src1 src2 s
  | .shr rdes src1 src2 => Sys2Proof.Machine.execShr rdes src1 src2 s
  | .shru rdes src1 src2 => Sys2Proof.Machine.execShru rdes src1 src2 s
  | .shli rdes src1 k => Sys2Proof.Machine.execShli rdes src1 k s
  | .shri rdes src1 k => Sys2Proof.Machine.execShri rdes src1 k s
  | .shrui rdes src1 k => Sys2Proof.Machine.execShrui rdes src1 k s
  | .st1 src1 src2 k => Sys2Proof.Machine.execSt1 src1 src2 k s
  | .st4 src1 src2 k => Sys2Proof.Machine.execSt4 src1 src2 k s
  | .ld1 rdes src1 k => Sys2Proof.Machine.execLd1 rdes src1 k s
  | .ld4 rdes src1 k => Sys2Proof.Machine.execLd4 rdes src1 k s
  | .ex4 rdes src1 k => Sys2Proof.Machine.execEx4 rdes src1 k s
  | .eq rdes src1 src2 => Sys2Proof.Machine.execEq rdes src1 src2 s
  | .ges rdes src1 src2 => Sys2Proof.Machine.execGes rdes src1 src2 s
  | .gts rdes src1 src2 => Sys2Proof.Machine.execGts rdes src1 src2 s
  | .geu rdes src1 src2 => Sys2Proof.Machine.execGeu rdes src1 src2 s
  | .gtu rdes src1 src2 => Sys2Proof.Machine.execGtu rdes src1 src2 s
  | .jez rdes src1 src2 => Sys2Proof.Machine.execJez rdes src1 src2 s
  | .jnz rdes src1 src2 => Sys2Proof.Machine.execJnz rdes src1 src2 s
  | .bez rdes src1 src2 => Sys2Proof.Machine.execBez rdes src1 src2 s
  | .bnz rdes src1 src2 => Sys2Proof.Machine.execBnz rdes src1 src2 s
  | .bezi src1 h => Sys2Proof.Machine.execBezi src1 h s
  | .bnzi src1 h => Sys2Proof.Machine.execBnzi src1 h s
  | .cin rdes => Sys2Proof.Machine.execCin rdes s
  | .cout src1 => Sys2Proof.Machine.execCout src1 s
  | .halt => Sys2Proof.Machine.execHalt s

end Sys2Proof.Machine
end

