-- ==== Sys2Proof/Machine/Fetch.lean ====
section
/-! DEFINITION. Instruction fetch (20_memory.md R40) and placing an instruction where the next fetch finds it. -/

namespace Sys2Proof.Machine

/-- What a fetch answers. -/
inductive Fetched where
  | word (w : Word)
  | fault (reason : FaultReason)
  deriving DecidableEq, Repr

/-- Instruction fetch (R40): a multiple of 4, then inside the text, then the four bytes at `pc` in the byte order of R34. -/
def fetch (s : State) : Fetched :=
  if s.pc.toNat % 4 ≠ 0 then .fault (.fetchFault s.pc .misaligned)
  else if !s.inText s.pc.toNat then .fault (.fetchFault s.pc .outsideText)
  else .word (s.loadWord s.pc)

/-- `pc` rounded down to a multiple of 4. -/
def alignedPc (s : State) : Word := s.pc &&& ~~~3

/-- The text that holds the address `a`: the present one if it does, else a text of one instruction there. -/
def textHolding (s : State) (a : Word) : Launched :=
  if s.inText a.toNat then s.launch else { s.launch with textBase := a, textLen := 1 }

/-- The state whose next fetch reads the word `w`: running, `pc` a multiple of 4 inside the text, `w` stored there in the
machine's byte order (log 4). -/
def placeWord (s : State) (w : Word) : State :=
  { s with
    pc := alignedPc s
    status := .running
    launch := textHolding s (alignedPc s)
    mem := Memory.writeBytes s.mem (alignedPc s).toNat (bytesOfWord s.launch.params.byteOrder w) }

end Sys2Proof.Machine
end

