-- ==== Sys2Proof/Machine/Step.lean ====
section
/-! DEFINITION. One step of the machine (60_exceptions.md R230): only a `Running` machine has one; it fetches, decodes and
executes, and a fault of the fetch or of the decoding is taken as R232 says. -/

namespace Sys2Proof.Machine

/-- One step (10_state.md R10, R23; 60_exceptions.md R230, R235). -/
def step (s : State) : Host.Outcome State Fault Refusal :=
  match s.status with
  | .halted => .fault .halted
  | .faulted reason => .fault (.faulted reason)
  | .running =>
    match fetch s with
    | .fault reason => raise reason s
    | .word w =>
      match decode s.launch.params.opc w with
      | .illegal why => raise (.illegalInstruction w why) s
      | .legal i => exec i s

/-- The host's fixed name: `s` with the instruction whose bits are `w` placed where `step` fetches its next instruction (log 4). -/
def State.withFetchWord (s : State) (nbits w : Nat) : State := placeWord s (tableWord nbits w)

end Sys2Proof.Machine
end

