-- ==== Sys2Proof/Machine/Assembler.lean ====
section
/-! DEFINITION. The assembler as far as the spec gives it: the synthetic instructions and their reference expansions
(30_encoding.md R61 to R66, 49_artificial.md), labels, and running an expansion. It is no part of the machine: the machine sees
only the native instructions it answers. -/

namespace Sys2Proof.Machine

/-! ## Registers the assembler gives a role (10_state.md R13) -/

/-- `ze`, the zero register. -/
abbrev ze : RegNum := 0

/-- `sp`, the register `push` and `pop` use (49_artificial.md R211). -/
abbrev sp : RegNum := 2

/-- `u0`, the scratch register of the expansions (49_artificial.md R205). -/
abbrev u0 : RegNum := 60

/-! ## Lines -/

/-- A constant operand: a literal, or a label that stands for the address it marks (30_encoding.md R55, R61, R62). -/
inductive Const where
  | lit (v : Int)
  | label (name : List Char)
  deriving DecidableEq, Repr

/-- An operand as written. -/
inductive Operand where
  | reg (r : RegNum)
  | const (c : Const)
  deriving DecidableEq, Repr

/-- What a line names: a native mnemonic (its synthetic `const32` form too, where there is one), or a synthetic one. -/
inductive AsmOp where
  | native (m : Mnemonic)
  | lc
  | andi | nori | ori | xori
  | les | lts | leu | ltu
  | jezi | jnzi
  | mov | j | b | push | pop
  | call | entry | ret
  deriving DecidableEq, Repr

/-- One instruction of the assembly language. -/
structure AsmLine where
  op : AsmOp
  operands : List Operand
  deriving DecidableEq, Repr

/-- An item of a program: a label definition or an instruction. -/
inductive AsmItem where
  | label (name : List Char)
  | line (l : AsmLine)
  deriving DecidableEq, Repr

/-- Why the assembler refuses. -/
inductive AsmError where
  /-- The operands are not those of the mnemonic (30_encoding.md R51). -/
  | badOperands
  /-- A constant is outside the range of its field (R61). -/
  | constantOutOfRange
  /-- A branch target is not a whole number of instructions away, or too far (R61, 49_artificial.md R209). -/
  | branchOutOfReach
  /-- The destination of an "o" operation is odd (41_arithmetic.md R102). -/
  | oddDestination
  /-- A form that needs the scratch register names `u0` (49_artificial.md R205). -/
  | scratchOperand
  /-- `pop sp` (49_artificial.md R214). -/
  | popStackPointer
  /-- `call`, `entry` and `return` have no expansion and are refused by name (49_artificial.md R215 to R219). -/
  | noExpansion (op : AsmOp)
  /-- No definition gives the label an address (R62). -/
  | unknownLabel (name : List Char)
  /-- A label has a second definition, or the name of a data label given from outside: R62 is silent, and refusing the program is
  the model's choice (log 27). -/
  | duplicateLabel (name : List Char)
  /-- The text of a line is not an instruction (30_encoding.md R60). -/
  | badSyntax
  deriving DecidableEq, Repr

/-- What the assembler answers for a line or a program. -/
inductive Assembled where
  | ok (program : List Instr)
  | refused (why : AsmError)
  deriving DecidableEq, Repr

/-- The addresses of the labels. -/
abbrev Symbols := List (List Char × Word)

/-- The address of a label. -/
def Symbols.find (syms : Symbols) (name : List Char) : Option Word := (List.find? (fun p => p.1 == name) syms).map (·.2)

/-! ## Constants (30_encoding.md R61, R65) -/

/-- The `const8` field of a literal, if it is in the range the choice of P_IMM8_EXT gives (R61). -/
def const8Field (e : Imm8Ext) (v : Int) : Option (BitVec 8) :=
  match e with
  | .sign => if -128 ≤ v ∧ v ≤ 127 then some (BitVec.ofInt 8 v) else none
  | .zero => if 0 ≤ v ∧ v ≤ 255 then some (BitVec.ofInt 8 v) else none

/-- The `const16` field of `lcl` and `lch` (R61): -32768 to 65535. -/
def const16Field (v : Int) : Option (BitVec 16) := if -32768 ≤ v ∧ v ≤ 65535 then some (BitVec.ofInt 16 v) else none

/-- The count of `bezi` and `bnzi` (R61): -32768 to 32767. -/
def countField (v : Int) : Option (BitVec 16) := if -32768 ≤ v ∧ v ≤ 32767 then some (BitVec.ofInt 16 v) else none

/-- The count from the instruction at `here` to the address `target`: `(target - here) / 4` if that is an integer in range (R61,
49_artificial.md R209). DESIGN CHOICE (log 28): neither rule says whether the difference wraps modulo 2^32, as R8 reads an unmarked
`-`; it is the plain integer here, so a short branch across address 0 is refused. -/
def countTo (here target : Word) : Option (BitVec 16) :=
  let d : Int := (target.toNat : Int) - here.toNat
  if d % 4 = 0 then countField (d / 4) else none

/-- The 32-bit value of a `const32` operand (R61): a literal from -2^31 to 2^32 - 1, or a label's address. -/
def constValue (syms : Symbols) (c : Const) (use : Word → Assembled) : Assembled :=
  match c with
  | .lit v => if -2 ^ 31 ≤ v ∧ v ≤ 2 ^ 32 - 1 then use (BitVec.ofInt 32 v) else .refused .constantOutOfRange
  | .label name =>
    match syms.find name with
    | some a => use a
    | none => .refused (.unknownLabel name)

/-- One `lcl` is enough for a literal whose value, read as signed 32-bit, is in -32768 .. 32767; never for a label (R65). -/
def fitsLcl (c : Const) : Bool :=
  match c with
  | .lit v => decide (-32768 ≤ (BitVec.ofInt 32 v).toInt) && decide ((BitVec.ofInt 32 v).toInt ≤ 32767)
  | .label _ => false

/-- `lcl r, K[15:0]`; `lch r, K[31:16]` (40_constants.md R72). -/
def loadBoth (r : RegNum) (k : Word) : List Instr := [.lcl r (k.extractLsb' 0 16), .lch r (k.extractLsb' 16 16)]

/-- `load32 u0, K` (R65). -/
def load32 (c : Const) (k : Word) : List Instr := if fitsLcl c then [.lcl u0 (k.extractLsb' 0 16)] else loadBoth u0 k

/-! ## Expansion (30_encoding.md R66) -/

/-- A form that brings its constant into the scratch register and then runs a native instruction: refused when a register operand
is `u0` (R64, 49_artificial.md R205). -/
def withScratch (syms : Symbols) (regs : List RegNum) (c : Const) (last : Instr) : Assembled :=
  if regs.any (· == u0) then .refused .scratchOperand
  else constValue syms c fun k => .ok (load32 c k ++ [last])

/-- A native instruction stands for itself; a word that would be illegal is refused (30_encoding.md R59). -/
def native (i : Instr) : Assembled := if i.wf then .ok [i] else .refused .oddDestination

/-- A mnemonic with a native `const8` form and a synthetic `const32` form (R61): a literal in the `const8` range takes the native
one, any other constant the synthetic one. -/
def immediate (p : Params) (syms : Symbols) (rdes src1 : RegNum) (c : Const) (short : BitVec 8 → Instr) (long : Instr) : Assembled :=
  let wide := if long.wf then withScratch syms [rdes, src1] c long else .refused .oddDestination
  match c with
  | .lit v =>
    match const8Field p.imm8Ext v with
    | some k => native (short k)
    | none => wide
  | .label _ => wide

/-- A native instruction of format RRI that has no `const32` form: a literal in the `const8` range only. DEDUCED (log 31): a label,
which R62 makes a 32-bit constant, is refused. -/
def nativeConst8 (p : Params) (c : Const) (i : BitVec 8 → Instr) : Assembled :=
  match c with
  | .lit v =>
    match const8Field p.imm8Ext v with
    | some k => native (i k)
    | none => .refused .constantOutOfRange
  | .label _ => .refused .constantOutOfRange

/-- `lcl` and `lch` with a literal (R61). DEDUCED (log 31): a label, which R62 makes a 32-bit constant, is refused. -/
def nativeConst16 (c : Const) (i : BitVec 16 → Instr) : Assembled :=
  match c with
  | .lit v =>
    match const16Field v with
    | some h => native (i h)
    | none => .refused .constantOutOfRange
  | .label _ => .refused .constantOutOfRange

/-- `bezi` and `bnzi` (R61): a literal is a count of instructions, a label the target. -/
def nativeBranch (syms : Symbols) (here : Word) (c : Const) (i : BitVec 16 → Instr) : Assembled :=
  match c with
  | .lit v =>
    match countField v with
    | some h => native (i h)
    | none => .refused .constantOutOfRange
  | .label name =>
    match syms.find name with
    | none => .refused (.unknownLabel name)
    | some a =>
      match countTo here a with
      | some h => native (i h)
      | none => .refused .branchOutOfReach

/-- `b const32` (49_artificial.md R209): the constant is the destination. -/
def branchToConst (syms : Symbols) (here : Word) (c : Const) : Assembled :=
  constValue syms c fun k =>
    match countTo here k with
    | some h => .ok [.bezi ze h]
    | none => .refused .branchOutOfReach

/-- The native instruction of a three-register mnemonic, for format RRR; `none` for the other formats. -/
def instrRRR (m : Mnemonic) (a b c : RegNum) : Option Instr :=
  match m with
  | .add => some (.add a b c) | .sub => some (.sub a b c) | .mul => some (.mul a b c) | .div => some (.div a b c)
  | .mod => some (.mod a b c) | .addo => some (.addo a b c) | .subo => some (.subo a b c) | .mulo => some (.mulo a b c)
  | .and => some (.and a b c) | .nor => some (.nor a b c) | .or => some (.or a b c) | .xor => some (.xor a b c)
  | .shl => some (.shl a b c) | .shr => some (.shr a b c) | .shru => some (.shru a b c)
  | .eq => some (.eq a b c) | .ges => some (.ges a b c) | .gts => some (.gts a b c) | .geu => some (.geu a b c)
  | .gtu => some (.gtu a b c) | .jez => some (.jez a b c) | .jnz => some (.jnz a b c) | .bez => some (.bez a b c)
  | .bnz => some (.bnz a b c)
  | _ => none

/-- Two registers and a constant: the loads, stores and exchange natively, the eleven immediates natively or through the scratch
register (R61, R66). DESIGN CHOICE (log 30): a shift by a label of address 0 to 31 has the effect of the reference expansion, R130's
shift by that amount, where 43_shift.md R138 to R140 take every such constant to be 32 or more and write P_SHIFT_BIG. -/
def expandConst8 (p : Params) (syms : Symbols) (m : Mnemonic) (a b : RegNum) (c : Const) : Assembled :=
  match m with
  | .addi => immediate p syms a b c (.addi a b) (.add a b u0)
  | .subi => immediate p syms a b c (.subi a b) (.sub a b u0)
  | .muli => immediate p syms a b c (.muli a b) (.mul a b u0)
  | .divi => immediate p syms a b c (.divi a b) (.div a b u0)
  | .modi => immediate p syms a b c (.modi a b) (.mod a b u0)
  | .addio => immediate p syms a b c (.addio a b) (.addo a b u0)
  | .subio => immediate p syms a b c (.subio a b) (.subo a b u0)
  | .mulio => immediate p syms a b c (.mulio a b) (.mulo a b u0)
  | .shli => immediate p syms a b c (.shli a b) (.shl a b u0)
  | .shri => immediate p syms a b c (.shri a b) (.shr a b u0)
  | .shrui => immediate p syms a b c (.shrui a b) (.shru a b u0)
  | .st1 => nativeConst8 p c (.st1 a b)
  | .st4 => nativeConst8 p c (.st4 a b)
  | .ld1 => nativeConst8 p c (.ld1 a b)
  | .ld4 => nativeConst8 p c (.ld4 a b)
  | .ex4 => nativeConst8 p c (.ex4 a b)
  | _ => .refused .badOperands

/-- A line with a native mnemonic. -/
def expandNative (p : Params) (syms : Symbols) (here : Word) (m : Mnemonic) (operands : List Operand) : Assembled :=
  match operands with
  | [.reg a, .reg b, .reg c] =>
    match instrRRR m a b c with
    | some i => native i
    | none => .refused .badOperands
  | [.reg a, .reg b, .const c] => expandConst8 p syms m a b c
  | [.reg a, .const c] =>
    match m with
    | .lch => nativeConst16 c (.lch a)
    | .lcl => nativeConst16 c (.lcl a)
    | .bezi => nativeBranch syms here c (.bezi a)
    | .bnzi => nativeBranch syms here c (.bnzi a)
    | _ => .refused .badOperands
  | [.reg a] =>
    match m with
    | .cin => native (.cin a)
    | .cout => native (.cout a)
    | _ => .refused .badOperands
  | [] =>
    match m with
    | .halt => native .halt
    | _ => .refused .badOperands
  | _ => .refused .badOperands

/-- The native instructions a line stands for when its first one stands at the address `here` (R64, R66). -/
def expand (p : Params) (syms : Symbols) (here : Word) (l : AsmLine) : Assembled :=
  match l.op, l.operands with
  | .native m, operands => expandNative p syms here m operands
  | .lc, [.reg rdes, .const c] => constValue syms c fun k => .ok (loadBoth rdes k)
  | .andi, [.reg rdes, .reg src1, .const c] => withScratch syms [rdes, src1] c (.and rdes src1 u0)
  | .nori, [.reg rdes, .reg src1, .const c] => withScratch syms [rdes, src1] c (.nor rdes src1 u0)
  | .ori, [.reg rdes, .reg src1, .const c] => withScratch syms [rdes, src1] c (.or rdes src1 u0)
  | .xori, [.reg rdes, .reg src1, .const c] => withScratch syms [rdes, src1] c (.xor rdes src1 u0)
  | .les, [.reg rdes, .reg src1, .reg src2] => .ok [.ges rdes src2 src1]
  | .lts, [.reg rdes, .reg src1, .reg src2] => .ok [.gts rdes src2 src1]
  | .leu, [.reg rdes, .reg src1, .reg src2] => .ok [.geu rdes src2 src1]
  | .ltu, [.reg rdes, .reg src1, .reg src2] => .ok [.gtu rdes src2 src1]
  | .jezi, [.reg rdes, .reg src1, .const c] => withScratch syms [rdes, src1] c (.jez rdes src1 u0)
  | .jnzi, [.reg rdes, .reg src1, .const c] => withScratch syms [rdes, src1] c (.jnz rdes src1 u0)
  | .mov, [.reg rdes, .reg src1] => .ok [.add rdes src1 ze]
  | .j, [.const c] => withScratch syms [] c (.jez ze ze u0)
  | .j, [.reg src1] => .ok [.jez ze ze src1]
  | .b, [.const c] => branchToConst syms here c
  | .b, [.reg src1] => .ok [.bez ze ze src1]
  | .push, [.reg src1] => .ok [.subi sp sp 4, .st4 src1 sp 0]
  | .pop, [.reg rdes] => if rdes = sp then .refused .popStackPointer else .ok [.ld4 rdes sp 0, .addi sp sp 4]
  | .call, [.const _] => .refused (.noExpansion .call)
  | .entry, [.const _] => .refused (.noExpansion .entry)
  | .ret, [.reg _] => .refused (.noExpansion .ret)
  | .ret, [.const _] => .refused (.noExpansion .ret)
  | _, _ => .refused .badOperands

/-! ## Programs: labels and addresses (30_encoding.md R62) -/

/-- How many instructions `load32` takes. -/
def loadSize (c : Const) : Nat := if fitsLcl c then 1 else 2

/-- The eleven mnemonics with a native `const8` form and a synthetic `const32` form (R61). -/
def hasWideForm (m : Mnemonic) : Bool :=
  match m with
  | .addi | .subi | .muli | .divi | .modi | .addio | .subio | .mulio | .shli | .shri | .shrui => true
  | _ => false

/-- Whether a constant takes the native `const8` form. -/
def fitsConst8 (p : Params) (c : Const) : Bool :=
  match c with
  | .lit v => (const8Field p.imm8Ext v).isSome
  | .label _ => false

/-- How many instructions a line becomes, known before any label has an address (R62). -/
def lineSize (p : Params) (l : AsmLine) : Nat :=
  match l.op, l.operands with
  | .native m, [_, _, .const c] => if hasWideForm m && !fitsConst8 p c then loadSize c + 1 else 1
  | .lc, _ | .push, _ | .pop, _ => 2
  | .andi, [_, _, .const c] | .nori, [_, _, .const c] | .ori, [_, _, .const c] | .xori, [_, _, .const c] => loadSize c + 1
  | .jezi, [_, _, .const c] | .jnzi, [_, _, .const c] | .j, [.const c] => loadSize c + 1
  | _, _ => 1

/-- What the first pass answers. -/
inductive Labelled where
  | ok (syms : Symbols)
  | refused (why : AsmError)
  deriving DecidableEq, Repr

/-- The first pass: a label's value is the address of the next instruction (R62). DESIGN CHOICE (log 27): R62 is silent on a
label defined twice, or named as a data label of `syms` given from outside; the program is refused.
DESIGN CHOICE (log 29): R62 is silent on a label after which no instruction follows; its value is the address just past the text. -/
def collect (p : Params) : Word → Symbols → List AsmItem → Labelled
  | _, syms, [] => .ok syms
  | here, syms, .label name :: rest =>
    match syms.find name with
    | some _ => .refused (.duplicateLabel name)
    | none => collect p here (syms ++ [(name, here)]) rest
  | here, syms, .line l :: rest => collect p (here + 4 * BitVec.ofNat 32 (lineSize p l)) syms rest

/-- The second pass: every line expanded at its address. -/
def expandAll (p : Params) (syms : Symbols) : Word → List AsmItem → Assembled
  | _, [] => .ok []
  | here, .label _ :: rest => expandAll p syms here rest
  | here, .line l :: rest =>
    match expand p syms here l with
    | .refused why => .refused why
    | .ok is =>
      match expandAll p syms (here + 4 * BitVec.ofNat 32 is.length) rest with
      | .refused why => .refused why
      | .ok more => .ok (is ++ more)

/-- Assembling a program whose text starts at `base`. `dataSyms` gives the labels of data their addresses: no directive places data
(30_encoding.md R63). -/
def assemble (p : Params) (base : Word) (dataSyms : Symbols) (items : List AsmItem) : Assembled :=
  match collect p base dataSyms items with
  | .refused why => .refused why
  | .ok syms => expandAll p syms base items

/-! ## Running an expansion -/

/-- Executing native instructions one after another, as long as the machine is running. -/
def execAll : List Instr → State → Result
  | [], s => .next s
  | i :: is, s =>
    match exec i s with
    | .next t =>
      match t.status with
      | .running => execAll is t
      | _ => .next t
    | .fault r => .fault r
    | .refused r => .refused r

end Sys2Proof.Machine
end

