-- ==== Sys2Proof/Machine/AsmText.lean ====
section
/-! DEFINITION. The written form of the assembly language (30_encoding.md R60 to R62): one instruction a line, operands separated by
commas, `#` to the end of the line a comment, register names, decimal and `0x` constants, `name:` a label. No directive is
specified (R63). -/

namespace Sys2Proof.Machine

/-! ## Characters -/

/-- A blank inside a line: R60 says white space, and which characters those are is a DESIGN CHOICE (log 26). -/
def isBlank (c : Char) : Bool := c == ' ' || c == '\t' || c == '\r'

/-- The pieces of a text between the characters that satisfy `sep`. -/
def pieces (sep : Char → Bool) : List Char → List (List Char)
  | [] => [[]]
  | c :: cs =>
    if sep c then [] :: pieces sep cs
    else
      match pieces sep cs with
      | [] => [[c]]
      | w :: ws => (c :: w) :: ws

/-- A text without the blanks at its ends. -/
def trimBlanks (cs : List Char) : List Char := ((cs.dropWhile isBlank).reverse.dropWhile isBlank).reverse

/-- A line without its comment (R60). -/
def dropComment (cs : List Char) : List Char := cs.takeWhile (· != '#')

/-- The value of a hexadecimal digit. -/
def hexDigit (c : Char) : Option Nat :=
  if '0' ≤ c ∧ c ≤ '9' then some (c.toNat - '0'.toNat)
  else if 'a' ≤ c ∧ c ≤ 'f' then some (c.toNat - 'a'.toNat + 10)
  else if 'A' ≤ c ∧ c ≤ 'F' then some (c.toNat - 'A'.toNat + 10)
  else none

/-- The value of a list of digits of a base, read after the value `acc`. -/
def digitsFrom (base : Nat) : Nat → List Char → Option Nat
  | acc, [] => some acc
  | acc, c :: cs =>
    match hexDigit c with
    | some d => if d < base then digitsFrom base (acc * base + d) cs else none
    | none => none

/-- A number: at least one digit. -/
def number (base : Nat) (cs : List Char) : Option Nat := if cs.isEmpty then none else digitsFrom base 0 cs

/-- A literal constant (R61): decimal with an optional leading `-`, or `0x` hexadecimal. DESIGN CHOICE (log 26): leading zeros and
hexadecimal digits of either case are read. -/
def literal : List Char → Option Int
  | '0' :: 'x' :: cs => (number 16 cs).map Int.ofNat
  | '-' :: cs => (number 10 cs).map fun n => -(n : Int)
  | cs => (number 10 cs).map Int.ofNat

/-! ## Register names (10_state.md R13) -/

/-- The register a name with an index names: the number `first` plus the index, if the index is at most `last`.
DESIGN CHOICE (log 26): R6 (P_REGNAMES) and R13 list the names without leading zeros and do not speak of others; an index with
leading zeros is read as its number, so `g00`, `u03` and `r007` are registers, and no label can have such a name. -/
def indexed (first last : Nat) (cs : List Char) : Option RegNum :=
  match number 10 cs with
  | some k => if k ≤ last then some (BitVec.ofNat 6 (first + k)) else none
  | none => none

/-- The register a name names: `ze`, `ra`, `sp`, `fp`, `g0` to `g55`, `u0` to `u3`, `r0` to `r63` (R13),
the index with or without leading zeros (log 26). -/
def registerOfName : List Char → Option RegNum
  | ['z', 'e'] => some 0
  | ['r', 'a'] => some 1
  | ['s', 'p'] => some 2
  | ['f', 'p'] => some 3
  | 'g' :: cs => indexed 4 55 cs
  | 'u' :: cs => indexed 60 3 cs
  | 'r' :: cs => indexed 0 63 cs
  | _ => none

/-! ## Labels, mnemonics, lines -/

/-- A letter or an underscore. -/
def isNameStart (c : Char) : Bool := c.isAlpha || c == '_'

/-- PRESUMED (log 25): a label is a letter or underscore followed by letters, digits and underscores, and no register name. -/
def isLabelName : List Char → Bool
  | [] => false
  | c :: cs => isNameStart c && cs.all (fun d => isNameStart d || d.isDigit) && (registerOfName (c :: cs)).isNone

/-- The written mnemonics of the native instructions. -/
def nativeNames : List (String × Mnemonic) :=
  [("lch", .lch), ("lcl", .lcl), ("add", .add), ("sub", .sub), ("mul", .mul), ("div", .div), ("mod", .mod), ("addo", .addo),
   ("subo", .subo), ("mulo", .mulo), ("addi", .addi), ("subi", .subi), ("muli", .muli), ("divi", .divi), ("modi", .modi),
   ("addio", .addio), ("subio", .subio), ("mulio", .mulio), ("and", .and), ("nor", .nor), ("or", .or), ("xor", .xor),
   ("shl", .shl), ("shr", .shr), ("shru", .shru), ("shli", .shli), ("shri", .shri), ("shrui", .shrui), ("st1", .st1),
   ("st4", .st4), ("ld1", .ld1), ("ld4", .ld4), ("ex4", .ex4), ("eq", .eq), ("ges", .ges), ("gts", .gts), ("geu", .geu),
   ("gtu", .gtu), ("jez", .jez), ("jnz", .jnz), ("bez", .bez), ("bnz", .bnz), ("bezi", .bezi), ("bnzi", .bnzi), ("cin", .cin),
   ("cout", .cout), ("halt", .halt)]

/-- The written mnemonics that are synthetic only (00_scope.md R3). -/
def syntheticNames : List (String × AsmOp) :=
  [("lc", .lc), ("andi", .andi), ("nori", .nori), ("ori", .ori), ("xori", .xori), ("les", .les), ("lts", .lts), ("leu", .leu),
   ("ltu", .ltu), ("jezi", .jezi), ("jnzi", .jnzi), ("mov", .mov), ("j", .j), ("b", .b), ("push", .push), ("pop", .pop),
   ("call", .call), ("entry", .entry), ("return", .ret)]

/-- The mnemonic a word names. -/
def opOfName (cs : List Char) : Option AsmOp :=
  match nativeNames.find? (fun p => p.1.toList == cs) with
  | some (_, m) => some (.native m)
  | none => (syntheticNames.find? (fun p => p.1.toList == cs)).map (·.2)

/-- An operand as written: a register, a literal or a label. -/
def operandOfText (cs : List Char) : Option Operand :=
  match registerOfName cs with
  | some r => some (.reg r)
  | none =>
    match literal cs with
    | some v => some (.const (.lit v))
    | none => if isLabelName cs then some (.const (.label cs)) else none

/-- The operands of a line, separated by commas. R60 allows white space after a comma and is silent on white space before one.
DESIGN CHOICE (log 26): each operand loses the blanks on both its sides, so both are accepted. -/
def operandsOfText (cs : List Char) : Option (List Operand) :=
  if (trimBlanks cs).isEmpty then some [] else (pieces (· == ',') cs).mapM fun w => operandOfText (trimBlanks w)

/-- An instruction as written: the mnemonic, blanks, the operands. -/
def lineOfText (cs : List Char) : Option AsmLine :=
  match opOfName (cs.takeWhile fun c => !isBlank c), operandsOfText (cs.dropWhile fun c => !isBlank c) with
  | some op, some operands => some ⟨op, operands⟩
  | _, _ => none

/-- The instruction items of a text that has no label: none for a blank text. -/
def itemsOfInstruction (cs : List Char) : Option (List AsmItem) :=
  if cs.isEmpty then some [] else (lineOfText cs).map fun l => [.line l]

/-- The items of a source line: an optional label, an optional instruction (R60, R62). DESIGN CHOICE (log 26): a label and an
instruction may share a line, and no blank stands before the colon. -/
def itemsOfLine (cs : List Char) : Option (List AsmItem) :=
  let text := trimBlanks (dropComment cs)
  match pieces (· == ':') text with
  | [_] => itemsOfInstruction text
  | [name, rest] =>
    if isLabelName name then (itemsOfInstruction (trimBlanks rest)).map (AsmItem.label name :: ·) else none
  | _ => none

/-- The items of a source text. -/
def itemsOfText (cs : List Char) : Option (List AsmItem) :=
  ((pieces (· == '\n') cs).mapM itemsOfLine).map List.flatten

/-- Assembling a source text whose program starts at `base`. -/
def assembleText (p : Params) (base : Word) (dataSyms : Symbols) (source : List Char) : Assembled :=
  match itemsOfText source with
  | some items => assemble p base dataSyms items
  | none => .refused .badSyntax

end Sys2Proof.Machine
end

