-- ==== Sys2Proof/Machine/Launch.lean ====
section
/-! DEFINITION. The launch, which stands for reset (70_reset_and_hazards.md R260): its arguments, which launches are admitted
(R261), and the state a launch gives (10_state.md R25). -/

namespace Sys2Proof.Machine

/-- The launch arguments: the open parameters, P_TEXT_BASE, P_PROGRAM, P_DATA with its contents, P_ENTRY, P_INPUT, and the values
the registers 1 to 63 happen to hold (R25: unspecified; treatment (b) of 60_exceptions.md R241, log 2). -/
structure Launch where
  params : Params
  textBase : Word
  program : List Instr
  data : List AddrRange
  contents : List Host.Cell
  entry : Word
  input : List Byte
  registers : Vector Word 64
  deriving DecidableEq, Repr

/-- A range of P_DATA starts and ends on a multiple of 4 inside the address space (20_memory.md R31). -/
def rangeWf (r : AddrRange) : Bool := decide (r.lo % 4 = 0) && decide (r.hi % 4 = 0) && decide (r.hi ≤ 2 ^ 32)

/-- A range has no address in common with the `len` instructions from `base`. -/
def rangeClearOf (r : AddrRange) (base len : Nat) : Bool :=
  decide (r.hi ≤ r.lo) || decide (len = 0) || decide (r.hi ≤ base) || decide (base + 4 * len ≤ r.lo)

/-- The arguments a run keeps are well formed (R31, 30_encoding.md R57): the text starts on a multiple of 4 and does not run past
the last address, the data ranges are aligned, the opcode numbers differ. -/
def Launched.wf (l : Launched) : Bool :=
  decide (l.textBase.toNat % 4 = 0) && decide (l.textBase.toNat + 4 * l.textLen ≤ 2 ^ 32) && l.data.all rangeWf &&
    Opcodes.injective l.params.opc

/-- The arguments of a launch that the run keeps. -/
def Launch.kept (l : Launch) : Launched := ⟨l.params, l.textBase, l.program.length, l.data⟩

/-- The address of a launch content lies in P_DATA. -/
def Launch.holds (l : Launch) (c : Host.Cell) : Bool := l.data.any fun r => decide (r.lo ≤ c.1) && decide (c.1 < r.hi)

/-- Which launches are admitted (R261). -/
def Launch.wf (l : Launch) : Bool :=
  l.kept.wf && l.program.all Instr.wf && l.data.all (fun r => rangeClearOf r l.textBase.toNat l.program.length) &&
    l.contents.all l.holds && decide (l.entry.toNat % 4 = 0) && decide (l.textBase.toNat ≤ l.entry.toNat) &&
    decide (l.entry.toNat < l.textBase.toNat + 4 * l.program.length)

/-- The bytes of the text: the encoding of each instruction of P_PROGRAM in turn (20_memory.md R33). -/
def Launch.textBytes (l : Launch) : List Byte :=
  l.program.flatMap fun i => bytesOfWord l.params.byteOrder (encode l.params.opc i)

/-- Storing launch contents, one byte after another. -/
def storeCells (m : Memory) : List Host.Cell → Memory
  | [] => m
  | c :: cs => storeCells (Memory.writeByte m c.1 c.2) cs

/-- Memory at launch: the contents given with P_DATA and the encoded program at P_TEXT_BASE (R25). -/
def Launch.memory (l : Launch) : Memory := Memory.writeBytes (storeCells [] l.contents) l.textBase.toNat l.textBytes

/-- The launch state (10_state.md R25, 70_reset_and_hazards.md R260). -/
def Launch.state (l : Launch) : State where
  regs := l.registers.set 0 0
  pc := l.entry
  mem := l.memory
  cinQ := l.input
  coutQ := []
  status := .running
  launch := l.kept

/-- A launch: the launch state, or a refusal of a launch that R261 does not admit. -/
def launch (l : Launch) : Result := if l.wf then .next l.state else .refused .malformedLaunch

end Sys2Proof.Machine
end

