-- ==== Sys2Proof/Safety.lean ====
section
/-! DEFINITION. The terms the statements use: what a state of the machine must satisfy, how an attempt at a step can end
(60_exceptions.md R230), how a run ends (70_reset_and_hazards.md R267), and what an instruction leaves unchanged. -/

namespace Sys2Proof.Machine

/-! ## Well-formed states -/

/-- What every state of a run satisfies: memory in its canonical form, the zero register's cell zero, and well-formed launch
arguments (20_memory.md R31, 30_encoding.md R57). -/
def State.wf (s : State) : Bool := Memory.wf s.mem && decide (s.regs[0] = 0) && s.launch.wf

/-- `Halted` is the only final status (10_state.md R23, 60_exceptions.md R230). -/
def State.isFinal (s : State) : Bool := s.status == .halted

/-! ## Attempts and runs -/

/-- The outcomes of attempting a step (60_exceptions.md R230). -/
inductive Attempt where
  /-- The instruction executed. -/
  | step (s : State)
  /-- The machine entered `Faulted(reason)`. -/
  | fault (reason : FaultReason) (s : State)
  /-- A `cin` on empty input: no step, no state change. -/
  | stuck
  /-- The status is already `Halted`: no step. -/
  | halted
  /-- The status is already `Faulted(reason)`: no step. -/
  | faulted (reason : FaultReason)
  /-- The model refused: no state of the machine is such a case. -/
  | refused
  deriving DecidableEq, Repr

/-- Attempting a step (R230). -/
def attempt (s : State) : Attempt :=
  match step s with
  | .next t =>
    match t.status with
    | .faulted reason => .fault reason t
    | .running | .halted => .step t
  | .fault .stuckOnConsoleInput => .stuck
  | .fault .halted => .halted
  | .fault (.faulted reason) => .faulted reason
  | .refused _ => .refused

/-- A run of `k` steps from `s` gives the state `t`. -/
def RunsTo (k : Nat) (s t : State) : Prop := Host.Core.run core k s = .next t

/-- A run ends well exactly when a `halt` executes (70_reset_and_hazards.md R267). -/
def EndsWell (s : State) : Prop := ∃ k t, RunsTo k s t ∧ t.isFinal = true

/-- An instruction executes and gives a next state with the property `P`. -/
def Completes (i : Instr) (s : State) (P : State → Prop) : Prop := ∃ t, exec i s = .next t ∧ P t

/-! ## What stays unchanged -/

/-- Every register reads as before. -/
def SameRegs (s t : State) : Prop := ∀ r, t.reg r = s.reg r

/-- Every register but `rdes` reads as before. -/
def SameRegsBut (rdes : RegNum) (s t : State) : Prop := ∀ r, r ≠ rdes → t.reg r = s.reg r

/-- Every byte of memory reads as before. -/
def SameBytes (s t : State) : Prop := ∀ a, t.byteAt a = s.byteAt a

/-- Every byte outside the `n` bytes from `a` reads as before. -/
def SameBytesBut (a n : Nat) (s t : State) : Prop := ∀ b, b < a ∨ a + n ≤ b → t.byteAt b = s.byteAt b

/-- Both console lists are as before. -/
def SameConsole (s t : State) : Prop := t.cinQ = s.cinQ ∧ t.coutQ = s.coutQ

/-- The run status and the launch arguments are as before. -/
def SameRun (s t : State) : Prop := t.status = s.status ∧ t.launch = s.launch

/-- What a write of `v` to `rdes` leaves there: nothing is written to register 0 (10_state.md R12). -/
def written (rdes : RegNum) (v : Word) : Word := if rdes = 0 then 0 else v

/-- The only effect is that `rdes` gets `v` and `pc` advances. -/
def OnlyWrites (rdes : RegNum) (v : Word) (s t : State) : Prop :=
  t.reg rdes = written rdes v ∧ SameRegsBut rdes s t ∧ t.pc = s.pc + 4 ∧ SameBytes s t ∧ SameConsole s t ∧ SameRun s t

/-- The only effect is that `rdes` gets `v` and `pc` becomes `target`. -/
def OnlyLinks (rdes : RegNum) (v target : Word) (s t : State) : Prop :=
  t.reg rdes = written rdes v ∧ SameRegsBut rdes s t ∧ t.pc = target ∧ SameBytes s t ∧ SameConsole s t ∧ SameRun s t

/-- The only effect is that the pair `rdes`, `rdes + 1` gets `low`, `high` and `pc` advances. -/
def OnlyWritesPair (rdes : RegNum) (low high : Word) (s t : State) : Prop :=
  t.reg rdes = written rdes low ∧ t.reg (pairHigh rdes) = high ∧ (∀ r, r ≠ rdes → r ≠ pairHigh rdes → t.reg r = s.reg r) ∧
    t.pc = s.pc + 4 ∧ SameBytes s t ∧ SameConsole s t ∧ SameRun s t

/-- The only effect is that the status becomes `Faulted(reason)` (60_exceptions.md R232). -/
def OnlyFaults (reason : FaultReason) (s t : State) : Prop :=
  t.status = .faulted reason ∧ SameRegs s t ∧ t.pc = s.pc ∧ SameBytes s t ∧ SameConsole s t ∧ t.launch = s.launch

/-- Executing the instruction takes the fault `reason` and has no other effect. -/
def ExecFaults (i : Instr) (s : State) (reason : FaultReason) : Prop := ∃ t, exec i s = .next t ∧ OnlyFaults reason s t

/-- The step takes the fault `reason` and has no other effect. -/
def StepFaults (s : State) (reason : FaultReason) : Prop := ∃ t, step s = .next t ∧ OnlyFaults reason s t

/-! ## What an instruction names -/

/-- The registers an instruction may write (10_state.md R15, 30_encoding.md R51). -/
def destinations : Instr → List RegNum
  | .lch d _ | .lcl d _ => [d]
  | .add d _ _ | .sub d _ _ | .mul d _ _ | .div d _ _ | .mod d _ _ => [d]
  | .addi d _ _ | .subi d _ _ | .muli d _ _ | .divi d _ _ | .modi d _ _ => [d]
  | .addo d _ _ | .subo d _ _ | .mulo d _ _ | .addio d _ _ | .subio d _ _ | .mulio d _ _ => [d, pairHigh d]
  | .and d _ _ | .nor d _ _ | .or d _ _ | .xor d _ _ => [d]
  | .shl d _ _ | .shr d _ _ | .shru d _ _ | .shli d _ _ | .shri d _ _ | .shrui d _ _ => [d]
  | .st1 _ _ _ | .st4 _ _ _ => []
  | .ld1 d _ _ | .ld4 d _ _ | .ex4 d _ _ => [d]
  | .eq d _ _ | .ges d _ _ | .gts d _ _ | .geu d _ _ | .gtu d _ _ => [d]
  | .jez d _ _ | .jnz d _ _ | .bez d _ _ | .bnz d _ _ => [d]
  | .bezi _ _ | .bnzi _ _ => []
  | .cin d => [d]
  | .cout _ | .halt => []

/-- The six jumps and branches (46_branch.md R175). -/
def isTransfer (i : Instr) : Bool := [Mnemonic.jez, .jnz, .bez, .bnz, .bezi, .bnzi].contains i.mnemonic

/-- Where a jump or branch goes if its condition holds, and nothing otherwise: an absolute address for a jump, the address of
the instruction plus an offset in bytes or in instructions for a branch (46_branch.md R175). -/
def takenTarget (s : State) : Instr → Option Word
  | .jez _ a b => if s.reg a = 0 then some (s.reg b) else none
  | .jnz _ a b => if s.reg a ≠ 0 then some (s.reg b) else none
  | .bez _ a b => if s.reg a = 0 then some (s.pc + s.reg b) else none
  | .bnz _ a b => if s.reg a ≠ 0 then some (s.pc + s.reg b) else none
  | .bezi a h => if s.reg a = 0 then some (BitVec.ofInt 32 (s.pc.toNat + 4 * h.toInt)) else none
  | .bnzi a h => if s.reg a ≠ 0 then some (BitVec.ofInt 32 (s.pc.toNat + 4 * h.toInt)) else none
  | .lch _ _ | .lcl _ _ => none
  | .add _ _ _ | .sub _ _ _ | .mul _ _ _ | .div _ _ _ | .mod _ _ _ => none
  | .addi _ _ _ | .subi _ _ _ | .muli _ _ _ | .divi _ _ _ | .modi _ _ _ => none
  | .addo _ _ _ | .subo _ _ _ | .mulo _ _ _ | .addio _ _ _ | .subio _ _ _ | .mulio _ _ _ => none
  | .and _ _ _ | .nor _ _ _ | .or _ _ _ | .xor _ _ _ => none
  | .shl _ _ _ | .shr _ _ _ | .shru _ _ _ | .shli _ _ _ | .shri _ _ _ | .shrui _ _ _ => none
  | .st1 _ _ _ | .st4 _ _ _ | .ld1 _ _ _ | .ld4 _ _ _ | .ex4 _ _ _ => none
  | .eq _ _ _ | .ges _ _ _ | .gts _ _ _ | .geu _ _ _ | .gtu _ _ _ => none
  | .cin _ | .cout _ | .halt => none

/-! ## Words in memory and shifted words -/

/-- The word `w` stands at the address `a`, its bytes in the machine's byte order (20_memory.md R34). -/
def WordAt (s : State) (a : Nat) (w : Word) : Prop :=
  match s.launch.params.byteOrder with
  | .big => w = s.byteAt a ++ s.byteAt (a + 1) ++ s.byteAt (a + 2) ++ s.byteAt (a + 3)
  | .little => w = s.byteAt (a + 3) ++ s.byteAt (a + 2) ++ s.byteAt (a + 1) ++ s.byteAt a

/-- `w` is `SHL(v, n)`, bit by bit and as a number (43_shift.md R130). -/
def ShiftedLeft (v : Word) (n : Nat) (w : Word) : Prop :=
  (∀ i, i < 32 → w.getLsbD i = if n ≤ i then v.getLsbD (i - n) else false) ∧ w.toNat = v.toNat * 2 ^ n % 2 ^ 32

/-- `w` is `SHRU(v, n)`, bit by bit and as a number (43_shift.md R130). -/
def ShiftedRightUnsigned (v : Word) (n : Nat) (w : Word) : Prop :=
  (∀ i, i < 32 → w.getLsbD i = if i + n ≤ 31 then v.getLsbD (i + n) else false) ∧ w.toNat = v.toNat / 2 ^ n

/-- `w` is `SHR(v, n)`, bit by bit and as a number (43_shift.md R130). -/
def ShiftedRight (v : Word) (n : Nat) (w : Word) : Prop :=
  (∀ i, i < 32 → w.getLsbD i = if i + n ≤ 31 then v.getLsbD (i + n) else v.getLsbD 31) ∧ w.toInt = v.toInt.fdiv (2 ^ n)

/-! ## The assembler's forms -/

/-- The constant operand stands for the 32-bit value `k` (30_encoding.md R61). -/
def ConstIs (syms : Symbols) (c : Const) (k : Word) : Prop :=
  match c with
  | .lit v => -2 ^ 31 ≤ v ∧ v ≤ 2 ^ 32 - 1 ∧ k = BitVec.ofInt 32 v
  | .label name => syms.find name = some k

/-- The register form a two-register form with a 32-bit constant ends with (30_encoding.md R66). -/
def wideForm (rdes src1 : RegNum) : AsmOp → Option Instr
  | .native .addi => some (.add rdes src1 u0)
  | .native .subi => some (.sub rdes src1 u0)
  | .native .muli => some (.mul rdes src1 u0)
  | .native .divi => some (.div rdes src1 u0)
  | .native .modi => some (.mod rdes src1 u0)
  | .native .addio => some (.addo rdes src1 u0)
  | .native .subio => some (.subo rdes src1 u0)
  | .native .mulio => some (.mulo rdes src1 u0)
  | .native .shli => some (.shl rdes src1 u0)
  | .native .shri => some (.shr rdes src1 u0)
  | .native .shrui => some (.shru rdes src1 u0)
  | .andi => some (.and rdes src1 u0)
  | .nori => some (.nor rdes src1 u0)
  | .ori => some (.or rdes src1 u0)
  | .xori => some (.xor rdes src1 u0)
  | .jezi => some (.jez rdes src1 u0)
  | .jnzi => some (.jnz rdes src1 u0)
  | _ => none

/-- `u` is `s` after `n` instructions whose only effect is that the scratch register holds `k` (30_encoding.md R65). -/
def ScratchLoaded (n : Nat) (k : Word) (s u : State) : Prop :=
  u.reg u0 = k ∧ SameRegsBut u0 s u ∧ u.pc = s.pc + BitVec.ofNat 32 (4 * n) ∧ SameBytes s u ∧ SameConsole s u ∧ SameRun s u

end Sys2Proof.Machine
end

