-- ==== Sys2Proof/Certificates/Slice0/Obligations.lean ====
section
/-! DEFINITION. The statements for the provers. Results are given in integer or bit arithmetic where the spec gives them so; the
terms for frames, faults and runs are those of Sys2Proof/Safety.lean. -/

open Sys2Proof Sys2Proof.Machine

/-! ## Encoding -/

/-- Decoding the word of a well-formed instruction gives the instruction back, whatever the opcode numbers
(30_encoding.md R52, R56). -/
def Obligations.EncodeThenDecode : Prop :=
  ∀ (opc : Opcodes) (i : Instr), Opcodes.injective opc = true → i.wf = true → decode opc (encode opc i) = .legal i

/-- 30_encoding.md R58 (the spec marks it as its decision D9): "Every 32-bit word is either the legal encoding of exactly one
native instruction with its operands, or illegal." -/
def Obligations.EveryWordIsOneInstructionOrIllegal : Prop :=
  ∀ (opc : Opcodes) (w : Word), Opcodes.injective opc = true →
    (∃ i, decode opc w = .legal i ∧ i.wf = true ∧ encode opc i = w ∧ ∀ j, j.wf = true → encode opc j = w → j = i) ∨
      ∃ why, decode opc w = .illegal why ∧ ∀ i, i.wf = true → encode opc i ≠ w

/-- The word of every instruction under the default opcode numbers: the opcode byte of the table of 30_encoding.md R57, then the
operands in the fields of R52. -/
def Obligations.DefaultWordOfEveryInstruction : Prop :=
  ∀ (a b c : RegNum) (k : BitVec 8) (h : BitVec 16),
    let rrr : BitVec 8 → Word := fun op => op ++ (0#2 ++ a) ++ (0#2 ++ b) ++ (0#2 ++ c)
    let rri : BitVec 8 → Word := fun op => op ++ (0#2 ++ a) ++ (0#2 ++ b) ++ k
    let rh : BitVec 8 → Word := fun op => op ++ (0#2 ++ a) ++ h
    let r : BitVec 8 → Word := fun op => op ++ (0#2 ++ a) ++ 0#16
    let word := encode defaultOpcodes
    (word (.lch a h) = rh 0x10 ∧ word (.lcl a h) = rh 0x11 ∧ word (.add a b c) = rrr 0x20 ∧ word (.sub a b c) = rrr 0x21 ∧
      word (.mul a b c) = rrr 0x22 ∧ word (.div a b c) = rrr 0x23 ∧ word (.mod a b c) = rrr 0x24 ∧
      word (.addo a b c) = rrr 0x28 ∧ word (.subo a b c) = rrr 0x29 ∧ word (.mulo a b c) = rrr 0x2A) ∧
    (word (.addi a b k) = rri 0x30 ∧ word (.subi a b k) = rri 0x31 ∧ word (.muli a b k) = rri 0x32 ∧
      word (.divi a b k) = rri 0x33 ∧ word (.modi a b k) = rri 0x34 ∧ word (.addio a b k) = rri 0x38 ∧
      word (.subio a b k) = rri 0x39 ∧ word (.mulio a b k) = rri 0x3A) ∧
    (word (.and a b c) = rrr 0x40 ∧ word (.nor a b c) = rrr 0x41 ∧ word (.or a b c) = rrr 0x42 ∧ word (.xor a b c) = rrr 0x43 ∧
      word (.shl a b c) = rrr 0x50 ∧ word (.shr a b c) = rrr 0x51 ∧ word (.shru a b c) = rrr 0x52 ∧
      word (.shli a b k) = rri 0x58 ∧ word (.shri a b k) = rri 0x59 ∧ word (.shrui a b k) = rri 0x5A) ∧
    (word (.st1 a b k) = rri 0x60 ∧ word (.st4 a b k) = rri 0x61 ∧ word (.ld1 a b k) = rri 0x62 ∧ word (.ld4 a b k) = rri 0x63 ∧
      word (.ex4 a b k) = rri 0x64 ∧ word (.eq a b c) = rrr 0x70 ∧ word (.ges a b c) = rrr 0x71 ∧ word (.gts a b c) = rrr 0x72 ∧
      word (.geu a b c) = rrr 0x73 ∧ word (.gtu a b c) = rrr 0x74) ∧
    (word (.jez a b c) = rrr 0x80 ∧ word (.jnz a b c) = rrr 0x81 ∧ word (.bez a b c) = rrr 0x82 ∧ word (.bnz a b c) = rrr 0x83 ∧
      word (.bezi a h) = rh 0x84 ∧ word (.bnzi a h) = rh 0x85 ∧ word (.cin a) = r 0x90 ∧ word (.cout a) = r 0x91 ∧
      word .halt = 0xA0000000)

/-- Under the default opcode numbers a word is legal exactly when it matches a row of spec/opcode_table.json, it is then an
instruction of that row, and no word matches two rows (30_encoding.md R56). -/
def Obligations.DefaultDecodingFollowsOpcodeTable : Prop :=
  ∀ w : Word,
    ((∃ i, decode defaultOpcodes w = .legal i) ↔ ∃ row ∈ opcodeRows, w &&& row.mask = row.pattern) ∧
    (∀ row ∈ opcodeRows, w &&& row.mask = row.pattern →
      ∃ i, decode defaultOpcodes w = .legal i ∧ i.mnemonic = row.mnemonic) ∧
    ∀ row ∈ opcodeRows, ∀ row' ∈ opcodeRows, w &&& row.mask = row.pattern → w &&& row'.mask = row'.pattern → row = row'

/-- 30_encoding.md R59 (the spec's decisions D9, D20): a fetched word is illegal for the first of four reasons in their order,
stepping on it takes that fault and changes nothing else, a word with none of them executes; 209 of the 256 default opcodes are
undefined, and the assembler makes no illegal instruction. -/
def Obligations.IllegalWordsAreRejectedInOrder : Prop :=
  (∀ (s : State) (w : Word), s.status = .running → fetch s = .word w → Opcodes.injective s.launch.params.opc = true →
    let a := (fieldA w).toNat
    let b := (fieldB w).toNat
    let c := (fieldC w).toNat
    ((∀ m, s.launch.params.opc.code m ≠ fieldOp w) → StepFaults s (.illegalInstruction w .undefinedOpcode)) ∧
    ∀ m : Mnemonic, s.launch.params.opc.code m = fieldOp w →
      let reserved := m.format = .r ∧ (b ≠ 0 ∨ c ≠ 0) ∨ m.format = .n ∧ (a ≠ 0 ∨ b ≠ 0 ∨ c ≠ 0)
      let number := m.format = .rrr ∧ (64 ≤ a ∨ 64 ≤ b ∨ 64 ≤ c) ∨ m.format = .rri ∧ (64 ≤ a ∨ 64 ≤ b) ∨
        (m.format = .rh ∨ m.format = .r) ∧ 64 ≤ a
      let odd := m ∈ [Mnemonic.addo, .addio, .subo, .subio, .mulo, .mulio] ∧ a % 2 = 1
      (reserved → StepFaults s (.illegalInstruction w .reservedField)) ∧
      (¬reserved → number → StepFaults s (.illegalInstruction w .registerNumber)) ∧
      (¬reserved → ¬number → odd → StepFaults s (.illegalInstruction w .oddPair)) ∧
      (¬reserved → ¬number → ¬odd → ∃ i, i.mnemonic = m ∧ i.wf = true ∧ encode s.launch.params.opc i = w ∧ step s = exec i s)) ∧
  (List.range 256).countP (fun op => (defaultOpcodes.mnemonic? (BitVec.ofNat 8 op)).isNone) = 209 ∧
  ∀ (p : Params) (syms : Symbols) (here : Word) (l : AsmLine) (is : List Instr),
    expand p syms here l = .ok is → ∀ i ∈ is, i.wf = true

/-- The example words of 30_encoding.md R57 and of 95_test_vectors.md decode to the instructions written beside them. -/
def Obligations.SpecExampleWordsDecode : Prop :=
  decode defaultOpcodes 0x20040500 = .legal (.add 4 5 0) ∧ decode defaultOpcodes 0x11045678 = .legal (.lcl 4 0x5678) ∧
    decode defaultOpcodes 0x10041234 = .legal (.lch 4 0x1234) ∧ decode defaultOpcodes 0x8505FFFD = .legal (.bnzi 5 0xFFFD) ∧
    decode defaultOpcodes 0x91040000 = .legal (.cout 4) ∧ decode defaultOpcodes 0xA0000000 = .legal .halt ∧
    decode defaultOpcodes 0x61040504 = .legal (.st4 4 5 4) ∧ decode defaultOpcodes 0x8001003C = .legal (.jez 1 0 60) ∧
    decode defaultOpcodes 0x28410607 = .illegal .registerNumber ∧ decode defaultOpcodes 0x28050607 = .illegal .oddPair ∧
    decode defaultOpcodes 0xA0000001 = .illegal .reservedField ∧ decode defaultOpcodes 0 = .illegal .undefinedOpcode

/-! ## Reset and launch -/

/-- What the spec fixes of the state after reset: the zero register, the entry at the text base and inside the text, data clear of
the text, no output, the status, and the default of every open parameter (10_state.md R25, 00_scope.md R6, 20_memory.md R31). What
the model chose (logs 1, 4, 5, 6) is left out, but for the length of the program, one instruction (log 4): with any legal
instruction in the free place of the text the state is that of an admitted launch (70_reset_and_hazards.md R260, R261). -/
def Obligations.ResetStateIsAsSpecified : Prop :=
  State.reset.reg 0 = 0 ∧ State.reset.pc = State.reset.launch.textBase ∧ State.reset.pc.toNat % 4 = 0 ∧
    State.reset.inText State.reset.pc.toNat = true ∧ (∀ a, State.reset.inText a = true → State.reset.inData a = false) ∧
    State.reset.coutQ = [] ∧ State.reset.status = .running ∧
    State.reset.launch.params =
      { byteOrder := .big, imm8Ext := .sign, div := .signedTruncating, mod := .signedTruncating, ovfAdd := .signedHigh,
        ovfSub := .signedHigh, ovfMul := .signedHigh, shiftBig := .shiftedOut, opc := defaultOpcodes } ∧
    ∀ i : Instr, i.wf = true →
      ∃ l : Launch, l.program = [i] ∧ launch l = .next (placeWord State.reset (encode State.reset.launch.params.opc i))

/-- The invariant of `StepKeepsWellFormed` holds after reset. -/
def Obligations.ResetIsWellFormed : Prop := State.wf State.reset = true

/-- 70_reset_and_hazards.md R260 (the spec's decision D29): an admitted launch gives the launch state, field by field. The register
values and the data contents are the launch's own; the state is well-formed. -/
def Obligations.AdmittedLaunchGivesLaunchState : Prop :=
  ∀ l : Launch, l.wf = true → ∃ s, launch l = .next s ∧ s.pc = l.entry ∧ s.reg 0 = 0 ∧
    (∀ r, r ≠ 0 → s.reg r = l.registers[r.toNat]'r.isLt) ∧
    (∀ (k : Nat) (hk : k < l.program.length), WordAt s (l.textBase.toNat + 4 * k) (encode l.params.opc l.program[k])) ∧
    ((l.contents.map Prod.fst).Nodup → ∀ c ∈ l.contents, s.byteAt c.1 = c.2) ∧
    s.cinQ = l.input ∧ s.coutQ = [] ∧ s.status = .running ∧
    s.launch = ⟨l.params, l.textBase, l.program.length, l.data⟩ ∧ State.wf s = true

/-- 70_reset_and_hazards.md R261 (the spec's decisions D13, D29): a launch that fails any of the rule's conditions is refused. -/
def Obligations.MalformedLaunchIsRefused : Prop :=
  ∀ l : Launch,
    ¬(l.textBase.toNat % 4 = 0 ∧ l.textBase.toNat + 4 * l.program.length ≤ 2 ^ 32 ∧
      (∀ i ∈ l.program, ∃ i', decode l.params.opc (encode l.params.opc i) = .legal i') ∧
      (∀ r ∈ l.data, r.lo % 4 = 0 ∧ r.hi % 4 = 0 ∧
        ∀ a, r.lo ≤ a → a < r.hi → ¬(l.textBase.toNat ≤ a ∧ a < l.textBase.toNat + 4 * l.program.length)) ∧
      l.entry.toNat % 4 = 0 ∧ l.textBase.toNat ≤ l.entry.toNat ∧ l.entry.toNat < l.textBase.toNat + 4 * l.program.length) →
    launch l = .refused .malformedLaunch

/-! ## Stepping -/

/-- When the bytes at `pc` decode to an instruction, the step is that instruction's execution (60_exceptions.md R230). Nothing
stands around it on this machine: the instructions advance `pc` themselves. -/
def Obligations.StepRunsDecodedInstruction : Prop :=
  ∀ (s : State) (i : Instr), s.status = .running → s.pc.toNat % 4 = 0 → s.inText s.pc.toNat = true →
    decodeBytes s.launch.params.byteOrder s.launch.params.opc (s.byteAt s.pc.toNat) (s.byteAt (s.pc.toNat + 1))
      (s.byteAt (s.pc.toNat + 2)) (s.byteAt (s.pc.toNat + 3)) = .legal i →
    step s = exec i s

/-- 20_memory.md R40 (the spec's decisions D11, D14): the two fetch faults in their order, and else the word of the four bytes at
`pc`. That it is the launched program's instruction is `EveryFetchSeesTheLaunchedProgram`. -/
def Obligations.FetchChecksThenReadsTheWord : Prop :=
  ∀ s : State, s.status = .running →
    let inside := s.launch.textBase.toNat ≤ s.pc.toNat ∧ s.pc.toNat < s.launch.textBase.toNat + 4 * s.launch.textLen
    (s.pc.toNat % 4 ≠ 0 → StepFaults s (.fetchFault s.pc .misaligned)) ∧
    (s.pc.toNat % 4 = 0 → ¬inside → StepFaults s (.fetchFault s.pc .outsideText)) ∧
    (s.pc.toNat % 4 = 0 → inside → ∃ w, fetch s = .word w ∧ WordAt s s.pc.toNat w)

/-- 60_exceptions.md R230 (the spec's decision D26): attempting a step ends in one of the outcomes of the rule, and what each
means; the model never refuses a step. -/
def Obligations.AttemptHasOneOfTheOutcomes : Prop :=
  ∀ s : State,
    (∃ t, attempt s = .step t ∧ s.status = .running ∧ step s = .next t ∧ ∀ reason, t.status ≠ .faulted reason) ∨
    (∃ reason, attempt s = .fault reason (s.setStatus (.faulted reason)) ∧ s.status = .running ∧
      step s = .next (s.setStatus (.faulted reason))) ∨
    (attempt s = .stuck ∧ s.status = .running ∧ step s = .fault .stuckOnConsoleInput) ∨
    (attempt s = .halted ∧ s.status = .halted ∧ step s = .fault .halted) ∨
    ∃ reason, attempt s = .faulted reason ∧ s.status = .faulted reason ∧ step s = .fault (.faulted reason)

/-- 60_exceptions.md R233 (the spec's decision D24): a running machine has no step exactly when the instruction at `pc` is a `cin`
and the console input is empty. -/
def Obligations.StuckExactlyOnEmptyConsoleInput : Prop :=
  ∀ s : State, s.status = .running →
    (step s = .fault .stuckOnConsoleInput ↔
      s.cinQ = [] ∧ ∃ w rdes, fetch s = .word w ∧ decode s.launch.params.opc w = .legal (.cin rdes)) ∧
    (step s ≠ .fault .stuckOnConsoleInput → ∃ t, step s = .next t) ∧ s.isFinal = false

/-- 60_exceptions.md R232 (the spec's decision D26): a fault sets the status and does nothing else, and nothing follows it. -/
def Obligations.FaultsArePrecise : Prop :=
  ∀ (s t : State) (reason : FaultReason), step s = .next t → t.status = .faulted reason →
    s.status = .running ∧ t = { s with status := .faulted reason } ∧ step t = .fault (.faulted reason)

/-- Which faults the instructions of each family can raise once fetched and decoded (60_exceptions.md R234, which the spec derives
from R231 and the instruction rules). -/
def Obligations.FaultsOfEachFamily : Prop :=
  ∀ (i : Instr) (s t : State) (reason : FaultReason), i.wf = true → s.status = .running → exec i s = .next t →
    t.status = .faulted reason →
    i.mnemonic ∈ [Mnemonic.div, .divi, .mod, .modi] ∧ (reason = .divideByZero ∨ reason = .divideOverflow) ∨
    i.mnemonic = .ld1 ∧ (∃ a, reason = .busFault a) ∨
    i.mnemonic = .ld4 ∧ (∃ a, reason = .alignmentFault a ∨ reason = .busFault a) ∨
    i.mnemonic = .st1 ∧ (∃ a, reason = .busFault a ∨ reason = .textWriteFault a) ∨
    i.mnemonic ∈ [Mnemonic.st4, .ex4] ∧ ∃ a, reason = .alignmentFault a ∨ reason = .busFault a ∨ reason = .textWriteFault a

/-- Every step keeps the invariant: memory in its canonical form, the cell of register 0 zero, well-formed launch arguments. -/
def Obligations.StepKeepsWellFormed : Prop := ∀ s t : State, State.wf s = true → step s = .next t → State.wf t = true

/-- The text never changes in a run from any state, nor do the launch arguments (20_memory.md R33, R37). -/
def Obligations.TextNeverChanges : Prop :=
  ∀ (k : Nat) (s t : State), RunsTo k s t →
    t.launch = s.launch ∧ ∀ a, s.launch.textBase.toNat ≤ a → a < s.launch.textBase.toNat + 4 * s.launch.textLen →
      t.byteAt a = s.byteAt a

/-- 20_memory.md R48 (the spec's decision D14): in every state of a run from an admitted launch, the text still holds the encoded
program, and a running machine whose `pc` is at the `j`-th word executes the `j`-th instruction of P_PROGRAM. -/
def Obligations.EveryFetchSeesTheLaunchedProgram : Prop :=
  ∀ (l : Launch) (s0 s : State) (k j : Nat) (hj : j < l.program.length), launch l = .next s0 → RunsTo k s0 s →
    WordAt s (l.textBase.toNat + 4 * j) (encode l.params.opc l.program[j]) ∧
      (s.status = .running → s.pc.toNat = l.textBase.toNat + 4 * j → step s = exec l.program[j] s)

/-- Only `st1`, `st4` and `ex4` change memory (20_memory.md R32). -/
def Obligations.OnlyStoresChangeMemory : Prop :=
  ∀ (i : Instr) (s t : State), exec i s = .next t → i.mnemonic ∉ [Mnemonic.st1, .st4, .ex4] → t.mem = s.mem ∧ SameBytes s t

/-- The console input is only ever consumed from its front and the output only ever extended, over any run; no instruction but
`cin` and `cout` does either (10_state.md R22). -/
def Obligations.ConsoleStreamsOnlyAdvance : Prop :=
  (∀ (k : Nat) (s t : State), RunsTo k s t → (∃ taken, s.cinQ = taken ++ t.cinQ) ∧ ∃ more, t.coutQ = s.coutQ ++ more) ∧
  ∀ (i : Instr) (s t : State), exec i s = .next t →
    (i.mnemonic ≠ .cin → t.cinQ = s.cinQ) ∧ (i.mnemonic ≠ .cout → t.coutQ = s.coutQ)

/-- A run that begins running ends well exactly when some state of it fetches a `halt` (70_reset_and_hazards.md R267). -/
def Obligations.EndsWellExactlyByHalt : Prop :=
  ∀ s : State, s.status = .running →
    (EndsWell s ↔ ∃ k u w, RunsTo k s u ∧ u.status = .running ∧ fetch u = .word w ∧ decode u.launch.params.opc w = .legal .halt)

/-- 10_state.md R17 (the spec's decision D12): `pc` advances by 4 modulo 2^32, except that a taken branch or jump sets its target
and `halt` and a fault leave it. -/
def Obligations.ProgramCounterAdvances : Prop :=
  ∀ (i : Instr) (s t : State), s.status = .running → exec i s = .next t →
    (∀ target, takenTarget s i = some target → t.pc = target) ∧
    (takenTarget s i = none → t.status = .running → t.pc.toNat = (s.pc.toNat + 4) % 2 ^ 32) ∧
    (t.status ≠ .running → t.pc = s.pc) ∧ (t.status = .halted ↔ i = .halt)

/-- An instruction changes no register but its destination or, for an "o" operation, its pair (10_state.md R15, R19, R20). -/
def Obligations.OnlyDestinationsChange : Prop :=
  ∀ (i : Instr) (s t : State), exec i s = .next t → ∀ r, r ∉ destinations i → t.reg r = s.reg r

/-- 10_state.md R12 (the spec's decision D4): register 0 reads as zero and writing it changes nothing and raises nothing. -/
def Obligations.ZeroRegisterIsZero : Prop :=
  ∀ s : State, s.reg 0 = 0 ∧ (∀ v, s.setReg 0 v = s) ∧ ∀ (i : Instr) (t : State), exec i s = .next t → t.reg 0 = 0

/-! ## Constants -/

/-- `lch` replaces bits 31 to 16 and keeps bits 15 to 0 (40_constants.md R70; that the lower half is kept is the spec's
inference from the source's example E2). -/
def Obligations.LoadConstantHigh : Prop :=
  ∀ (rdes : RegNum) (h : BitVec 16) (s : State), Completes (.lch rdes h) s fun t =>
    ∃ v, v.toNat = h.toNat * 2 ^ 16 + (s.reg rdes).toNat % 2 ^ 16 ∧ OnlyWrites rdes v s t

/-- 40_constants.md R71: `lcl` loads the constant sign-extended. Its word, and the one fault of its decoding, are stated too. -/
def Obligations.LoadConstantLow : Prop :=
  ∀ (rdes : RegNum) (h : BitVec 16) (s : State),
    Completes (.lcl rdes h) s (fun t => ∃ v : Word, v.toInt = h.toInt ∧ OnlyWrites rdes v s t) ∧
    encode defaultOpcodes (.lcl rdes h) = 0x11#8 ++ (0#2 ++ rdes) ++ h ∧
    ∀ a : BitVec 8, decode defaultOpcodes (0x11#8 ++ a ++ h) =
      if 64 ≤ a.toNat then .illegal .registerNumber else .legal (.lcl (a.setWidth 6) h)

/-! ## Arithmetic -/

/-- 41_arithmetic.md R81 (the spec's decision D17): the six instructions deliver the low 32 bits of the exact result, read signed
or unsigned, with no fault. -/
def Obligations.AddSubMulWrapAround : Prop :=
  ∀ (rdes src1 src2 : RegNum) (c : BitVec 8) (s : State),
    let a := s.reg src1
    let b := s.reg src2
    let k := s.imm c
    let sum : Word → Word → Word → Prop := fun x y v =>
      v = BitVec.ofInt 32 (x.toInt + y.toInt) ∧ v.toNat = (x.toNat + y.toNat) % 2 ^ 32
    let difference : Word → Word → Word → Prop := fun x y v =>
      v = BitVec.ofInt 32 (x.toInt - y.toInt) ∧ (v.toNat : Int) = ((x.toNat : Int) - y.toNat) % 2 ^ 32
    let product : Word → Word → Word → Prop := fun x y v =>
      v = BitVec.ofInt 32 (x.toInt * y.toInt) ∧ v.toNat = x.toNat * y.toNat % 2 ^ 32
    Completes (.add rdes src1 src2) s (fun t => ∃ v, sum a b v ∧ OnlyWrites rdes v s t) ∧
    Completes (.addi rdes src1 c) s (fun t => ∃ v, sum a k v ∧ OnlyWrites rdes v s t) ∧
    Completes (.sub rdes src1 src2) s (fun t => ∃ v, difference a b v ∧ OnlyWrites rdes v s t) ∧
    Completes (.subi rdes src1 c) s (fun t => ∃ v, difference a k v ∧ OnlyWrites rdes v s t) ∧
    Completes (.mul rdes src1 src2) s (fun t => ∃ v, product a b v ∧ OnlyWrites rdes v s t) ∧
    Completes (.muli rdes src1 c) s fun t => ∃ v, product a k v ∧ OnlyWrites rdes v s t

/-- 41_arithmetic.md R82 (the spec's decision D15): `imm` is the field under the chosen extension, and each immediate form does
exactly what its register form does with `b = imm`. The "o" forms are compared at an even destination: at an odd one both are
illegal (`OddDestinationIsRejected`). -/
def Obligations.ImmediateFormsActAsRegisterForms : Prop :=
  (∀ (s : State) (c : BitVec 8),
    (s.launch.params.imm8Ext = .sign → (s.imm c).toInt = c.toInt) ∧ (s.launch.params.imm8Ext = .zero → (s.imm c).toNat = c.toNat) ∧
    (c.toNat ≤ 127 → (s.imm c).toNat = c.toNat)) ∧
  ∀ (rdes src1 src2 : RegNum) (c : BitVec 8) (s : State), s.reg src2 = s.imm c →
    exec (.addi rdes src1 c) s = exec (.add rdes src1 src2) s ∧ exec (.subi rdes src1 c) s = exec (.sub rdes src1 src2) s ∧
    exec (.muli rdes src1 c) s = exec (.mul rdes src1 src2) s ∧ exec (.divi rdes src1 c) s = exec (.div rdes src1 src2) s ∧
    exec (.modi rdes src1 c) s = exec (.mod rdes src1 src2) s ∧
    (rdes.toNat % 2 = 0 → exec (.addio rdes src1 c) s = exec (.addo rdes src1 src2) s ∧
      exec (.subio rdes src1 c) s = exec (.subo rdes src1 src2) s ∧ exec (.mulio rdes src1 c) s = exec (.mulo rdes src1 src2) s)

/-- Division and modulo under every reading of P_DIV and P_MOD (41_arithmetic.md R83): where all readings agree, the floor quotient
and its remainder; everywhere else the result is a value or a fault that depends on the two operands and the reading alone. -/
def Obligations.DivisionUnderEveryReading : Prop :=
  (∀ (rdes src1 src2 : RegNum) (c : BitVec 8) (s : State),
    let a := (s.reg src1).toNat
    let agreed : Word → Prop := fun b => a < 2 ^ 31 ∧ b.toNat < 2 ^ 31 ∧ b ≠ 0
    let quotient : Word → State → Prop := fun b t => ∃ q : Word, q.toNat = a / b.toNat ∧ OnlyWrites rdes q s t
    let remainder : Word → State → Prop := fun b t =>
      ∃ r : Word, r.toNat = a - b.toNat * (a / b.toNat) ∧ r.toNat < b.toNat ∧ OnlyWrites rdes r s t
    (agreed (s.reg src2) → Completes (.div rdes src1 src2) s (quotient (s.reg src2)) ∧
      Completes (.mod rdes src1 src2) s (remainder (s.reg src2))) ∧
    (agreed (s.imm c) → Completes (.divi rdes src1 c) s (quotient (s.imm c)) ∧
      Completes (.modi rdes src1 c) s (remainder (s.imm c)))) ∧
  ∀ p : DivReading, ∃ f g : Word → Word → DivResult, ∀ (rdes src1 src2 : RegNum) (c : BitVec 8) (s : State),
    let outcome : Instr → DivResult → Prop := fun i r =>
      match r with
      | .value v => Completes i s (OnlyWrites rdes v s)
      | .divideByZero => ExecFaults i s .divideByZero
      | .divideOverflow => ExecFaults i s .divideOverflow
    (s.launch.params.div = p → outcome (.div rdes src1 src2) (f (s.reg src1) (s.reg src2)) ∧
      outcome (.divi rdes src1 c) (f (s.reg src1) (s.imm c))) ∧
    (s.launch.params.mod = p → outcome (.mod rdes src1 src2) (g (s.reg src1) (s.reg src2)) ∧
      outcome (.modi rdes src1 c) (g (s.reg src1) (s.imm c)))

/-- The default P_DIV and P_MOD (41_arithmetic.md R83, R84): signed, truncating toward zero, the remainder zero or with the sign of
the dividend and smaller than the divisor, quotient times divisor plus remainder the dividend, and the two faults. -/
def Obligations.DivisionByDefaultTruncates : Prop :=
  ∀ (rdes src1 src2 : RegNum) (c : BitVec 8) (s : State), s.launch.params.div = .signedTruncating →
    s.launch.params.mod = .signedTruncating →
    let a := s.reg src1
    let law : Word → Instr → Instr → Prop := fun b i j =>
      (b = 0 → ExecFaults i s .divideByZero ∧ ExecFaults j s .divideByZero) ∧
      (a.toInt = -2 ^ 31 → b.toInt = -1 → ExecFaults i s .divideOverflow ∧ ExecFaults j s .divideOverflow) ∧
      (b ≠ 0 → ¬(a.toInt = -2 ^ 31 ∧ b.toInt = -1) → ∃ q r : Word,
        q.toInt = a.toInt.tdiv b.toInt ∧ r.toInt = a.toInt - b.toInt * q.toInt ∧ r.toInt.natAbs < b.toInt.natAbs ∧
        (r ≠ 0 → (r.toInt < 0 ↔ a.toInt < 0)) ∧ q * b + r = a ∧
        Completes i s (OnlyWrites rdes q s) ∧ Completes j s (OnlyWrites rdes r s))
    law (s.reg src2) (.div rdes src1 src2) (.mod rdes src1 src2) ∧ law (s.imm c) (.divi rdes src1 c) (.modi rdes src1 c) ∧
    ExecFaults (.divi rdes src1 0) s .divideByZero ∧ ExecFaults (.modi rdes src1 0) s .divideByZero

/-- The "o" operations at an even destination under every reading of the overflow word (41_arithmetic.md R100, R101): `rdes` gets
what the ordinary operation puts there, `rdes + 1` a word that depends on the two operands and the reading alone. -/
def Obligations.OverflowPairUnderEveryReading : Prop :=
  ∀ p : OvfReading, ∃ f g h : Word → Word → Word, ∀ (rdes src1 src2 : RegNum) (c : BitVec 8) (s : State), rdes.toNat % 2 = 0 →
    let a := s.reg src1
    let b := s.reg src2
    let k := s.imm c
    (s.launch.params.ovfAdd = p → Completes (.addo rdes src1 src2) s (OnlyWritesPair rdes (a + b) (f a b) s) ∧
      Completes (.addio rdes src1 c) s (OnlyWritesPair rdes (a + k) (f a k) s)) ∧
    (s.launch.params.ovfSub = p → Completes (.subo rdes src1 src2) s (OnlyWritesPair rdes (a - b) (g a b) s) ∧
      Completes (.subio rdes src1 c) s (OnlyWritesPair rdes (a - k) (g a k) s)) ∧
    (s.launch.params.ovfMul = p → Completes (.mulo rdes src1 src2) s (OnlyWritesPair rdes (a * b) (h a b) s) ∧
      Completes (.mulio rdes src1 c) s (OnlyWritesPair rdes (a * k) (h a k) s))

/-- The default overflow word (41_arithmetic.md R101, the spec's decision D19): the pair holds the exact signed 64-bit result; for
a sum or a difference the high word is 0 or all ones; it repeats the sign of the low word exactly when the result fits. -/
def Obligations.PairHoldsExactResult : Prop :=
  ∀ (rdes src1 src2 : RegNum) (c : BitVec 8) (s : State), rdes.toNat % 2 = 0 →
    let a := (s.reg src1).toInt
    let exact : Int → Instr → Prop := fun r i => ∃ low high : Word, (high ++ low).toInt = r ∧
      (high = (if low.msb then 0xFFFFFFFF else 0) ↔ -2 ^ 31 ≤ r ∧ r < 2 ^ 31) ∧ Completes i s (OnlyWritesPair rdes low high s)
    let narrow : Int → Instr → Prop := fun r i => ∃ low high : Word, (high ++ low).toInt = r ∧ (high = 0 ∨ high = 0xFFFFFFFF) ∧
      Completes i s (OnlyWritesPair rdes low high s)
    (s.launch.params.ovfAdd = .signedHigh → ∀ b : Word,
      (s.reg src2 = b → exact (a + b.toInt) (.addo rdes src1 src2) ∧ narrow (a + b.toInt) (.addo rdes src1 src2)) ∧
      (s.imm c = b → exact (a + b.toInt) (.addio rdes src1 c) ∧ narrow (a + b.toInt) (.addio rdes src1 c))) ∧
    (s.launch.params.ovfSub = .signedHigh → ∀ b : Word,
      (s.reg src2 = b → exact (a - b.toInt) (.subo rdes src1 src2) ∧ narrow (a - b.toInt) (.subo rdes src1 src2)) ∧
      (s.imm c = b → exact (a - b.toInt) (.subio rdes src1 c) ∧ narrow (a - b.toInt) (.subio rdes src1 c))) ∧
    (s.launch.params.ovfMul = .signedHigh → ∀ b : Word,
      (s.reg src2 = b → exact (a * b.toInt) (.mulo rdes src1 src2)) ∧ (s.imm c = b → exact (a * b.toInt) (.mulio rdes src1 c)))

/-- 41_arithmetic.md R102 (the spec's decision D20): an "o" instruction with an odd destination is illegal, changes nothing, and is
refused by the assembler. That the refusal names the odd destination, also where the line breaks a second condition (`u0` as an
operand of a wide form, a constant out of range, an unknown label), is the model's choice (log 22). -/
def Obligations.OddDestinationIsRejected : Prop :=
  ∀ (rdes src1 src2 : RegNum) (c : BitVec 8), rdes.toNat % 2 = 1 →
    (∀ (s : State) (w : Word) (m : Mnemonic), Opcodes.injective s.launch.params.opc = true → s.status = .running →
      fetch s = .word w →
      m ∈ [Mnemonic.addo, .subo, .mulo] ∧ w = s.launch.params.opc.code m ++ (0#2 ++ rdes) ++ (0#2 ++ src1) ++ (0#2 ++ src2) ∨
        m ∈ [Mnemonic.addio, .subio, .mulio] ∧ w = s.launch.params.opc.code m ++ (0#2 ++ rdes) ++ (0#2 ++ src1) ++ c →
      StepFaults s (.illegalInstruction w .oddPair)) ∧
    ∀ (p : Params) (syms : Symbols) (here : Word),
      (∀ m ∈ [Mnemonic.addo, .subo, .mulo],
        expand p syms here ⟨.native m, [.reg rdes, .reg src1, .reg src2]⟩ = .refused .oddDestination) ∧
      ∀ m ∈ [Mnemonic.addio, .subio, .mulio], ∀ k : Const,
        expand p syms here ⟨.native m, [.reg rdes, .reg src1, .const k]⟩ = .refused .oddDestination

/-! ## Logical operations and shifts -/

/-- 42_logical.md R120: the four truth tables, bit by bit. -/
def Obligations.LogicalTruthTables : Prop :=
  ∀ (rdes src1 src2 : RegNum) (s : State),
    let table : (Bool → Bool → Bool) → State → Prop := fun f t =>
      ∃ v : Word, (∀ i, i < 32 → v.getLsbD i = f ((s.reg src1).getLsbD i) ((s.reg src2).getLsbD i)) ∧ OnlyWrites rdes v s t
    Completes (.and rdes src1 src2) s (table fun p q => match p, q with
      | false, false => false | false, true => false | true, false => false | true, true => true) ∧
    Completes (.or rdes src1 src2) s (table fun p q => match p, q with
      | false, false => false | false, true => true | true, false => true | true, true => true) ∧
    Completes (.xor rdes src1 src2) s (table fun p q => match p, q with
      | false, false => false | false, true => true | true, false => true | true, true => false) ∧
    Completes (.nor rdes src1 src2) s (table fun p q => match p, q with
      | false, false => true | false, true => false | true, false => false | true, true => false)

/-- 43_shift.md R130: the three shifts by 0 to 31, register and immediate forms, bit by bit and as numbers; an amount of 0 leaves
the value. -/
def Obligations.ShiftsBelow32 : Prop :=
  ∀ (rdes src1 src2 : RegNum) (c : BitVec 8) (s : State),
    let v := s.reg src1
    let law : (Word → Nat → Word → Prop) → Nat → Instr → Prop := fun shifted n i => n ≤ 31 →
      Completes i s fun t => ∃ w, shifted v n w ∧ (n = 0 → w = v) ∧ OnlyWrites rdes w s t
    let n := (s.reg src2).toNat
    let k := (s.imm c).toNat
    law ShiftedLeft n (.shl rdes src1 src2) ∧ law ShiftedLeft k (.shli rdes src1 c) ∧
    law ShiftedRight n (.shr rdes src1 src2) ∧ law ShiftedRight k (.shri rdes src1 c) ∧
    law ShiftedRightUnsigned n (.shru rdes src1 src2) ∧ law ShiftedRightUnsigned k (.shrui rdes src1 c)

/-- The shifts by 32 or more (43_shift.md R131): they complete under every reading of P_SHIFT_BIG with a value that depends on the
operation, the value and the whole unsigned amount alone; by default every bit is shifted out. -/
def Obligations.ShiftsBy32OrMore : Prop :=
  (∀ p : ShiftBigReading, ∃ f : ShiftKind → Word → Nat → Word, ∀ (rdes src1 src2 : RegNum) (c : BitVec 8) (s : State),
    s.launch.params.shiftBig = p →
    let law : ShiftKind → Nat → Instr → Prop := fun op n i => 32 ≤ n → Completes i s (OnlyWrites rdes (f op (s.reg src1) n) s)
    law .shl (s.reg src2).toNat (.shl rdes src1 src2) ∧ law .shl (s.imm c).toNat (.shli rdes src1 c) ∧
    law .shr (s.reg src2).toNat (.shr rdes src1 src2) ∧ law .shr (s.imm c).toNat (.shri rdes src1 c) ∧
    law .shru (s.reg src2).toNat (.shru rdes src1 src2) ∧ law .shru (s.imm c).toNat (.shrui rdes src1 c)) ∧
  ∀ (rdes src1 src2 : RegNum) (c : BitVec 8) (s : State), s.launch.params.shiftBig = .shiftedOut →
    let copies : Word := if (s.reg src1).toInt < 0 then 0xFFFFFFFF else 0
    (32 ≤ (s.reg src2).toNat → Completes (.shl rdes src1 src2) s (OnlyWrites rdes 0 s) ∧
      Completes (.shru rdes src1 src2) s (OnlyWrites rdes 0 s) ∧ Completes (.shr rdes src1 src2) s (OnlyWrites rdes copies s)) ∧
    (32 ≤ (s.imm c).toNat → Completes (.shli rdes src1 c) s (OnlyWrites rdes 0 s) ∧
      Completes (.shrui rdes src1 c) s (OnlyWrites rdes 0 s) ∧ Completes (.shri rdes src1 c) s (OnlyWrites rdes copies s))

/-! ## Memory -/

/-- 20_memory.md R39 (the spec's decisions D12, D15): the effective address is the base plus the extended offset modulo 2^32. -/
def Obligations.EffectiveAddressWraps : Prop :=
  ∀ (s : State) (base : RegNum) (c : BitVec 8),
    (s.launch.params.imm8Ext = .sign → ((s.effAddr base c).toNat : Int) = ((s.reg base).toNat + c.toInt) % 2 ^ 32) ∧
    (s.launch.params.imm8Ext = .zero → (s.effAddr base c).toNat = ((s.reg base).toNat + c.toNat) % 2 ^ 32)

/-- The regions (20_memory.md R31, R37): an address is backed exactly when it is in the text or in the data, and an aligned word of
a well-formed state is wholly backed or wholly not, wholly in the text or wholly not. -/
def Obligations.AlignedWordsLieInOneRegion : Prop :=
  ∀ (s : State) (a : Nat),
    (s.inText a = true ↔ s.launch.textBase.toNat ≤ a ∧ a < s.launch.textBase.toNat + 4 * s.launch.textLen) ∧
    (s.backed a = true ↔ s.inText a = true ∨ ∃ r ∈ s.launch.data, r.lo ≤ a ∧ a < r.hi) ∧
    (State.wf s = true → a % 4 = 0 → ∀ k, k < 4 → s.backed (a + k) = s.backed a ∧ s.inText (a + k) = s.inText a)

/-- 20_memory.md R36 (the spec's decisions D11, D13): the checks of a read in their order and the value it returns, for `ld1` (sign
extended) and `ld4`; reading changes nothing but the destination and `pc`, and an aligned word does not wrap. -/
def Obligations.LoadsFollowMemRead : Prop :=
  ∀ (rdes src1 : RegNum) (c : BitVec 8) (s : State),
    let addr := s.effAddr src1 c
    let a := addr.toNat
    (s.backed a = false → ExecFaults (.ld1 rdes src1 c) s (.busFault addr)) ∧
    (s.backed a = true → Completes (.ld1 rdes src1 c) s fun t =>
      ∃ v : Word, v.toInt = (s.byteAt a).toInt ∧ OnlyWrites rdes v s t) ∧
    (a % 4 ≠ 0 → ExecFaults (.ld4 rdes src1 c) s (.alignmentFault addr)) ∧
    (a % 4 = 0 → (∃ k, k < 4 ∧ s.backed (a + k) = false) → ExecFaults (.ld4 rdes src1 c) s (.busFault addr)) ∧
    (a % 4 = 0 → (∀ k, k < 4 → s.backed (a + k) = true) → a + 4 ≤ 2 ^ 32 ∧
      Completes (.ld4 rdes src1 c) s fun t => ∃ w, WordAt s a w ∧ OnlyWrites rdes w s t)

/-- 20_memory.md R37 (the spec's decisions D11, D13, D14): the checks of a write in their order, and else the bytes are replaced and
nothing else, for `st1` (the low byte of the register) and `st4`; an aligned word is in one region or wholly unbacked. -/
def Obligations.StoresFollowMemWrite : Prop :=
  ∀ (src1 src2 : RegNum) (c : BitVec 8) (s : State),
    let addr := s.effAddr src2 c
    let a := addr.toNat
    let rest : Nat → State → Prop := fun n t =>
      SameBytesBut a n s t ∧ SameRegs s t ∧ t.pc = s.pc + 4 ∧ SameConsole s t ∧ SameRun s t
    let all : Prop := ∀ k, k < 4 → s.backed (a + k) = true
    let text : Prop := ∃ k, k < 4 ∧ s.inText (a + k) = true
    (s.backed a = false → ExecFaults (.st1 src1 src2 c) s (.busFault addr)) ∧
    (s.backed a = true → s.inText a = true → ExecFaults (.st1 src1 src2 c) s (.textWriteFault addr)) ∧
    (s.backed a = true → s.inText a = false → Completes (.st1 src1 src2 c) s fun t =>
      (t.byteAt a).toNat = (s.reg src1).toNat % 256 ∧ rest 1 t) ∧
    (a % 4 ≠ 0 → ExecFaults (.st4 src1 src2 c) s (.alignmentFault addr)) ∧
    (a % 4 = 0 → ¬all → ExecFaults (.st4 src1 src2 c) s (.busFault addr)) ∧
    (a % 4 = 0 → all → text → ExecFaults (.st4 src1 src2 c) s (.textWriteFault addr)) ∧
    (a % 4 = 0 → all → ¬text → Completes (.st4 src1 src2 c) s fun t => WordAt t a (s.reg src1) ∧ rest 4 t) ∧
    (State.wf s = true → a % 4 = 0 → ∀ k, k < 4 → s.backed (a + k) = s.backed a ∧ s.inText (a + k) = s.inText a)

/-- `ex4` exchanges the register and the word, after all the checks of a write (44_loadstore.md R150); done twice with two other
registers it restores both. -/
def Obligations.ExchangeSwapsRegisterAndWord : Prop :=
  ∀ (rdes src1 : RegNum) (c : BitVec 8) (s : State),
    let addr := s.effAddr src1 c
    let a := addr.toNat
    let all : Prop := ∀ k, k < 4 → s.backed (a + k) = true
    let text : Prop := ∃ k, k < 4 ∧ s.inText (a + k) = true
    (a % 4 ≠ 0 → ExecFaults (.ex4 rdes src1 c) s (.alignmentFault addr)) ∧
    (a % 4 = 0 → ¬all → ExecFaults (.ex4 rdes src1 c) s (.busFault addr)) ∧
    (a % 4 = 0 → all → text → ExecFaults (.ex4 rdes src1 c) s (.textWriteFault addr)) ∧
    (a % 4 = 0 → all → ¬text → Completes (.ex4 rdes src1 c) s fun t =>
      ∃ w, WordAt s a w ∧ t.reg rdes = written rdes w ∧ SameRegsBut rdes s t ∧ WordAt t a (s.reg rdes) ∧ SameBytesBut a 4 s t ∧
        t.pc = s.pc + 4 ∧ SameConsole s t ∧ SameRun s t ∧
        (rdes ≠ 0 → rdes ≠ src1 → Completes (.ex4 rdes src1 c) t fun u => SameRegs s u ∧ SameBytes s u))

/-- 20_memory.md R34 (the spec's decision D10): where each byte of a stored word stands under either byte order, that a fetched word
is read in the same order, and that no step changes the order. -/
def Obligations.ByteOrderOfStoredWord : Prop :=
  ∀ (s : State) (addr v : Word),
    let b : Nat → Nat := fun k => ((s.storeWord addr v).byteAt (addr.toNat + k)).toNat
    (s.launch.params.byteOrder = .big → b 0 = v.toNat / 2 ^ 24 ∧ b 1 = v.toNat / 2 ^ 16 % 256 ∧ b 2 = v.toNat / 2 ^ 8 % 256 ∧
      b 3 = v.toNat % 256) ∧
    (s.launch.params.byteOrder = .little → b 0 = v.toNat % 256 ∧ b 1 = v.toNat / 2 ^ 8 % 256 ∧ b 2 = v.toNat / 2 ^ 16 % 256 ∧
      b 3 = v.toNat / 2 ^ 24) ∧
    (∀ w, fetch s = .word w → WordAt s s.pc.toNat w) ∧
    ∀ t, step s = .next t → t.launch.params.byteOrder = s.launch.params.byteOrder

/-- What a mixed-width access sees (20_memory.md R35, which the spec derives from R34, R36 and R37): `ld1` of a byte of a word that
`st4` stored, and `ld4` of a word that four `st1` stored. -/
def Obligations.MixedWidthAccess : Prop :=
  (∀ (src1 src2 rdes base : RegNum) (c d : BitVec 8) (s t : State) (i : Nat), s.status = .running →
    exec (.st4 src1 src2 c) s = .next t → t.status = .running → i < 4 →
    (t.effAddr base d).toNat = (s.effAddr src2 c).toNat + i →
    Completes (.ld1 rdes base d) t fun u => ∃ v : Word,
      v.toInt = (match s.launch.params.byteOrder with
        | .big => (s.reg src1).extractLsb' (24 - 8 * i) 8
        | .little => (s.reg src1).extractLsb' (8 * i) 8).toInt ∧ OnlyWrites rdes v t u) ∧
  ∀ (v0 v1 v2 v3 base rdes : RegNum) (c0 c1 c2 c3 : BitVec 8) (s t0 t1 t2 t3 : State), s.status = .running →
    let a := (s.effAddr base c0).toNat
    a % 4 = 0 → (s.effAddr base c1).toNat = a + 1 → (s.effAddr base c2).toNat = a + 2 → (s.effAddr base c3).toNat = a + 3 →
    exec (.st1 v0 base c0) s = .next t0 → t0.status = .running → exec (.st1 v1 base c1) t0 = .next t1 → t1.status = .running →
    exec (.st1 v2 base c2) t1 = .next t2 → t2.status = .running → exec (.st1 v3 base c3) t2 = .next t3 → t3.status = .running →
    let b : RegNum → Byte := fun r => (s.reg r).setWidth 8
    Completes (.ld4 rdes base c0) t3 (OnlyWrites rdes (match s.launch.params.byteOrder with
      | .big => b v0 ++ b v1 ++ b v2 ++ b v3
      | .little => b v3 ++ b v2 ++ b v1 ++ b v0) t3)

/-! ## Comparisons, jumps and branches -/

/-- 45_compare.md R160: each comparison writes 1 if its relation holds and 0 if not, signed or unsigned. -/
def Obligations.ComparisonsWriteOneOrZero : Prop :=
  ∀ (rdes src1 src2 : RegNum) (s : State),
    let a := s.reg src1
    let b := s.reg src2
    Completes (.eq rdes src1 src2) s (OnlyWrites rdes (if a = b then 1 else 0) s) ∧
    Completes (.ges rdes src1 src2) s (OnlyWrites rdes (if a.toInt ≥ b.toInt then 1 else 0) s) ∧
    Completes (.gts rdes src1 src2) s (OnlyWrites rdes (if a.toInt > b.toInt then 1 else 0) s) ∧
    Completes (.geu rdes src1 src2) s (OnlyWrites rdes (if a.toNat ≥ b.toNat then 1 else 0) s) ∧
    Completes (.gtu rdes src1 src2) s (OnlyWrites rdes (if a.toNat > b.toNat then 1 else 0) s)

/-- The jumps (46_branch.md R176, R177): to the old value of `src2` on the condition, and the address of the jump to `rdes` whether
or not it is taken. -/
def Obligations.JumpsLinkAndGo : Prop :=
  ∀ (rdes src1 src2 : RegNum) (s : State),
    Completes (.jez rdes src1 src2) s (OnlyLinks rdes s.pc (if s.reg src1 = 0 then s.reg src2 else s.pc + 4) s) ∧
    Completes (.jnz rdes src1 src2) s (OnlyLinks rdes s.pc (if s.reg src1 ≠ 0 then s.reg src2 else s.pc + 4) s)

/-- The branches with a link (46_branch.md R180, R181): by the byte offset in `src2`, not multiplied, from the branch itself. -/
def Obligations.BranchesLinkAndGo : Prop :=
  ∀ (rdes src1 src2 : RegNum) (s : State),
    let target := BitVec.ofNat 32 (s.pc.toNat + (s.reg src2).toNat)
    Completes (.bez rdes src1 src2) s (OnlyLinks rdes s.pc (if s.reg src1 = 0 then target else s.pc + 4) s) ∧
    Completes (.bnz rdes src1 src2) s (OnlyLinks rdes s.pc (if s.reg src1 ≠ 0 then target else s.pc + 4) s)

/-- The branches with a constant (46_branch.md R182, R183): by a signed count of instructions from the branch itself, no link. -/
def Obligations.BranchesByConstant : Prop :=
  ∀ (src1 : RegNum) (h : BitVec 16) (s : State),
    let target := BitVec.ofInt 32 (s.pc.toNat + 4 * h.toInt)
    let goes : Word → State → Prop := fun dst t =>
      t.pc = dst ∧ SameRegs s t ∧ SameBytes s t ∧ SameConsole s t ∧ SameRun s t
    Completes (.bezi src1 h) s (goes (if s.reg src1 = 0 then target else s.pc + 4)) ∧
    Completes (.bnzi src1 h) s (goes (if s.reg src1 ≠ 0 then target else s.pc + 4))

/-- 46_branch.md R185 (the spec's decisions D11, D23): no jump or branch checks its target; the next step's fetch does, with the bad
target as `pc`, after the link has been written; `bezi` and `bnzi` keep an aligned `pc` aligned. -/
def Obligations.TargetsAreCheckedAtNextFetch : Prop :=
  ∀ (i : Instr) (s : State), s.status = .running → isTransfer i = true →
    ∃ t, exec i s = .next t ∧ t.status = .running ∧ (∀ target, takenTarget s i = some target → t.pc = target) ∧
      (∀ rdes ∈ destinations i, t.reg rdes = written rdes s.pc) ∧
      (t.pc.toNat % 4 ≠ 0 → StepFaults t (.fetchFault t.pc .misaligned)) ∧
      (t.pc.toNat % 4 = 0 → ¬(s.launch.textBase.toNat ≤ t.pc.toNat ∧ t.pc.toNat < s.launch.textBase.toNat + 4 * s.launch.textLen) →
        StepFaults t (.fetchFault t.pc .outsideText)) ∧
      (i.mnemonic ∈ [Mnemonic.bezi, .bnzi] → s.pc.toNat % 4 = 0 → t.pc.toNat % 4 = 0)

/-! ## Console and halt -/

/-- 47_console.md R195 (the spec's decision D24): `cin` takes the first byte, zero-extended, and on empty input has no step. Its word
and the faults of its decoding are stated too. -/
def Obligations.ConsoleInputTakesFirstByte : Prop :=
  ∀ (rdes : RegNum) (s : State),
    (s.cinQ = [] → exec (.cin rdes) s = .fault .stuckOnConsoleInput) ∧
    (∀ b rest, s.cinQ = b :: rest → Completes (.cin rdes) s fun t => ∃ v : Word, v.toNat = b.toNat ∧
      t.reg rdes = written rdes v ∧ SameRegsBut rdes s t ∧ t.cinQ = rest ∧ t.coutQ = s.coutQ ∧ t.pc = s.pc + 4 ∧ SameBytes s t ∧
      SameRun s t) ∧
    encode defaultOpcodes (.cin rdes) = 0x90#8 ++ (0#2 ++ rdes) ++ 0#16 ∧
    ∀ (a : BitVec 8) (h : BitVec 16), decode defaultOpcodes (0x90#8 ++ a ++ h) =
      if h ≠ 0 then .illegal .reservedField else if 64 ≤ a.toNat then .illegal .registerNumber
      else .legal (.cin (a.setWidth 6))

/-- 47_console.md R196 (the spec's decision D24): `cout` appends the low byte of the register to the output. Its word and the faults
of its decoding are stated too. -/
def Obligations.ConsoleOutputAppendsLowByte : Prop :=
  ∀ (src1 : RegNum) (s : State),
    (Completes (.cout src1) s fun t => ∃ b : Byte, b.toNat = (s.reg src1).toNat % 256 ∧
      t.coutQ = s.coutQ ++ [b] ∧ t.cinQ = s.cinQ ∧ SameRegs s t ∧ t.pc = s.pc + 4 ∧ SameBytes s t ∧ SameRun s t) ∧
    encode defaultOpcodes (.cout src1) = 0x91#8 ++ (0#2 ++ src1) ++ 0#16 ∧
    ∀ (a : BitVec 8) (h : BitVec 16), decode defaultOpcodes (0x91#8 ++ a ++ h) =
      if h ≠ 0 then .illegal .reservedField else if 64 ≤ a.toNat then .illegal .registerNumber
      else .legal (.cout (a.setWidth 6))

/-- 48_halt.md R200 (the spec's decision D25): `halt` sets the status and nothing else, no step follows, and no other instruction
sets it. Its word and the fault of its decoding are stated too. -/
def Obligations.HaltStopsTheProcessor : Prop :=
  (∀ s : State, Completes .halt s fun t => t = { s with status := .halted } ∧ step t = .fault .halted ∧ t.isFinal = true) ∧
  (∀ (i : Instr) (s t : State), s.status = .running → exec i s = .next t → t.isFinal = true → i = .halt) ∧
  encode defaultOpcodes .halt = 0xA0000000 ∧
  ∀ low : BitVec 24, decode defaultOpcodes (0xA0#8 ++ low) = if low = 0 then .legal .halt else .illegal .reservedField

/-! ## The assembler -/

/-- 10_state.md R13 (the spec's decision D3): the register names. -/
def Obligations.RegisterNames : Prop :=
  registerOfName "ze".toList = some 0 ∧ registerOfName "ra".toList = some 1 ∧ registerOfName "sp".toList = some 2 ∧
    registerOfName "fp".toList = some 3 ∧
    (∀ k, k ≤ 55 → registerOfName ('g' :: Nat.toDigits 10 k) = some (BitVec.ofNat 6 (4 + k))) ∧
    (∀ k, k ≤ 3 → registerOfName ('u' :: Nat.toDigits 10 k) = some (BitVec.ofNat 6 (60 + k))) ∧
    ∀ k, k ≤ 63 → registerOfName ('r' :: Nat.toDigits 10 k) = some (BitVec.ofNat 6 k)

/-- The length of every accepted line is known before any label has an address (30_encoding.md R62, R65). -/
def Obligations.LengthsAreKnownBeforeAddresses : Prop :=
  ∀ (p : Params) (syms : Symbols) (here : Word) (l : AsmLine) (is : List Instr),
    expand p syms here l = .ok is → is.length = lineSize p l

/-- `lc` loads any 32-bit constant, changes nothing else and takes two instructions (40_constants.md R72, which the spec derives
from R70 and R71). -/
def Obligations.LcLoadsTheWholeConstant : Prop :=
  ∀ (p : Params) (syms : Symbols) (here : Word) (rdes : RegNum) (c : Const) (k : Word) (s : State), ConstIs syms c k →
    s.status = .running → ∃ i j, expand p syms here ⟨.lc, [.reg rdes, .const c]⟩ = .ok [i, j] ∧ ∃ t, execAll [i, j] s = .next t ∧
      t.reg rdes = written rdes k ∧ SameRegsBut rdes s t ∧ t.pc = s.pc + 8 ∧ SameBytes s t ∧ SameConsole s t ∧ SameRun s t

/-- The forms that need the scratch register (30_encoding.md R64 to R66): the constant is brought into `u0` by one or two
instructions and nothing else changes, then the register form runs with `u0`; a form that names `u0` is refused. That a shift by a
label of address 0 to 31 follows this expansion too, and not the net effect 43_shift.md R138 to R140 write, is the model's choice
(log 30). -/
def Obligations.WideFormsLoadScratchThenRun : Prop :=
  ∀ (p : Params) (syms : Symbols) (here : Word) (op : AsmOp) (rdes src1 : RegNum) (last : Instr) (c : Const) (k : Word),
    wideForm rdes src1 op = some last → ConstIs syms c k → last.wf = true →
    (∀ m, op = .native m → fitsConst8 p c = false) →
    let line : AsmLine := ⟨op, [.reg rdes, .reg src1, .const c]⟩
    ((rdes = u0 ∨ src1 = u0) → expand p syms here line = .refused .scratchOperand) ∧
    (rdes ≠ u0 → src1 ≠ u0 → ∃ is, expand p syms here line = .ok is ∧ ∀ s : State, s.status = .running →
      ∃ u, ScratchLoaded (loadSize c) k s u ∧ execAll is s = exec last u)

/-- The forms that become one instruction, by their effect: `les`, `lts`, `leu`, `ltu` (45_compare.md R166 to R169), `mov`, `j` and
`b` with a register, `b` with a constant (49_artificial.md R206, R208 to R210; 90_conflicts.md C2). That the distance of `b` to a
constant is the plain integer difference, so that a constant across address 0 is out of reach, is the model's choice (log 28). -/
def Obligations.OneInstructionForms : Prop :=
  ∀ (p : Params) (syms : Symbols) (here : Word) (rdes src1 src2 : RegNum) (s : State),
    let a := s.reg src1
    let b := s.reg src2
    let runs : AsmLine → (State → Prop) → Prop := fun l P => ∃ i, expand p syms here l = .ok [i] ∧ Completes i s P
    let goes : Word → State → Prop := fun dst t =>
      t.pc = dst ∧ SameRegs s t ∧ SameBytes s t ∧ SameConsole s t ∧ SameRun s t
    runs ⟨.les, [.reg rdes, .reg src1, .reg src2]⟩ (OnlyWrites rdes (if a.toInt ≤ b.toInt then 1 else 0) s) ∧
    runs ⟨.lts, [.reg rdes, .reg src1, .reg src2]⟩ (OnlyWrites rdes (if a.toInt < b.toInt then 1 else 0) s) ∧
    runs ⟨.leu, [.reg rdes, .reg src1, .reg src2]⟩ (OnlyWrites rdes (if a.toNat ≤ b.toNat then 1 else 0) s) ∧
    runs ⟨.ltu, [.reg rdes, .reg src1, .reg src2]⟩ (OnlyWrites rdes (if a.toNat < b.toNat then 1 else 0) s) ∧
    runs ⟨.mov, [.reg rdes, .reg src1]⟩ (OnlyWrites rdes a s) ∧
    runs ⟨.j, [.reg src1]⟩ (goes a) ∧ runs ⟨.b, [.reg src1]⟩ (goes (s.pc + a)) ∧
    ∀ (c : Const) (k : Word), ConstIs syms c k →
      let distance := (k.toNat : Int) - here.toNat
      (distance % 4 ≠ 0 → expand p syms here ⟨.b, [.const c]⟩ = .refused .branchOutOfReach) ∧
      ∀ n : Int, distance = 4 * n →
        (-32768 ≤ n ∧ n ≤ 32767 → s.pc = here → runs ⟨.b, [.const c]⟩ (goes k)) ∧
        (¬(-32768 ≤ n ∧ n ≤ 32767) → expand p syms here ⟨.b, [.const c]⟩ = .refused .branchOutOfReach)

/-- `jezi`, `jnzi` and `j` with a constant (46_branch.md R178, R179; 49_artificial.md R207; 90_conflicts.md C1): control goes to the
constant, the link is the address of the jump that ends the expansion, and `u0` holds the constant. -/
def Obligations.JumpsToConstants : Prop :=
  ∀ (p : Params) (syms : Symbols) (here : Word) (rdes src1 : RegNum) (c : Const) (k : Word) (s : State), ConstIs syms c k →
    s.status = .running → rdes ≠ u0 → src1 ≠ u0 →
    let jump := s.pc + BitVec.ofNat 32 (4 * loadSize c)
    let ends : RegNum → Word → State → Prop := fun link dst t => t.pc = dst ∧ t.reg u0 = k ∧ t.reg link = written link jump ∧
      (∀ r, r ≠ u0 → r ≠ link → t.reg r = s.reg r) ∧ SameBytes s t ∧ SameConsole s t ∧ SameRun s t
    let runs : AsmLine → (State → Prop) → Prop := fun l P =>
      ∃ is t, expand p syms here l = .ok is ∧ execAll is s = .next t ∧ P t
    runs ⟨.jezi, [.reg rdes, .reg src1, .const c]⟩ (ends rdes (if s.reg src1 = 0 then k else jump + 4)) ∧
    runs ⟨.jnzi, [.reg rdes, .reg src1, .const c]⟩ (ends rdes (if s.reg src1 ≠ 0 then k else jump + 4)) ∧
    runs ⟨.j, [.const c]⟩ (ends 0 k)

/-- `push` and `pop` (49_artificial.md R213, R214): the stack pointer, the word, the faults, and that a `pop` after a `push`
restores the stack pointer and returns the pushed value. -/
def Obligations.PushAndPop : Prop :=
  ∀ (p : Params) (syms : Symbols) (here : Word) (src1 rdes : RegNum) (s : State), s.status = .running →
    let top := s.reg sp - 4
    let value := if src1 = sp then top else s.reg src1
    ∃ push, expand p syms here ⟨.push, [.reg src1]⟩ = .ok push ∧
    (∀ f, s.writeFault top .word = some f → ∃ m t, execAll push s = .next t ∧ m.reg sp = top ∧ SameRegsBut sp s m ∧
      m.pc = s.pc + 4 ∧ SameBytes s m ∧ SameConsole s m ∧ SameRun s m ∧ OnlyFaults f m t) ∧
    (s.writeFault top .word = none → ∃ t, execAll push s = .next t ∧ t.reg sp = top ∧ SameRegsBut sp s t ∧
      WordAt t top.toNat value ∧ SameBytesBut top.toNat 4 s t ∧ t.pc = s.pc + 8 ∧ SameConsole s t ∧ SameRun s t) ∧
    (rdes = sp → expand p syms here ⟨.pop, [.reg rdes]⟩ = .refused .popStackPointer) ∧
    (rdes ≠ sp → ∃ pop, expand p syms here ⟨.pop, [.reg rdes]⟩ = .ok pop ∧
      (∀ f, s.readFault (s.reg sp) .word = some f → ∃ t, execAll pop s = .next t ∧ OnlyFaults f s t) ∧
      (s.readFault (s.reg sp) .word = none → ∃ t w, execAll pop s = .next t ∧ WordAt s (s.reg sp).toNat w ∧
        t.reg rdes = written rdes w ∧ t.reg sp = s.reg sp + 4 ∧ (∀ r, r ≠ rdes → r ≠ sp → t.reg r = s.reg r) ∧ SameBytes s t ∧
        t.pc = s.pc + 8 ∧ SameConsole s t ∧ SameRun s t) ∧
      (s.writeFault top .word = none → ∃ t, execAll (push ++ pop) s = .next t ∧ t.reg sp = s.reg sp ∧
        t.reg rdes = written rdes value ∧ t.pc = s.pc + 16))

/-- 49_artificial.md R215 to R219 (the spec's decision D33): `call`, `entry` and `return` are refused by name. -/
def Obligations.CallEntryReturnAreRefused : Prop :=
  ∀ (p : Params) (syms : Symbols) (here : Word) (c : Const) (r : RegNum),
    expand p syms here ⟨.call, [.const c]⟩ = .refused (.noExpansion .call) ∧
    expand p syms here ⟨.entry, [.const c]⟩ = .refused (.noExpansion .entry) ∧
    expand p syms here ⟨.ret, [.reg r]⟩ = .refused (.noExpansion .ret) ∧
    expand p syms here ⟨.ret, [.const c]⟩ = .refused (.noExpansion .ret)
end

