-- ==== Sys2Proof/Laws/Alu.lean ====
section
/-! SUPPORT. What division, the shifts and the overflow word answer, said once. -/

namespace Sys2Proof.Machine

theorem divisionAgreed_iff {a b : Word} : divisionAgreed a b = true ↔ a.toNat < 2 ^ 31 ∧ b.toNat < 2 ^ 31 ∧ b ≠ 0 := by
  simp [divisionAgreed, and_assoc]

/-- A division is the agreed quotient or the chosen reading. -/
theorem divide_cases (p : DivReading) (a b : Word) :
    (divisionAgreed a b = true ∧ divide p a b = .value (BitVec.ofNat 32 (a.toNat / b.toNat))) ∨
      (divisionAgreed a b = false ∧ (p = .signedTruncating ∧ divide p a b = divSigned a b ∨
        p = .other ∧ divide p a b = Config.divOther a b)) := by
  unfold divide; cases divisionAgreed a b <;> cases p <;> simp

/-- A modulo is the agreed remainder or the chosen reading. -/
theorem modulo_cases (p : DivReading) (a b : Word) :
    (divisionAgreed a b = true ∧ modulo p a b = .value (BitVec.ofNat 32 (a.toNat - b.toNat * (a.toNat / b.toNat)))) ∨
      (divisionAgreed a b = false ∧ (p = .signedTruncating ∧ modulo p a b = modSigned a b ∨
        p = .other ∧ modulo p a b = Config.modOther a b)) := by
  unfold modulo; cases divisionAgreed a b <;> cases p <;> simp

/-- A shift by less than the width. -/
theorem shift_of_le (p : ShiftBigReading) (k : ShiftKind) (v amount : Word) (h : amount.toNat ≤ 31) :
    shift p k v amount = shiftBy k v amount.toNat := if_pos h

/-- A shift by the width or more. -/
theorem shift_of_ge (p : ShiftBigReading) (k : ShiftKind) (v amount : Word) (h : 32 ≤ amount.toNat) :
    shift p k v amount = shiftBig p k v amount.toNat := if_neg (by omega)

/-- The overflow word as a number. -/
theorem highWord_toNat (r : Int) : (highWord r).toNat = (r % 2 ^ 64).toNat / 2 ^ 32 := by
  simp only [highWord, BitVec.extractLsb'_toNat, BitVec.toNat_ofInt, Nat.shiftRight_eq_div_pow]
  have : (r % (2 ^ 64 : Nat)).toNat / 2 ^ 32 < 2 ^ 32 := by omega
  rw [Nat.mod_eq_of_lt this]; rfl

/-- The overflow word above the low 32 bits is the exact result, if it has 64 bits. -/
theorem highWord_append (r : Int) (h : -2 ^ 63 ≤ r) (h' : r < 2 ^ 63) : (highWord r ++ BitVec.ofInt 32 r).toInt = r := by
  have hlow : (BitVec.ofInt 32 r).toNat = (r % 2 ^ 32).toNat := by rw [BitVec.toNat_ofInt]; rfl
  rw [BitVec.toInt_eq_toNat_cond, BitVec.toNat_append, ← Nat.shiftLeft_add_eq_or_of_lt (BitVec.isLt _), Nat.shiftLeft_eq,
    highWord_toNat, hlow]
  split <;> omega

end Sys2Proof.Machine
end

