-- ==== Sys2Proof/Laws/Memory.lean ====
section
/-! SUPPORT. Memory: every operation keeps the canonical form, and reading after writing. -/

namespace Sys2Proof.Machine

/-! ## The canonical form -/

theorem Memory.above_writeByte {k : Nat} {m : Memory} {a : Nat} (b : Byte) (hm : Memory.above k m = true) (ha : k < a) :
    Memory.above k (Memory.writeByte m a b) = true := by
  induction m with
  | nil => simp [Memory.writeByte, Memory.above, ha]
  | cons c m ih =>
    obtain ⟨j, v⟩ := c
    simp only [Memory.above, Bool.and_eq_true, decide_eq_true_eq] at hm
    unfold Memory.writeByte
    split
    · simp [Memory.above, ha, hm]
    · split
      · simp [Memory.above, ha, hm]
      · simp [Memory.above, hm, ih hm.2]

theorem Memory.above_mono {j k : Nat} {m : Memory} (h : Memory.above k m = true) (hjk : j ≤ k) : Memory.above j m = true := by
  induction m with
  | nil => rfl
  | cons c m ih =>
    simp only [Memory.above, Bool.and_eq_true, decide_eq_true_eq] at h ⊢
    exact ⟨by omega, ih h.2⟩

/-- Storing a byte below 2^32 keeps the canonical form. -/
theorem Memory.wf_writeByte {m : Memory} {a : Nat} (b : Byte) (hm : Memory.wf m = true) (ha : a < 2 ^ 32) :
    Memory.wf (Memory.writeByte m a b) = true := by
  induction m with
  | nil => simp [Memory.writeByte, Memory.wf, Memory.above]; omega
  | cons c m ih =>
    obtain ⟨k, v⟩ := c
    simp only [Memory.wf, Bool.and_eq_true, decide_eq_true_eq] at hm
    unfold Memory.writeByte
    split
    · rename_i h
      simp only [Memory.wf, Memory.above, Bool.and_eq_true, decide_eq_true_eq]
      exact ⟨⟨ha, h, Memory.above_mono hm.1.2 (by omega)⟩, ⟨hm.1.1, hm.1.2⟩, hm.2⟩
    · split
      · rename_i h
        subst h
        simp only [Memory.wf, Bool.and_eq_true, decide_eq_true_eq]
        exact ⟨⟨ha, hm.1.2⟩, hm.2⟩
      · rename_i h1 h2
        simp only [Memory.wf, Bool.and_eq_true, decide_eq_true_eq]
        exact ⟨⟨hm.1.1, Memory.above_writeByte b hm.1.2 (by omega)⟩, ih hm.2⟩

/-- Storing a list of bytes that ends by 2^32 keeps the canonical form. -/
theorem Memory.wf_writeBytes {m : Memory} {a : Nat} {bs : List Byte} (hm : Memory.wf m = true) (ha : a + bs.length ≤ 2 ^ 32) :
    Memory.wf (Memory.writeBytes m a bs) = true := by
  induction bs generalizing m a with
  | nil => exact hm
  | cons b bs ih =>
    simp only [List.length_cons] at ha
    exact ih (Memory.wf_writeByte b hm (by omega)) (by omega)

/-! ## Reading after writing -/

theorem Memory.stored_of_above {m : Memory} {k a : Nat} (h : Memory.above k m = true) (ha : a ≤ k) : Memory.stored m a = none := by
  induction m with
  | nil => rfl
  | cons c m ih =>
    simp only [Memory.above, Bool.and_eq_true, decide_eq_true_eq] at h
    simp [Memory.stored, ih h.2]; omega

/-- What is stored after storing a byte: that byte at its address, and what was stored everywhere else. -/
theorem Memory.stored_writeByte (m : Memory) (a : Nat) (b : Byte) (x : Nat) :
    Memory.stored (Memory.writeByte m a b) x = if x = a then some b else Memory.stored m x := by
  induction m with
  | nil => simp [Memory.writeByte, Memory.stored, eq_comm]
  | cons c m ih =>
    obtain ⟨k, v⟩ := c
    unfold Memory.writeByte
    split
    · by_cases hx : x = a
      · simp [Memory.stored, hx]
      · simp [Memory.stored, hx, Ne.symm hx]
    · split
      · rename_i h
        subst h
        by_cases hx : x = k
        · simp [Memory.stored, hx]
        · simp [Memory.stored, hx, Ne.symm hx]
      · rename_i h1 h2
        simp only [Memory.stored, ih]
        by_cases hk : k = x
        · subst hk; simp [h2]
        · simp [hk]

/-- A byte reads as it was stored, and every other byte as before. -/
theorem Memory.readByte_writeByte (m : Memory) (a : Nat) (b : Byte) (x : Nat) :
    Memory.readByte (Memory.writeByte m a b) x = if x = a then b else Memory.readByte m x := by
  unfold Memory.readByte
  rw [Memory.stored_writeByte]
  split <;> rfl

/-- Bytes outside the stored list read as before. -/
theorem Memory.readByte_writeBytes_outside (m : Memory) (a : Nat) (bs : List Byte) (x : Nat) (hx : x < a ∨ a + bs.length ≤ x) :
    Memory.readByte (Memory.writeBytes m a bs) x = Memory.readByte m x := by
  induction bs generalizing m a with
  | nil => rfl
  | cons b bs ih =>
    simp only [List.length_cons] at hx
    rw [Memory.writeBytes, ih _ _ (by omega), Memory.readByte_writeByte]
    simp; omega

/-- A byte of the stored list reads as it was stored. -/
theorem Memory.readByte_writeBytes_inside (m : Memory) (a : Nat) (bs : List Byte) (k : Nat) (hk : k < bs.length) :
    Memory.readByte (Memory.writeBytes m a bs) (a + k) = bs[k] := by
  induction bs generalizing m a k with
  | nil => simp at hk
  | cons b bs ih =>
    cases k with
    | zero =>
      rw [Memory.writeBytes, Memory.readByte_writeBytes_outside _ _ _ _ (by omega), Memory.readByte_writeByte]
      simp
    | succ k =>
      simp only [List.length_cons] at hk
      have := ih (Memory.writeByte m a b) (a + 1) k (by omega)
      rw [Memory.writeBytes, show a + (k + 1) = a + 1 + k by omega, this]
      simp

end Sys2Proof.Machine
end

