-- ==== Sys2Proof/Laws/State.lean ====
section
/-! SUPPORT. One lemma per field per update of the state, and how registers and bytes read after each update. -/

namespace Sys2Proof.Machine

@[simp] theorem State.setPc_regs (s : State) (t : Word) : (s.setPc t).regs = s.regs := rfl
@[simp] theorem State.setPc_pc (s : State) (t : Word) : (s.setPc t).pc = t := rfl
@[simp] theorem State.setPc_mem (s : State) (t : Word) : (s.setPc t).mem = s.mem := rfl
@[simp] theorem State.setPc_cinQ (s : State) (t : Word) : (s.setPc t).cinQ = s.cinQ := rfl
@[simp] theorem State.setPc_coutQ (s : State) (t : Word) : (s.setPc t).coutQ = s.coutQ := rfl
@[simp] theorem State.setPc_status (s : State) (t : Word) : (s.setPc t).status = s.status := rfl
@[simp] theorem State.setPc_launch (s : State) (t : Word) : (s.setPc t).launch = s.launch := rfl

@[simp] theorem State.setStatus_regs (s : State) (st : Status) : (s.setStatus st).regs = s.regs := rfl
@[simp] theorem State.setStatus_pc (s : State) (st : Status) : (s.setStatus st).pc = s.pc := rfl
@[simp] theorem State.setStatus_mem (s : State) (st : Status) : (s.setStatus st).mem = s.mem := rfl
@[simp] theorem State.setStatus_cinQ (s : State) (st : Status) : (s.setStatus st).cinQ = s.cinQ := rfl
@[simp] theorem State.setStatus_coutQ (s : State) (st : Status) : (s.setStatus st).coutQ = s.coutQ := rfl
@[simp] theorem State.setStatus_status (s : State) (st : Status) : (s.setStatus st).status = st := rfl
@[simp] theorem State.setStatus_launch (s : State) (st : Status) : (s.setStatus st).launch = s.launch := rfl

@[simp] theorem State.setMem_regs (s : State) (m : Memory) : (s.setMem m).regs = s.regs := rfl
@[simp] theorem State.setMem_pc (s : State) (m : Memory) : (s.setMem m).pc = s.pc := rfl
@[simp] theorem State.setMem_mem (s : State) (m : Memory) : (s.setMem m).mem = m := rfl
@[simp] theorem State.setMem_cinQ (s : State) (m : Memory) : (s.setMem m).cinQ = s.cinQ := rfl
@[simp] theorem State.setMem_coutQ (s : State) (m : Memory) : (s.setMem m).coutQ = s.coutQ := rfl
@[simp] theorem State.setMem_status (s : State) (m : Memory) : (s.setMem m).status = s.status := rfl
@[simp] theorem State.setMem_launch (s : State) (m : Memory) : (s.setMem m).launch = s.launch := rfl

@[simp] theorem State.setCin_regs (s : State) (q : List Byte) : (s.setCin q).regs = s.regs := rfl
@[simp] theorem State.setCin_pc (s : State) (q : List Byte) : (s.setCin q).pc = s.pc := rfl
@[simp] theorem State.setCin_mem (s : State) (q : List Byte) : (s.setCin q).mem = s.mem := rfl
@[simp] theorem State.setCin_cinQ (s : State) (q : List Byte) : (s.setCin q).cinQ = q := rfl
@[simp] theorem State.setCin_coutQ (s : State) (q : List Byte) : (s.setCin q).coutQ = s.coutQ := rfl
@[simp] theorem State.setCin_status (s : State) (q : List Byte) : (s.setCin q).status = s.status := rfl
@[simp] theorem State.setCin_launch (s : State) (q : List Byte) : (s.setCin q).launch = s.launch := rfl

@[simp] theorem State.setCout_regs (s : State) (q : List Byte) : (s.setCout q).regs = s.regs := rfl
@[simp] theorem State.setCout_pc (s : State) (q : List Byte) : (s.setCout q).pc = s.pc := rfl
@[simp] theorem State.setCout_mem (s : State) (q : List Byte) : (s.setCout q).mem = s.mem := rfl
@[simp] theorem State.setCout_cinQ (s : State) (q : List Byte) : (s.setCout q).cinQ = s.cinQ := rfl
@[simp] theorem State.setCout_coutQ (s : State) (q : List Byte) : (s.setCout q).coutQ = q := rfl
@[simp] theorem State.setCout_status (s : State) (q : List Byte) : (s.setCout q).status = s.status := rfl
@[simp] theorem State.setCout_launch (s : State) (q : List Byte) : (s.setCout q).launch = s.launch := rfl

@[simp] theorem State.advance_regs (s : State) : s.advance.regs = s.regs := rfl
@[simp] theorem State.advance_pc (s : State) : s.advance.pc = s.pc + 4 := rfl
@[simp] theorem State.advance_mem (s : State) : s.advance.mem = s.mem := rfl
@[simp] theorem State.advance_cinQ (s : State) : s.advance.cinQ = s.cinQ := rfl
@[simp] theorem State.advance_coutQ (s : State) : s.advance.coutQ = s.coutQ := rfl
@[simp] theorem State.advance_status (s : State) : s.advance.status = s.status := rfl
@[simp] theorem State.advance_launch (s : State) : s.advance.launch = s.launch := rfl

@[simp] theorem State.setReg_pc (s : State) (r : RegNum) (v : Word) : (s.setReg r v).pc = s.pc := by
  unfold State.setReg; split <;> rfl
@[simp] theorem State.setReg_mem (s : State) (r : RegNum) (v : Word) : (s.setReg r v).mem = s.mem := by
  unfold State.setReg; split <;> rfl
@[simp] theorem State.setReg_cinQ (s : State) (r : RegNum) (v : Word) : (s.setReg r v).cinQ = s.cinQ := by
  unfold State.setReg; split <;> rfl
@[simp] theorem State.setReg_coutQ (s : State) (r : RegNum) (v : Word) : (s.setReg r v).coutQ = s.coutQ := by
  unfold State.setReg; split <;> rfl
@[simp] theorem State.setReg_status (s : State) (r : RegNum) (v : Word) : (s.setReg r v).status = s.status := by
  unfold State.setReg; split <;> rfl
@[simp] theorem State.setReg_launch (s : State) (r : RegNum) (v : Word) : (s.setReg r v).launch = s.launch := by
  unfold State.setReg; split <;> rfl

/-! ## Registers -/

@[simp] theorem State.reg_zero (s : State) : s.reg 0 = 0 := rfl

@[simp] theorem State.setPc_reg (s : State) (t : Word) (r : RegNum) : (s.setPc t).reg r = s.reg r := rfl
@[simp] theorem State.setStatus_reg (s : State) (st : Status) (r : RegNum) : (s.setStatus st).reg r = s.reg r := rfl
@[simp] theorem State.setMem_reg (s : State) (m : Memory) (r : RegNum) : (s.setMem m).reg r = s.reg r := rfl
@[simp] theorem State.setCin_reg (s : State) (q : List Byte) (r : RegNum) : (s.setCin q).reg r = s.reg r := rfl
@[simp] theorem State.setCout_reg (s : State) (q : List Byte) (r : RegNum) : (s.setCout q).reg r = s.reg r := rfl
@[simp] theorem State.advance_reg (s : State) (r : RegNum) : s.advance.reg r = s.reg r := rfl

/-- Writing the zero register changes nothing (10_state.md R12). -/
@[simp] theorem State.setReg_zero (s : State) (v : Word) : s.setReg 0 v = s := rfl

/-- A register just written reads as what was written, the zero register as zero. -/
@[simp] theorem State.reg_setReg_self (s : State) (r : RegNum) (v : Word) : (s.setReg r v).reg r = if r = 0 then 0 else v := by
  unfold State.setReg State.reg
  split <;> simp_all

/-- Writing one register leaves every other as it was. -/
theorem State.reg_setReg_of_ne (s : State) {r q : RegNum} (v : Word) (h : q ≠ r) : (s.setReg r v).reg q = s.reg q := by
  have hn : r.toNat ≠ q.toNat := fun e => h (BitVec.eq_of_toNat_eq e).symm
  unfold State.setReg State.reg
  split
  · rfl
  · split
    · rfl
    · simp [Vector.getElem_set_ne, hn]

/-- The cell of the zero register is never written. -/
@[simp] theorem State.setReg_regs_zero (s : State) (r : RegNum) (v : Word) : (s.setReg r v).regs[0] = s.regs[0] := by
  unfold State.setReg
  split
  · rfl
  · rename_i h
    have : r.toNat ≠ 0 := fun e => h (BitVec.eq_of_toNat_eq (by simpa using e))
    simp [Vector.getElem_set_ne, this]

/-! ## What reads through the other fields -/

@[simp] theorem State.setPc_byteAt (s : State) (t : Word) (a : Nat) : (s.setPc t).byteAt a = s.byteAt a := rfl
@[simp] theorem State.setStatus_byteAt (s : State) (st : Status) (a : Nat) : (s.setStatus st).byteAt a = s.byteAt a := rfl
@[simp] theorem State.setCin_byteAt (s : State) (q : List Byte) (a : Nat) : (s.setCin q).byteAt a = s.byteAt a := rfl
@[simp] theorem State.setCout_byteAt (s : State) (q : List Byte) (a : Nat) : (s.setCout q).byteAt a = s.byteAt a := rfl
@[simp] theorem State.advance_byteAt (s : State) (a : Nat) : s.advance.byteAt a = s.byteAt a := rfl
@[simp] theorem State.setReg_byteAt (s : State) (r : RegNum) (v : Word) (a : Nat) : (s.setReg r v).byteAt a = s.byteAt a := by
  simp [State.byteAt]
@[simp] theorem State.setMem_byteAt (s : State) (m : Memory) (a : Nat) : (s.setMem m).byteAt a = Memory.readByte m a := rfl

@[simp] theorem State.setPc_inText (s : State) (t : Word) (a : Nat) : (s.setPc t).inText a = s.inText a := rfl
@[simp] theorem State.setStatus_inText (s : State) (st : Status) (a : Nat) : (s.setStatus st).inText a = s.inText a := rfl
@[simp] theorem State.setMem_inText (s : State) (m : Memory) (a : Nat) : (s.setMem m).inText a = s.inText a := rfl
@[simp] theorem State.setCin_inText (s : State) (q : List Byte) (a : Nat) : (s.setCin q).inText a = s.inText a := rfl
@[simp] theorem State.setCout_inText (s : State) (q : List Byte) (a : Nat) : (s.setCout q).inText a = s.inText a := rfl
@[simp] theorem State.advance_inText (s : State) (a : Nat) : s.advance.inText a = s.inText a := rfl
@[simp] theorem State.setReg_inText (s : State) (r : RegNum) (v : Word) (a : Nat) : (s.setReg r v).inText a = s.inText a := by
  simp [State.inText]
@[simp] theorem State.setPc_inData (s : State) (t : Word) (a : Nat) : (s.setPc t).inData a = s.inData a := rfl
@[simp] theorem State.setStatus_inData (s : State) (st : Status) (a : Nat) : (s.setStatus st).inData a = s.inData a := rfl
@[simp] theorem State.setMem_inData (s : State) (m : Memory) (a : Nat) : (s.setMem m).inData a = s.inData a := rfl
@[simp] theorem State.setCin_inData (s : State) (q : List Byte) (a : Nat) : (s.setCin q).inData a = s.inData a := rfl
@[simp] theorem State.setCout_inData (s : State) (q : List Byte) (a : Nat) : (s.setCout q).inData a = s.inData a := rfl
@[simp] theorem State.advance_inData (s : State) (a : Nat) : s.advance.inData a = s.inData a := rfl
@[simp] theorem State.setReg_inData (s : State) (r : RegNum) (v : Word) (a : Nat) : (s.setReg r v).inData a = s.inData a := by
  simp [State.inData]
@[simp] theorem State.setPc_backed (s : State) (t : Word) (a : Nat) : (s.setPc t).backed a = s.backed a := rfl
@[simp] theorem State.setStatus_backed (s : State) (st : Status) (a : Nat) : (s.setStatus st).backed a = s.backed a := rfl
@[simp] theorem State.setMem_backed (s : State) (m : Memory) (a : Nat) : (s.setMem m).backed a = s.backed a := rfl
@[simp] theorem State.setCin_backed (s : State) (q : List Byte) (a : Nat) : (s.setCin q).backed a = s.backed a := rfl
@[simp] theorem State.setCout_backed (s : State) (q : List Byte) (a : Nat) : (s.setCout q).backed a = s.backed a := rfl
@[simp] theorem State.advance_backed (s : State) (a : Nat) : s.advance.backed a = s.backed a := rfl
@[simp] theorem State.setReg_backed (s : State) (r : RegNum) (v : Word) (a : Nat) : (s.setReg r v).backed a = s.backed a := by
  simp [State.backed, State.inText, State.inData]

end Sys2Proof.Machine
end

