-- ==== Sys2Proof/Laws/Ops.lean ====
section
/-! SUPPORT. One lemma per shared operation that says once everything it can do. -/

namespace Sys2Proof.Machine

/-! ## Faults and the shapes of a meaning -/

@[simp] theorem raise_next {f : FaultReason} {s t : State} : raise f s = .next t ↔ t = s.setStatus (.faulted f) := by
  unfold raise; constructor <;> intro h
  · cases h; rfl
  · rw [h]

@[simp] theorem writeResult_next {r : RegNum} {v : Word} {s t : State} :
    writeResult r v s = .next t ↔ t = (s.setReg r v).advance := by
  unfold writeResult; constructor <;> intro h
  · cases h; rfl
  · rw [h]

@[simp] theorem writePair_next {r : RegNum} {a b : Word} {s t : State} :
    writePair r a b s = .next t ↔ t = ((s.setReg r a).setReg (pairHigh r) b).advance := by
  unfold writePair; constructor <;> intro h
  · cases h; rfl
  · rw [h]

@[simp] theorem linkAndGo_next {r : RegNum} {c : Bool} {a : Word} {s t : State} :
    linkAndGo r c a s = .next t ↔ t = (s.setReg r s.pc).setPc (if c then a else s.pc + 4) := by
  unfold linkAndGo; constructor <;> intro h
  · cases h; rfl
  · rw [h]

@[simp] theorem branchTo_next {c : Bool} {a : Word} {s t : State} :
    branchTo c a s = .next t ↔ t = s.setPc (if c then a else s.pc + 4) := by
  unfold branchTo; constructor <;> intro h
  · cases h; rfl
  · rw [h]

/-- A division writes a value or raises the fault it returned. -/
theorem writeDivResult_next {r : RegNum} {d : DivResult} {s t : State} :
    writeDivResult r d s = .next t ↔
      (∃ v, d = .value v ∧ t = (s.setReg r v).advance) ∨ (d = .divideByZero ∧ t = s.setStatus (.faulted .divideByZero)) ∨
        (d = .divideOverflow ∧ t = s.setStatus (.faulted .divideOverflow)) := by
  cases d <;> simp [writeDivResult]

/-- An "o" operation with an even destination goes on, with an odd one it is illegal. -/
theorem ifEvenPair_next {r : RegNum} {i : Instr} {s t : State} {go : Result} :
    ifEvenPair r i s go = .next t ↔
      (RegNum.isEven r = true ∧ go = .next t) ∨
        (RegNum.isEven r = false ∧ t = s.setStatus (.faulted (.illegalInstruction (encode s.launch.params.opc i) .oddPair))) := by
  unfold ifEvenPair; cases RegNum.isEven r <;> simp

/-- An access goes on where no check fails, and else raises the one that failed. -/
theorem ifNoFault_next {f : Option FaultReason} {s t : State} {go : Result} :
    ifNoFault f s go = .next t ↔ (f = none ∧ go = .next t) ∨ ∃ reason, f = some reason ∧ t = s.setStatus (.faulted reason) := by
  cases f <;> simp [ifNoFault]

/-! ## The checks of an access -/

@[simp] theorem accessed_byte (addr : Word) : accessed addr .byte = [addr.toNat] := rfl

@[simp] theorem accessed_word (addr : Word) :
    accessed addr .word = [addr.toNat, addr.toNat + 1, addr.toNat + 2, addr.toNat + 3] := rfl

/-- An access ends by the end of the address space once it is aligned (20_memory.md R36). -/
theorem accessed_end {addr : Word} (h : addr.toNat % 4 = 0) : addr.toNat + 4 ≤ 2 ^ 32 := by
  have := addr.isLt; omega

/-- `MemRead` of a byte passes exactly when the byte is backed. -/
theorem readFault_byte_none {s : State} {addr : Word} : s.readFault addr .byte = none ↔ s.backed addr.toNat = true := by
  simp [State.readFault]

/-- `MemRead` of a word passes exactly when it is aligned and all four bytes are backed. -/
theorem readFault_word_none {s : State} {addr : Word} :
    s.readFault addr .word = none ↔ addr.toNat % 4 = 0 ∧ ∀ k < 4, s.backed (addr.toNat + k) = true := by
  have hall : (∀ k < 4, s.backed (addr.toNat + k) = true) ↔ s.backed addr.toNat = true ∧ s.backed (addr.toNat + 1) = true ∧
      s.backed (addr.toNat + 2) = true ∧ s.backed (addr.toNat + 3) = true := by
    refine ⟨fun h => ⟨h 0 (by omega), h 1 (by omega), h 2 (by omega), h 3 (by omega)⟩, fun ⟨h0, h1, h2, h3⟩ k hk => ?_⟩
    have : k = 0 ∨ k = 1 ∨ k = 2 ∨ k = 3 := by omega
    rcases this with rfl | rfl | rfl | rfl <;> simpa
  rw [hall]
  by_cases h4 : addr.toNat % 4 = 0 <;> simp [State.readFault, h4]

/-- `MemWrite` passes exactly when `MemRead` would and no byte is in the text. -/
theorem writeFault_none {s : State} {addr : Word} {n : Width} :
    s.writeFault addr n = none ↔ s.readFault addr n = none ∧ ∀ a ∈ accessed addr n, s.inText a = false := by
  unfold State.writeFault
  cases s.readFault addr n with
  | some f => simp
  | none => simp

/-- The faults `MemRead` can raise (20_memory.md R38). -/
theorem readFault_some {s : State} {addr : Word} {n : Width} {f : FaultReason} (h : s.readFault addr n = some f) :
    (f = .alignmentFault addr ∧ n = .word) ∨ f = .busFault addr := by
  unfold State.readFault at h
  split at h
  · rename_i hc; cases h; exact .inl ⟨rfl, hc.1⟩
  · split at h
    · cases h; exact .inr rfl
    · cases h

/-- The faults `MemWrite` can raise (20_memory.md R38). -/
theorem writeFault_some {s : State} {addr : Word} {n : Width} {f : FaultReason} (h : s.writeFault addr n = some f) :
    (f = .alignmentFault addr ∧ n = .word) ∨ f = .busFault addr ∨ f = .textWriteFault addr := by
  unfold State.writeFault at h
  split at h
  · rename_i g hg
    cases h
    rcases readFault_some hg with h | h
    · exact .inl h
    · exact .inr (.inl h)
  · split at h
    · cases h; exact .inr (.inr rfl)
    · cases h

/-! ## Stores -/

@[simp] theorem bytesOfWord_length (order : ByteOrder) (v : Word) : (bytesOfWord order v).length = 4 := rfl

@[simp] theorem State.storeByte_byteAt (s : State) (addr : Word) (v : Byte) (a : Nat) :
    (s.storeByte addr v).byteAt a = if a = addr.toNat then v else s.byteAt a := by
  simp [State.storeByte, State.byteAt, Memory.readByte_writeByte]

/-- The bytes of a stored word stand in the byte order of the machine (20_memory.md R34). -/
theorem State.storeWord_byteAt_inside (s : State) (addr v : Word) (k : Nat) (hk : k < 4) :
    (s.storeWord addr v).byteAt (addr.toNat + k) = byteOfWord s.launch.params.byteOrder v k := by
  have h := Memory.readByte_writeBytes_inside s.mem addr.toNat (bytesOfWord s.launch.params.byteOrder v) k (by simpa using hk)
  unfold State.storeWord
  rw [State.setMem_byteAt, h]
  have : k = 0 ∨ k = 1 ∨ k = 2 ∨ k = 3 := by omega
  rcases this with rfl | rfl | rfl | rfl <;> rfl

/-- Every byte outside a stored word reads as before. -/
theorem State.storeWord_byteAt_outside (s : State) (addr v : Word) (a : Nat) (h : a < addr.toNat ∨ addr.toNat + 4 ≤ a) :
    (s.storeWord addr v).byteAt a = s.byteAt a := by
  unfold State.storeWord
  rw [State.setMem_byteAt, Memory.readByte_writeBytes_outside]
  · rfl
  · simpa using h

/-- Splitting a word into its bytes and joining them gives the word, in either order. -/
@[simp] theorem wordOfBytes_bytesOfWord (order : ByteOrder) (v : Word) :
    wordOfBytes order (byteOfWord order v 0) (byteOfWord order v 1) (byteOfWord order v 2) (byteOfWord order v 3) = v := by
  cases order
  all_goals
    apply BitVec.eq_of_getLsbD_eq
    intro i hi
    simp only [wordOfBytes, byteOfWord, BitVec.getLsbD_append, BitVec.getLsbD_extractLsb']
    repeat' split
    all_goals
      rw [decide_eq_true (by omega), Bool.true_and]
      exact congrArg v.getLsbD (by omega)

/-- The byte in place `k` of a word joined from four bytes is the `k`-th of them, in either order. -/
theorem byteOfWord_wordOfBytes (order : ByteOrder) (b0 b1 b2 b3 : Byte) :
    byteOfWord order (wordOfBytes order b0 b1 b2 b3) 0 = b0 ∧ byteOfWord order (wordOfBytes order b0 b1 b2 b3) 1 = b1 ∧
      byteOfWord order (wordOfBytes order b0 b1 b2 b3) 2 = b2 ∧ byteOfWord order (wordOfBytes order b0 b1 b2 b3) 3 = b3 := by
  cases order <;> refine ⟨?_, ?_, ?_, ?_⟩
  all_goals
    apply BitVec.eq_of_getLsbD_eq
    intro i hi
    simp only [wordOfBytes, byteOfWord, BitVec.getLsbD_append, BitVec.getLsbD_extractLsb', hi, decide_true, Bool.true_and]
    repeat' split
    all_goals first | omega | exact congrArg (BitVec.getLsbD _) (by omega)

/-- A word loaded where it was stored is that word. -/
theorem State.loadWord_storeWord (s : State) (addr v : Word) : (s.storeWord addr v).loadWord addr = v := by
  have h0 := s.storeWord_byteAt_inside addr v 0 (by omega)
  simp only [Nat.add_zero] at h0
  unfold State.loadWord
  rw [h0, s.storeWord_byteAt_inside addr v 1 (by omega), s.storeWord_byteAt_inside addr v 2 (by omega),
    s.storeWord_byteAt_inside addr v 3 (by omega)]
  exact wordOfBytes_bytesOfWord _ _

end Sys2Proof.Machine
end

