-- ==== Sys2Proof/Laws/Exec.lean ====
section
/-! SUPPORT. Everything an instruction can do to the state, said once: every next state of `exec` is one of the shapes of `Effect`,
and every next state of `step` is a fault of the fetch or of the decoding or a next state of `exec`. -/

namespace Sys2Proof.Machine

/-- The shapes of a next state of `exec`. -/
inductive Effect (s : State) : State → Prop where
  | fault (f : FaultReason) : Effect s (s.setStatus (.faulted f))
  | register (r : RegNum) (v : Word) : Effect s (s.setReg r v).advance
  | pair (r : RegNum) (a b : Word) : Effect s ((s.setReg r a).setReg (pairHigh r) b).advance
  | storeByte (addr : Word) (v : Byte) (h : s.writeFault addr .byte = none) : Effect s (s.storeByte addr v).advance
  | storeWord (addr v : Word) (h : s.writeFault addr .word = none) : Effect s (s.storeWord addr v).advance
  | exchange (addr v : Word) (r : RegNum) (x : Word) (h : s.writeFault addr .word = none) :
      Effect s ((s.storeWord addr v).setReg r x).advance
  | link (r : RegNum) (t : Word) : Effect s ((s.setReg r s.pc).setPc t)
  | branch (t : Word) : Effect s (s.setPc t)
  | input (r : RegNum) (b : Byte) (rest : List Byte) (h : s.cinQ = b :: rest) :
      Effect s ((s.setCin rest).setReg r (b.zeroExtend 32)).advance
  | output (b : Byte) : Effect s (s.setCout (s.coutQ ++ [b])).advance
  | halt : Effect s (s.setStatus .halted)

theorem Effect.ofDivision {r : RegNum} {d : DivResult} {s t : State} (h : writeDivResult r d s = .next t) : Effect s t := by
  rcases writeDivResult_next.1 h with ⟨v, -, rfl⟩ | ⟨-, rfl⟩ | ⟨-, rfl⟩
  · exact .register _ _
  · exact .fault _
  · exact .fault _

theorem Effect.ofPair {r : RegNum} {i : Instr} {a b : Word} {s t : State}
    (h : ifEvenPair r i s (writePair r a b s) = .next t) : Effect s t := by
  rcases ifEvenPair_next.1 h with ⟨-, h⟩ | ⟨-, rfl⟩
  · rw [writePair_next.1 h]; exact .pair _ _ _
  · exact .fault _

theorem Effect.ofLoad {f : Option FaultReason} {r : RegNum} {v : Word} {s t : State}
    (h : ifNoFault f s (writeResult r v s) = .next t) : Effect s t := by
  rcases ifNoFault_next.1 h with ⟨-, h⟩ | ⟨f, -, rfl⟩
  · rw [writeResult_next.1 h]; exact .register _ _
  · exact .fault _

/-- Every next state of an instruction has one of the shapes of `Effect`. -/
theorem exec_effect {i : Instr} {s t : State} (h : exec i s = .next t) : Effect s t := by
  cases i
  case lch => rw [writeResult_next.1 h]; exact .register _ _
  case lcl => rw [writeResult_next.1 h]; exact .register _ _
  case add => rw [writeResult_next.1 h]; exact .register _ _
  case sub => rw [writeResult_next.1 h]; exact .register _ _
  case mul => rw [writeResult_next.1 h]; exact .register _ _
  case addi => rw [writeResult_next.1 h]; exact .register _ _
  case subi => rw [writeResult_next.1 h]; exact .register _ _
  case muli => rw [writeResult_next.1 h]; exact .register _ _
  case div => exact .ofDivision h
  case mod => exact .ofDivision h
  case divi => exact .ofDivision h
  case modi => exact .ofDivision h
  case addo => exact .ofPair h
  case subo => exact .ofPair h
  case mulo => exact .ofPair h
  case addio => exact .ofPair h
  case subio => exact .ofPair h
  case mulio => exact .ofPair h
  case and => rw [writeResult_next.1 h]; exact .register _ _
  case nor => rw [writeResult_next.1 h]; exact .register _ _
  case or => rw [writeResult_next.1 h]; exact .register _ _
  case xor => rw [writeResult_next.1 h]; exact .register _ _
  case shl => rw [writeResult_next.1 h]; exact .register _ _
  case shr => rw [writeResult_next.1 h]; exact .register _ _
  case shru => rw [writeResult_next.1 h]; exact .register _ _
  case shli => rw [writeResult_next.1 h]; exact .register _ _
  case shri => rw [writeResult_next.1 h]; exact .register _ _
  case shrui => rw [writeResult_next.1 h]; exact .register _ _
  case st1 =>
    rcases ifNoFault_next.1 h with ⟨hf, h⟩ | ⟨f, -, rfl⟩
    · cases h; exact .storeByte _ _ hf
    · exact .fault _
  case st4 =>
    rcases ifNoFault_next.1 h with ⟨hf, h⟩ | ⟨f, -, rfl⟩
    · cases h; exact .storeWord _ _ hf
    · exact .fault _
  case ld1 => exact .ofLoad h
  case ld4 => exact .ofLoad h
  case ex4 =>
    rcases ifNoFault_next.1 h with ⟨hf, h⟩ | ⟨f, -, rfl⟩
    · rw [writeResult_next.1 h]; exact .exchange _ _ _ _ hf
    · exact .fault _
  case eq => rw [writeResult_next.1 h]; exact .register _ _
  case ges => rw [writeResult_next.1 h]; exact .register _ _
  case gts => rw [writeResult_next.1 h]; exact .register _ _
  case geu => rw [writeResult_next.1 h]; exact .register _ _
  case gtu => rw [writeResult_next.1 h]; exact .register _ _
  case jez => rw [linkAndGo_next.1 h]; exact .link _ _
  case jnz => rw [linkAndGo_next.1 h]; exact .link _ _
  case bez => rw [linkAndGo_next.1 h]; exact .link _ _
  case bnz => rw [linkAndGo_next.1 h]; exact .link _ _
  case bezi => rw [branchTo_next.1 h]; exact .branch _
  case bnzi => rw [branchTo_next.1 h]; exact .branch _
  case cin =>
    simp only [exec, execCin] at h
    split at h
    · cases h
    · rename_i b rest hq
      rw [writeResult_next.1 h]; exact .input _ _ _ hq
  case cout => cases h; exact .output _
  case halt => cases h; exact .halt

/-- Every next state of a step: the fault of the fetch, the illegal word, or what the decoded instruction does. -/
theorem step_next {s t : State} (h : step s = .next t) :
    s.status = .running ∧
      ((∃ f, fetch s = .fault f ∧ t = s.setStatus (.faulted f)) ∨
        (∃ w why, fetch s = .word w ∧ decode s.launch.params.opc w = .illegal why ∧
          t = s.setStatus (.faulted (.illegalInstruction w why))) ∨
        ∃ w i, fetch s = .word w ∧ decode s.launch.params.opc w = .legal i ∧ exec i s = .next t) := by
  unfold step at h
  split at h
  · cases h
  · cases h
  · rename_i hs
    refine ⟨hs, ?_⟩
    split at h
    · rename_i f hf
      exact .inl ⟨f, hf, raise_next.1 h⟩
    · rename_i w hw
      split at h
      · rename_i why hd
        exact .inr (.inl ⟨w, why, hw, hd, raise_next.1 h⟩)
      · rename_i i hd
        exact .inr (.inr ⟨w, i, hw, hd, h⟩)

/-- Every next state of a step has one of the shapes of `Effect`. -/
theorem step_effect {s t : State} (h : step s = .next t) : Effect s t := by
  rcases (step_next h).2 with ⟨f, -, rfl⟩ | ⟨w, why, -, -, rfl⟩ | ⟨w, i, -, -, h⟩
  · exact .fault _
  · exact .fault _
  · exact exec_effect h

end Sys2Proof.Machine
end

