-- ==== Sys2Proof/Laws/Frames.lean ====
section
/-! SUPPORT. The frames of Safety.lean for each shape a meaning can take, and the words in memory. -/

namespace Sys2Proof.Machine

/-! ## Register results -/

/-- Writing one register and advancing has no other effect. -/
theorem onlyWrites_setReg (s : State) (r : RegNum) (v : Word) : OnlyWrites r v s (s.setReg r v).advance := by
  refine ⟨?_, fun q hq => ?_, by simp, fun a => by simp, ⟨by simp, by simp⟩, ⟨by simp, by simp⟩⟩
  · simp [written]
  · simp [State.reg_setReg_of_ne s v hq]

/-- A meaning that is `writeResult` completes with that effect. -/
theorem completes_writeResult {i : Instr} {r : RegNum} {v : Word} {s : State} (h : exec i s = writeResult r v s) :
    Completes i s (OnlyWrites r v s) := ⟨_, h, onlyWrites_setReg s r v⟩

/-- Linking and going on has no other effect. -/
theorem onlyLinks_link (s : State) (r : RegNum) (t : Word) : OnlyLinks r s.pc t s ((s.setReg r s.pc).setPc t) := by
  refine ⟨?_, fun q hq => ?_, by simp, fun a => by simp, ⟨by simp, by simp⟩, ⟨by simp, by simp⟩⟩
  · simp [written]
  · simp [State.reg_setReg_of_ne s _ hq]

/-- The second register of a pair is another one. -/
theorem pairHigh_ne (r : RegNum) : pairHigh r ≠ r := by revert r; decide

/-- The second register of a pair is not the zero register when the first is even. -/
theorem pairHigh_ne_zero {r : RegNum} (h : RegNum.isEven r = true) : pairHigh r ≠ 0 := by revert r; decide

theorem isEven_iff (r : RegNum) : RegNum.isEven r = true ↔ r.toNat % 2 = 0 := by revert r; decide

/-- Writing a pair and advancing has no other effect. -/
theorem onlyWritesPair_setReg (s : State) {r : RegNum} (a b : Word) (h : RegNum.isEven r = true) :
    OnlyWritesPair r a b s (((s.setReg r a).setReg (pairHigh r) b).advance) := by
  refine ⟨?_, ?_, fun q h1 h2 => ?_, by simp, fun x => by simp, ⟨by simp, by simp⟩, ⟨by simp, by simp⟩⟩
  · rw [State.advance_reg, State.reg_setReg_of_ne _ _ (pairHigh_ne r).symm]; simp [written]
  · rw [State.advance_reg, State.reg_setReg_self, if_neg (pairHigh_ne_zero h)]
  · rw [State.advance_reg, State.reg_setReg_of_ne _ _ h2, State.reg_setReg_of_ne _ _ h1]

/-! ## Faults -/

/-- Raising a fault has no other effect. -/
theorem onlyFaults_setStatus (s : State) (f : FaultReason) : OnlyFaults f s (s.setStatus (.faulted f)) :=
  ⟨rfl, fun _ => rfl, rfl, fun _ => rfl, ⟨rfl, rfl⟩, rfl⟩

/-- A meaning that raises takes the fault. -/
theorem execFaults_raise {i : Instr} {f : FaultReason} {s : State} (h : exec i s = raise f s) : ExecFaults i s f :=
  ⟨_, h, onlyFaults_setStatus s f⟩

/-- A step that raises takes the fault. -/
theorem stepFaults_raise {f : FaultReason} {s : State} (h : step s = raise f s) : StepFaults s f :=
  ⟨_, h, onlyFaults_setStatus s f⟩

/-! ## Words in memory -/

/-- The word that `loadWord` reads stands there, and it is the only one. -/
theorem wordAt_iff (s : State) (addr : Word) (w : Word) : WordAt s addr.toNat w ↔ s.loadWord addr = w := by
  unfold WordAt State.loadWord wordOfBytes
  cases s.launch.params.byteOrder <;> exact eq_comm

/-- A stored word stands where it was stored. -/
theorem wordAt_storeWord (s : State) (addr v : Word) : WordAt (s.storeWord addr v) addr.toNat v :=
  (wordAt_iff _ _ _).2 (s.loadWord_storeWord addr v)

/-- A word stands where four bytes read so; only those bytes and the byte order matter. -/
theorem wordAt_congr {s t : State} {a : Nat} (ho : t.launch.params.byteOrder = s.launch.params.byteOrder)
    (hb : ∀ k, k < 4 → t.byteAt (a + k) = s.byteAt (a + k)) (w : Word) : WordAt t a w ↔ WordAt s a w := by
  have h0 := hb 0 (by omega)
  rw [Nat.add_zero] at h0
  unfold WordAt
  rw [ho, h0, hb 1 (by omega), hb 2 (by omega), hb 3 (by omega)]

/-- A word has one reading at an address. -/
theorem wordAt_unique {s : State} {a : Nat} {v w : Word} (hv : WordAt s a v) (hw : WordAt s a w) : v = w := by
  revert hv hw
  unfold WordAt
  cases s.launch.params.byteOrder <;> exact fun hv hw => hv.trans hw.symm

/-! ## What every instruction keeps -/

@[simp] theorem State.storeByte_regs (s : State) (addr : Word) (v : Byte) (r : RegNum) : (s.storeByte addr v).reg r = s.reg r := rfl
@[simp] theorem State.storeWord_regs (s : State) (addr v : Word) (r : RegNum) : (s.storeWord addr v).reg r = s.reg r := rfl

/-- No instruction changes the launch arguments. -/
theorem Effect.launch {s t : State} (h : Effect s t) : t.launch = s.launch := by
  cases h <;> simp [State.storeByte, State.storeWord]

/-- No instruction changes a byte of the text (20_memory.md R33). -/
theorem Effect.text {s t : State} (h : Effect s t) {a : Nat} (ha : s.inText a = true) : t.byteAt a = s.byteAt a := by
  have word : ∀ {addr v : Word}, s.writeFault addr .word = none → (s.storeWord addr v).byteAt a = s.byteAt a := by
    intro addr v hf
    refine s.storeWord_byteAt_outside addr v a ?_
    by_contra hc
    have hk : a = addr.toNat ∨ a = addr.toNat + 1 ∨ a = addr.toNat + 2 ∨ a = addr.toNat + 3 := by omega
    have := (writeFault_none.1 hf).2 a (by simpa using hk)
    rw [ha] at this
    cases this
  cases h
  case storeByte addr v hf =>
    have := (writeFault_none.1 hf).2 addr.toNat (by simp)
    rw [State.advance_byteAt, State.storeByte_byteAt, if_neg]
    rintro rfl
    rw [ha] at this
    cases this
  case storeWord addr v hf => exact word hf
  case exchange addr v r x hf => simpa using word hf
  all_goals simp

end Sys2Proof.Machine
end

