-- ==== Sys2Proof/Laws/Assembler.lean ====
section
/-! SUPPORT. What the shared parts of the assembler answer, said once. -/

namespace Sys2Proof.Machine

/-! ## Constants -/

/-- A constant operand that is accepted has one value. -/
theorem constValue_ok {syms : Symbols} {c : Const} {use : Word → Assembled} {is : List Instr}
    (h : constValue syms c use = .ok is) : ∃ k, ConstIs syms c k ∧ use k = .ok is := by
  unfold constValue at h
  split at h
  · rename_i v
    split at h
    · rename_i hr; exact ⟨_, ⟨hr.1, hr.2, rfl⟩, h⟩
    · cases h
  · split at h
    · rename_i a ha; exact ⟨a, ha, h⟩
    · cases h

theorem constValue_of_constIs {syms : Symbols} {c : Const} {k : Word} (use : Word → Assembled) (h : ConstIs syms c k) :
    constValue syms c use = use k := by
  unfold ConstIs at h
  unfold constValue
  split
  · simp only at h; rw [if_pos ⟨h.1, h.2.1⟩, h.2.2]
  · simp only at h; rw [h]

/-! ## Expansions -/

theorem native_ok {i : Instr} {is : List Instr} (h : native i = .ok is) : is = [i] ∧ i.wf = true := by
  unfold native at h
  split at h
  · rename_i hw; cases h; exact ⟨rfl, hw⟩
  · cases h

/-- A form with the scratch register loads the constant and then runs its instruction. -/
theorem withScratch_ok {syms : Symbols} {regs : List RegNum} {c : Const} {last : Instr} {is : List Instr}
    (h : withScratch syms regs c last = .ok is) : ∃ k, ConstIs syms c k ∧ is = load32 c k ++ [last] := by
  unfold withScratch at h
  split at h
  · cases h
  · obtain ⟨k, hk, h⟩ := constValue_ok h
    cases h; exact ⟨k, hk, rfl⟩

theorem withScratch_of_constIs {syms : Symbols} {regs : List RegNum} {c : Const} {k : Word} {last : Instr}
    (hr : regs.any (· == u0) = false) (hc : ConstIs syms c k) : withScratch syms regs c last = .ok (load32 c k ++ [last]) := by
  unfold withScratch; rw [hr]; exact constValue_of_constIs (fun k => .ok (load32 c k ++ [last])) hc

@[simp] theorem load32_length (c : Const) (k : Word) : (load32 c k).length = loadSize c := by
  unfold load32 loadSize; split <;> rfl

theorem load32_wf (c : Const) (k : Word) : ∀ i ∈ load32 c k, i.wf = true := by
  unfold load32 loadBoth; split <;> simp [Instr.wf]

/-! ## Running an expansion -/

/-- An instruction that leaves the machine running is followed by the rest. -/
theorem execAll_cons {i : Instr} {is : List Instr} {s t : State} (h : exec i s = .next t) (ht : t.status = .running) :
    execAll (i :: is) s = execAll is t := by
  rw [execAll, h]; simp only [ht]

@[simp] theorem execAll_one (i : Instr) (s : State) : execAll [i] s = exec i s := by
  unfold execAll
  cases h : exec i s with
  | next t => simp only []; cases t.status <;> rfl
  | fault => rfl
  | refused => rfl

/-- `lcl` and then `lch` of the halves of a word give the word. -/
theorem halves_append (k : Word) : k.extractLsb' 16 16 ++ ((k.extractLsb' 0 16).signExtend 32).extractLsb' 0 16 = k := by
  apply BitVec.eq_of_getLsbD_eq; intro i hi
  simp only [BitVec.getLsbD_append, BitVec.getLsbD_extractLsb', BitVec.getLsbD_signExtend]
  split
  · rename_i h; simp [h, hi]
  · rw [decide_eq_true (by omega), Bool.true_and]; exact congrArg k.getLsbD (by omega)

end Sys2Proof.Machine
end

