-- ==== Sys2Proof/Laws/Decode.lean ====
section
/-! SUPPORT. The fields of an encoded word, and the opcode map read in both directions. -/

namespace Sys2Proof

/-! ## Fields of a word -/

/-- Two words with the same four fields are the same word. -/
theorem word_ext_fields {w v : Word} (ho : fieldOp w = fieldOp v) (ha : fieldA w = fieldA v) (hb : fieldB w = fieldB v)
    (hc : fieldC w = fieldC v) : w = v := by
  apply BitVec.eq_of_getLsbD_eq
  intro i hi
  simp only [fieldOp, fieldA, fieldB, fieldC] at ho ha hb hc
  have key : ∀ (st : Nat), w.extractLsb' st 8 = v.extractLsb' st 8 → st ≤ i → i < st + 8 → w.getLsbD i = v.getLsbD i := by
    intro st h h1 h2
    have := congrArg (fun x => BitVec.getLsbD x (i - st)) h
    simp only [BitVec.getLsbD_extractLsb'] at this
    rw [decide_eq_true (by omega), Bool.true_and, Bool.true_and, show st + (i - st) = i by omega] at this
    exact this
  by_cases h3 : 24 ≤ i
  · exact key 24 ho h3 (by omega)
  · by_cases h2 : 16 ≤ i
    · exact key 16 ha h2 (by omega)
    · by_cases h1 : 8 ≤ i
      · exact key 8 hb h1 (by omega)
      · exact key 0 hc (by omega) (by omega)

/-- The four fields of a word joined from four bytes. -/
theorem fields_append (o a b c : BitVec 8) :
    fieldOp (o ++ a ++ b ++ c) = o ∧ fieldA (o ++ a ++ b ++ c) = a ∧ fieldB (o ++ a ++ b ++ c) = b ∧
      fieldC (o ++ a ++ b ++ c) = c := by
  refine ⟨?_, ?_, ?_, ?_⟩
  all_goals
    apply BitVec.eq_of_getLsbD_eq
    intro i hi
    simp only [fieldOp, fieldA, fieldB, fieldC, BitVec.getLsbD_append, BitVec.getLsbD_extractLsb', hi, decide_true, Bool.true_and]
    repeat' split
    all_goals first | omega | exact congrArg (BitVec.getLsbD _) (by omega)

/-- `H` is `B : C` (30_encoding.md R52). -/
theorem fieldH_eq (w : Word) : fieldH w = fieldB w ++ fieldC w := by
  apply BitVec.eq_of_getLsbD_eq
  intro i hi
  simp only [fieldH, fieldB, fieldC, BitVec.getLsbD_append, BitVec.getLsbD_extractLsb', hi, decide_true, Bool.true_and]
  split
  · rename_i h; simp [h]
  · rw [decide_eq_true (by omega), Bool.true_and]; exact congrArg w.getLsbD (by omega)

@[simp] theorem fieldOp_wordRRR (o : BitVec 8) (a b c : RegNum) : fieldOp (wordRRR o a b c) = o := (fields_append ..).1
@[simp] theorem fieldA_wordRRR (o : BitVec 8) (a b c : RegNum) : fieldA (wordRRR o a b c) = fieldOfReg a := (fields_append ..).2.1
@[simp] theorem fieldB_wordRRR (o : BitVec 8) (a b c : RegNum) : fieldB (wordRRR o a b c) = fieldOfReg b := (fields_append ..).2.2.1
@[simp] theorem fieldC_wordRRR (o : BitVec 8) (a b c : RegNum) : fieldC (wordRRR o a b c) = fieldOfReg c := (fields_append ..).2.2.2

@[simp] theorem fieldOp_wordRRI (o : BitVec 8) (a b : RegNum) (k : BitVec 8) : fieldOp (wordRRI o a b k) = o := (fields_append ..).1
@[simp] theorem fieldA_wordRRI (o : BitVec 8) (a b : RegNum) (k : BitVec 8) : fieldA (wordRRI o a b k) = fieldOfReg a :=
  (fields_append ..).2.1
@[simp] theorem fieldB_wordRRI (o : BitVec 8) (a b : RegNum) (k : BitVec 8) : fieldB (wordRRI o a b k) = fieldOfReg b :=
  (fields_append ..).2.2.1
@[simp] theorem fieldC_wordRRI (o : BitVec 8) (a b : RegNum) (k : BitVec 8) : fieldC (wordRRI o a b k) = k := (fields_append ..).2.2.2

/-- A 16-bit constant is its two halves. -/
theorem const16_halves (h : BitVec 16) : h.extractLsb' 8 8 ++ h.extractLsb' 0 8 = h := by
  apply BitVec.eq_of_getLsbD_eq
  intro i hi
  simp only [BitVec.getLsbD_append, BitVec.getLsbD_extractLsb']
  split
  · rename_i h1; simp [h1]
  · rw [decide_eq_true (by omega), Bool.true_and]; exact congrArg h.getLsbD (by omega)

theorem wordRH_eq (o : BitVec 8) (a : RegNum) (h : BitVec 16) :
    wordRH o a h = o ++ fieldOfReg a ++ h.extractLsb' 8 8 ++ h.extractLsb' 0 8 := by
  apply BitVec.eq_of_getLsbD_eq
  intro i hi
  simp only [wordRH, BitVec.getLsbD_append, BitVec.getLsbD_extractLsb']
  repeat' split
  all_goals try omega
  all_goals (try rw [decide_eq_true (by omega), Bool.true_and])
  all_goals exact congrArg (BitVec.getLsbD _) (by omega)

@[simp] theorem fieldOp_wordRH (o : BitVec 8) (a : RegNum) (h : BitVec 16) : fieldOp (wordRH o a h) = o := by
  rw [wordRH_eq]; exact (fields_append ..).1
@[simp] theorem fieldA_wordRH (o : BitVec 8) (a : RegNum) (h : BitVec 16) : fieldA (wordRH o a h) = fieldOfReg a := by
  rw [wordRH_eq]; exact (fields_append ..).2.1
@[simp] theorem fieldH_wordRH (o : BitVec 8) (a : RegNum) (h : BitVec 16) : fieldH (wordRH o a h) = h := by
  rw [fieldH_eq, wordRH_eq, (fields_append ..).2.2.1, (fields_append ..).2.2.2, const16_halves]

@[simp] theorem fieldOp_wordR (o : BitVec 8) (a : RegNum) : fieldOp (wordR o a) = o := (fields_append ..).1
@[simp] theorem fieldA_wordR (o : BitVec 8) (a : RegNum) : fieldA (wordR o a) = fieldOfReg a := (fields_append ..).2.1
@[simp] theorem fieldB_wordR (o : BitVec 8) (a : RegNum) : fieldB (wordR o a) = 0 := (fields_append ..).2.2.1
@[simp] theorem fieldC_wordR (o : BitVec 8) (a : RegNum) : fieldC (wordR o a) = 0 := (fields_append ..).2.2.2

@[simp] theorem fieldOp_wordN (o : BitVec 8) : fieldOp (wordN o) = o := (fields_append ..).1
@[simp] theorem fieldA_wordN (o : BitVec 8) : fieldA (wordN o) = 0 := (fields_append ..).2.1
@[simp] theorem fieldB_wordN (o : BitVec 8) : fieldB (wordN o) = 0 := (fields_append ..).2.2.1
@[simp] theorem fieldC_wordN (o : BitVec 8) : fieldC (wordN o) = 0 := (fields_append ..).2.2.2

/-! ## Register fields -/

@[simp] theorem regOfField_fieldOfReg (r : RegNum) : regOfField (fieldOfReg r) = r := by
  revert r; decide

@[simp] theorem notARegister_fieldOfReg (r : RegNum) : notARegister (fieldOfReg r) = false := by
  revert r; decide

@[simp] theorem fieldOfReg_getElem_zero (r : RegNum) : (fieldOfReg r)[0] = r[0] := by
  revert r; decide

/-- A field that names a register is the field of that register. -/
theorem fieldOfReg_regOfField {f : BitVec 8} (h : notARegister f = false) : fieldOfReg (regOfField f) = f := by
  revert f; decide

/-- The register a field names is odd exactly when the field is. -/
theorem regOfField_isEven (f : BitVec 8) : RegNum.isEven (regOfField f) = !f.getLsbD 0 := by
  revert f; decide

/-! ## The opcode map -/

theorem Mnemonic.mem_all (m : Mnemonic) : m ∈ Mnemonic.all := by cases m <;> decide

theorem Mnemonic.index_injective {m n : Mnemonic} (h : m.index = n.index) : m = n := by
  revert h; cases m <;> cases n <;> first | exact fun _ => rfl | exact fun h => absurd h (by decide)

/-- An injective opcode map gives two mnemonics different numbers. -/
theorem Opcodes.code_injective {opc : Opcodes} (h : Opcodes.injective opc = true) {m n : Mnemonic} (he : opc.code m = opc.code n) :
    m = n := by
  apply Mnemonic.index_injective
  have hn : opc.toList.Nodup := of_decide_eq_true h
  have := (List.nodup_iff_injective_getElem.1 hn)
  have hi : (⟨m.index, by simp⟩ : Fin opc.toList.length) = ⟨n.index, by simp⟩ := this (by
    simpa [Opcodes.code] using he)
  exact Fin.ext (by simpa using hi)

/-- The opcode number of a mnemonic stands for that mnemonic. -/
theorem Opcodes.mnemonic?_code {opc : Opcodes} (h : Opcodes.injective opc = true) (m : Mnemonic) :
    opc.mnemonic? (opc.code m) = some m := by
  unfold Opcodes.mnemonic?
  cases hf : List.find? (fun n => opc.code n == opc.code m) Mnemonic.all with
  | none => exact absurd (List.find?_eq_none.1 hf m m.mem_all) (by simp)
  | some n =>
    have := List.find?_some hf
    simp at this
    rw [Opcodes.code_injective h this]

/-- The mnemonic an opcode number stands for has that number. -/
theorem Opcodes.code_of_mnemonic? {opc : Opcodes} {op : BitVec 8} {m : Mnemonic} (h : opc.mnemonic? op = some m) :
    opc.code m = op := by
  unfold Opcodes.mnemonic? at h
  simpa using List.find?_some h

/-- An opcode number stands for no mnemonic exactly when no mnemonic has it. -/
theorem Opcodes.mnemonic?_none {opc : Opcodes} {op : BitVec 8} : opc.mnemonic? op = none ↔ ∀ m, opc.code m ≠ op := by
  unfold Opcodes.mnemonic?
  rw [List.find?_eq_none]
  exact ⟨fun h m he => h m m.mem_all (by simp [he]), fun h m _ => by simpa using h m⟩

/-- The spec's default opcode numbers differ. -/
theorem defaultOpcodes_injective : Opcodes.injective defaultOpcodes = true := by decide

/-- The default map gives each mnemonic the number of R57's table. -/
@[simp] theorem defaultOpcodes_code (m : Mnemonic) : defaultOpcodes.code m = defaultCode m := by cases m <;> rfl

end Sys2Proof
end

