-- ==== Sys2Proof/Laws/Launch.lean ====
section
/-! SUPPORT. What an admitted launch satisfies, and the memory a launch builds. -/

namespace Sys2Proof.Machine

/-- The conditions of an admitted launch, one field each (70_reset_and_hazards.md R261). -/
structure Admitted (l : Launch) : Prop where
  base : l.textBase.toNat % 4 = 0
  fits : l.textBase.toNat + 4 * l.program.length ≤ 2 ^ 32
  opcodes : Opcodes.injective l.params.opc = true
  program : ∀ i ∈ l.program, i.wf = true
  ranges : ∀ r ∈ l.data, r.lo % 4 = 0 ∧ r.hi % 4 = 0 ∧ r.hi ≤ 2 ^ 32
  clear : ∀ r ∈ l.data, r.hi ≤ r.lo ∨ l.program.length = 0 ∨ r.hi ≤ l.textBase.toNat ∨
    l.textBase.toNat + 4 * l.program.length ≤ r.lo
  contents : ∀ c ∈ l.contents, ∃ r ∈ l.data, r.lo ≤ c.1 ∧ c.1 < r.hi
  entryAligned : l.entry.toNat % 4 = 0
  entryFrom : l.textBase.toNat ≤ l.entry.toNat
  entryBelow : l.entry.toNat < l.textBase.toNat + 4 * l.program.length

theorem admitted_of_wf {l : Launch} (h : l.wf = true) : Admitted l := by
  simp only [Launch.wf, Launch.kept, Launched.wf, Launch.holds, rangeWf, rangeClearOf, Bool.and_eq_true, Bool.or_eq_true,
    decide_eq_true_eq, List.all_eq_true, List.any_eq_true] at h
  obtain ⟨⟨⟨⟨⟨⟨⟨⟨⟨a, b⟩, c⟩, d⟩, e⟩, f⟩, g⟩, i⟩, j⟩, k⟩ := h
  exact ⟨of_decide_eq_true a, of_decide_eq_true b, d, e, fun r hr => ⟨(c r hr).1.1, (c r hr).1.2, (c r hr).2⟩,
    fun r hr => by have := f r hr; tauto, g, i, j, k⟩

/-- Storing contents inside the address space keeps the canonical form. -/
theorem wf_storeCells {m : Memory} {cs : List Host.Cell} (hm : Memory.wf m = true) (hc : ∀ c ∈ cs, c.1 < 2 ^ 32) :
    Memory.wf (storeCells m cs) = true := by
  induction cs generalizing m with
  | nil => exact hm
  | cons c cs ih => exact ih (Memory.wf_writeByte _ hm (hc c (by simp))) (fun d hd => hc d (by simp [hd]))

theorem readByte_storeCells_outside (m : Memory) (cs : List Host.Cell) (a : Nat) (h : a ∉ cs.map Prod.fst) :
    Memory.readByte (storeCells m cs) a = Memory.readByte m a := by
  induction cs generalizing m with
  | nil => rfl
  | cons c cs ih =>
    simp at h
    rw [storeCells, ih _ (by simpa using h.2), Memory.readByte_writeByte, if_neg h.1]

/-- Contents given once for each address read back. -/
theorem readByte_storeCells (m : Memory) (cs : List Host.Cell) (hn : (cs.map Prod.fst).Nodup) (c : Host.Cell) (hc : c ∈ cs) :
    Memory.readByte (storeCells m cs) c.1 = c.2 := by
  induction cs generalizing m with
  | nil => cases hc
  | cons d cs ih =>
    simp only [List.map_cons, List.nodup_cons] at hn
    rcases List.mem_cons.1 hc with rfl | h
    · rw [storeCells, readByte_storeCells_outside _ _ _ hn.1, Memory.readByte_writeByte, if_pos rfl]
    · exact ih _ hn.2 h

theorem textBytes_length (l : Launch) : l.textBytes.length = 4 * l.program.length := by
  unfold Launch.textBytes
  induction l.program with
  | nil => rfl
  | cons i is ih => simp [ih]; omega

/-- The bytes of the `k`-th word of a text. -/
theorem flatMap_bytes_get (o : ByteOrder) (f : Instr → Word) (p : List Instr) (k : Nat) (hk : k < p.length) (j : Nat) (hj : j < 4) :
    (p.flatMap fun i => bytesOfWord o (f i))[4 * k + j]? = (bytesOfWord o (f p[k]))[j]? := by
  induction p generalizing k with
  | nil => simp at hk
  | cons i is ih =>
    rw [List.flatMap_cons]
    cases k with
    | zero => rw [List.getElem?_append_left (by simp; omega)]; simp
    | succ k =>
      rw [List.getElem?_append_right (by simp; omega)]
      simp only [bytesOfWord_length]
      rw [show 4 * (k + 1) + j - 4 = 4 * k + j by omega, ih k (by simpa using hk)]
      simp

end Sys2Proof.Machine
end

