-- ==== Sys2Proof/Laws/PerInstr.lean ====
section
/-! SUPPORT. The statements made per instruction (LAWS.json): the fields of every instruction's word. -/

namespace Sys2Proof.Laws.EncodedFields

/-- What the fields of a word say of a mnemonic: the opcode is its number, no field the format reserves is set, every register
field names a register, and the destination of an "o" operation is even (30_encoding.md R52, R59). -/
def Fields (opc : Opcodes) (m : Mnemonic) (f : Format) (w : Word) : Prop :=
  fieldOp w = opc.code m ∧ reservedFieldSet f w = false ∧ registerNumberBad f w = false ∧ oddPairField m w = false

/-- The word of a well-formed instruction has the fields of its mnemonic and format. -/
def Statement (i : Instr) : Prop :=
  ∀ opc : Opcodes, i.wf = true → Fields opc i.mnemonic i.mnemonic.format (encode opc i)

/-! ## One lemma per format -/

theorem fields_rrr {opc : Opcodes} {m : Mnemonic} {a b c : RegNum} (h : (m.writesPair && a[0]) = false) :
    Fields opc m .rrr (wordRRR (opc.code m) a b c) := by
  refine ⟨by simp, rfl, by simp [registerNumberBad], ?_⟩
  simpa [oddPairField] using h

theorem fields_rri {opc : Opcodes} {m : Mnemonic} {a b : RegNum} {k : BitVec 8} (h : (m.writesPair && a[0]) = false) :
    Fields opc m .rri (wordRRI (opc.code m) a b k) := by
  refine ⟨by simp, rfl, by simp [registerNumberBad], ?_⟩
  simpa [oddPairField] using h

theorem fields_rh {opc : Opcodes} {m : Mnemonic} {a : RegNum} {k : BitVec 16} (h : m.writesPair = false) :
    Fields opc m .rh (wordRH (opc.code m) a k) := by
  refine ⟨by simp, rfl, by simp [registerNumberBad], by simp [oddPairField, h]⟩

theorem fields_r {opc : Opcodes} {m : Mnemonic} {a : RegNum} (h : m.writesPair = false) :
    Fields opc m .r (wordR (opc.code m) a) := by
  refine ⟨by simp, by simp [reservedFieldSet], by simp [registerNumberBad], by simp [oddPairField, h]⟩

theorem fields_n {opc : Opcodes} {m : Mnemonic} (h : m.writesPair = false) : Fields opc m .n (wordN (opc.code m)) := by
  refine ⟨by simp, by simp [reservedFieldSet], rfl, by simp [oddPairField, h]⟩

/-- An even destination in the form the format lemmas ask for. -/
theorem pair_even {a : RegNum} (h : RegNum.isEven a = true) : (true && a[0]) = false := by
  revert a; decide

/-! ## One lemma per instruction -/

theorem lch (rdes : RegNum) (h : BitVec 16) : Statement (.lch rdes h) := fun _ _ => fields_rh rfl
theorem lcl (rdes : RegNum) (h : BitVec 16) : Statement (.lcl rdes h) := fun _ _ => fields_rh rfl
theorem add (rdes : RegNum) (src1 : RegNum) (src2 : RegNum) : Statement (.add rdes src1 src2) := fun _ _ => fields_rrr rfl
theorem sub (rdes : RegNum) (src1 : RegNum) (src2 : RegNum) : Statement (.sub rdes src1 src2) := fun _ _ => fields_rrr rfl
theorem mul (rdes : RegNum) (src1 : RegNum) (src2 : RegNum) : Statement (.mul rdes src1 src2) := fun _ _ => fields_rrr rfl
theorem div (rdes : RegNum) (src1 : RegNum) (src2 : RegNum) : Statement (.div rdes src1 src2) := fun _ _ => fields_rrr rfl
theorem mod (rdes : RegNum) (src1 : RegNum) (src2 : RegNum) : Statement (.mod rdes src1 src2) := fun _ _ => fields_rrr rfl
theorem addo (rdes : RegNum) (src1 : RegNum) (src2 : RegNum) : Statement (.addo rdes src1 src2) := fun _ h => fields_rrr (pair_even h)
theorem subo (rdes : RegNum) (src1 : RegNum) (src2 : RegNum) : Statement (.subo rdes src1 src2) := fun _ h => fields_rrr (pair_even h)
theorem mulo (rdes : RegNum) (src1 : RegNum) (src2 : RegNum) : Statement (.mulo rdes src1 src2) := fun _ h => fields_rrr (pair_even h)
theorem addi (rdes : RegNum) (src1 : RegNum) (k : BitVec 8) : Statement (.addi rdes src1 k) := fun _ _ => fields_rri rfl
theorem subi (rdes : RegNum) (src1 : RegNum) (k : BitVec 8) : Statement (.subi rdes src1 k) := fun _ _ => fields_rri rfl
theorem muli (rdes : RegNum) (src1 : RegNum) (k : BitVec 8) : Statement (.muli rdes src1 k) := fun _ _ => fields_rri rfl
theorem divi (rdes : RegNum) (src1 : RegNum) (k : BitVec 8) : Statement (.divi rdes src1 k) := fun _ _ => fields_rri rfl
theorem modi (rdes : RegNum) (src1 : RegNum) (k : BitVec 8) : Statement (.modi rdes src1 k) := fun _ _ => fields_rri rfl
theorem addio (rdes : RegNum) (src1 : RegNum) (k : BitVec 8) : Statement (.addio rdes src1 k) := fun _ h => fields_rri (pair_even h)
theorem subio (rdes : RegNum) (src1 : RegNum) (k : BitVec 8) : Statement (.subio rdes src1 k) := fun _ h => fields_rri (pair_even h)
theorem mulio (rdes : RegNum) (src1 : RegNum) (k : BitVec 8) : Statement (.mulio rdes src1 k) := fun _ h => fields_rri (pair_even h)
theorem and (rdes : RegNum) (src1 : RegNum) (src2 : RegNum) : Statement (.and rdes src1 src2) := fun _ _ => fields_rrr rfl
theorem nor (rdes : RegNum) (src1 : RegNum) (src2 : RegNum) : Statement (.nor rdes src1 src2) := fun _ _ => fields_rrr rfl
theorem or (rdes : RegNum) (src1 : RegNum) (src2 : RegNum) : Statement (.or rdes src1 src2) := fun _ _ => fields_rrr rfl
theorem xor (rdes : RegNum) (src1 : RegNum) (src2 : RegNum) : Statement (.xor rdes src1 src2) := fun _ _ => fields_rrr rfl
theorem shl (rdes : RegNum) (src1 : RegNum) (src2 : RegNum) : Statement (.shl rdes src1 src2) := fun _ _ => fields_rrr rfl
theorem shr (rdes : RegNum) (src1 : RegNum) (src2 : RegNum) : Statement (.shr rdes src1 src2) := fun _ _ => fields_rrr rfl
theorem shru (rdes : RegNum) (src1 : RegNum) (src2 : RegNum) : Statement (.shru rdes src1 src2) := fun _ _ => fields_rrr rfl
theorem shli (rdes : RegNum) (src1 : RegNum) (k : BitVec 8) : Statement (.shli rdes src1 k) := fun _ _ => fields_rri rfl
theorem shri (rdes : RegNum) (src1 : RegNum) (k : BitVec 8) : Statement (.shri rdes src1 k) := fun _ _ => fields_rri rfl
theorem shrui (rdes : RegNum) (src1 : RegNum) (k : BitVec 8) : Statement (.shrui rdes src1 k) := fun _ _ => fields_rri rfl
theorem st1 (src1 : RegNum) (src2 : RegNum) (k : BitVec 8) : Statement (.st1 src1 src2 k) := fun _ _ => fields_rri rfl
theorem st4 (src1 : RegNum) (src2 : RegNum) (k : BitVec 8) : Statement (.st4 src1 src2 k) := fun _ _ => fields_rri rfl
theorem ld1 (rdes : RegNum) (src1 : RegNum) (k : BitVec 8) : Statement (.ld1 rdes src1 k) := fun _ _ => fields_rri rfl
theorem ld4 (rdes : RegNum) (src1 : RegNum) (k : BitVec 8) : Statement (.ld4 rdes src1 k) := fun _ _ => fields_rri rfl
theorem ex4 (rdes : RegNum) (src1 : RegNum) (k : BitVec 8) : Statement (.ex4 rdes src1 k) := fun _ _ => fields_rri rfl
theorem eq (rdes : RegNum) (src1 : RegNum) (src2 : RegNum) : Statement (.eq rdes src1 src2) := fun _ _ => fields_rrr rfl
theorem ges (rdes : RegNum) (src1 : RegNum) (src2 : RegNum) : Statement (.ges rdes src1 src2) := fun _ _ => fields_rrr rfl
theorem gts (rdes : RegNum) (src1 : RegNum) (src2 : RegNum) : Statement (.gts rdes src1 src2) := fun _ _ => fields_rrr rfl
theorem geu (rdes : RegNum) (src1 : RegNum) (src2 : RegNum) : Statement (.geu rdes src1 src2) := fun _ _ => fields_rrr rfl
theorem gtu (rdes : RegNum) (src1 : RegNum) (src2 : RegNum) : Statement (.gtu rdes src1 src2) := fun _ _ => fields_rrr rfl
theorem jez (rdes : RegNum) (src1 : RegNum) (src2 : RegNum) : Statement (.jez rdes src1 src2) := fun _ _ => fields_rrr rfl
theorem jnz (rdes : RegNum) (src1 : RegNum) (src2 : RegNum) : Statement (.jnz rdes src1 src2) := fun _ _ => fields_rrr rfl
theorem bez (rdes : RegNum) (src1 : RegNum) (src2 : RegNum) : Statement (.bez rdes src1 src2) := fun _ _ => fields_rrr rfl
theorem bnz (rdes : RegNum) (src1 : RegNum) (src2 : RegNum) : Statement (.bnz rdes src1 src2) := fun _ _ => fields_rrr rfl
theorem bezi (src1 : RegNum) (h : BitVec 16) : Statement (.bezi src1 h) := fun _ _ => fields_rh rfl
theorem bnzi (src1 : RegNum) (h : BitVec 16) : Statement (.bnzi src1 h) := fun _ _ => fields_rh rfl
theorem cin (rdes : RegNum) : Statement (.cin rdes) := fun _ _ => fields_r rfl
theorem cout (src1 : RegNum) : Statement (.cout src1) := fun _ _ => fields_r rfl
theorem halt : Statement (.halt) := fun _ _ => fields_n rfl

end Sys2Proof.Laws.EncodedFields
end

