-- ==== Sys2Proof/Laws/Runs.lean ====
section
/-! SUPPORT. What the fetch, a step and a run can answer, said once. -/

namespace Sys2Proof.Machine

/-! ## Fetch and step -/

theorem inText_iff (s : State) (a : Nat) :
    s.inText a = true ↔ s.launch.textBase.toNat ≤ a ∧ a < s.launch.textBase.toNat + 4 * s.launch.textLen := by
  simp [State.inText]

/-- A fetch reads a word exactly where `pc` is a multiple of 4 inside the text, and it is the word there. -/
theorem fetch_word {s : State} {w : Word} :
    fetch s = .word w ↔ s.pc.toNat % 4 = 0 ∧ s.inText s.pc.toNat = true ∧ w = s.loadWord s.pc := by
  unfold fetch
  by_cases h1 : s.pc.toNat % 4 = 0 <;> by_cases h2 : s.inText s.pc.toNat = true <;> simp [h1, h2, eq_comm]

/-- A running machine whose fetch faults takes that fault. -/
theorem step_of_fetch_fault {s : State} {f : FaultReason} (hs : s.status = .running) (hf : fetch s = .fault f) :
    step s = raise f s := by
  unfold step; simp only [hs, hf]

/-- A running machine whose fetch reads a word decodes it and executes it. -/
theorem step_of_fetch_word {s : State} {w : Word} (hs : s.status = .running) (hf : fetch s = .word w) :
    step s = match decode s.launch.params.opc w with
      | .illegal why => raise (.illegalInstruction w why) s
      | .legal i => exec i s := by
  cases hd : decode s.launch.params.opc w <;> simp only [step, hs, hf, hd]

/-- An instruction gives a next state, except `cin` on empty input (60_exceptions.md R233). -/
theorem exec_next_or_stuck (i : Instr) (s : State) :
    (∃ t, exec i s = .next t) ∨ (exec i s = .fault .stuckOnConsoleInput ∧ s.cinQ = [] ∧ ∃ r, i = .cin r) := by
  have hdiv : ∀ r d, ∃ t, writeDivResult r d s = .next t := by intro r d; cases d <;> exact ⟨_, rfl⟩
  have hpair : ∀ r i a b, ∃ t, ifEvenPair r i s (writePair r a b s) = .next t := by
    intro r i a b; unfold ifEvenPair; split <;> exact ⟨_, rfl⟩
  have hno : ∀ f t, ∃ t', ifNoFault f s (.next t) = .next t' := by intro f t; cases f <;> exact ⟨_, rfl⟩
  cases i
  case cin r =>
    cases hq : s.cinQ with
    | nil => right; exact ⟨by simp [exec, execCin, hq], rfl, r, rfl⟩
    | cons b rest => left; exact ⟨_, by simp [exec, execCin, hq]; rfl⟩
  all_goals left
  all_goals first
    | exact ⟨_, rfl⟩
    | exact hdiv _ _
    | exact hpair _ _ _ _
    | exact hno _ _

/-- An instruction keeps the status, faults or halts. -/
theorem Effect.status {s t : State} (h : Effect s t) :
    t.status = s.status ∨ (∃ f, t = s.setStatus (.faulted f)) ∨ t = s.setStatus .halted := by
  cases h
  case fault f => exact .inr (.inl ⟨f, rfl⟩)
  all_goals simp [State.storeByte, State.storeWord]

/-! ## Runs -/

theorem runsTo_zero {s t : State} : RunsTo 0 s t ↔ t = s := by
  show (Host.Outcome.next s : Host.Outcome State Fault Refusal) = .next t ↔ _
  constructor
  · intro h; cases h; rfl
  · rintro rfl; rfl

theorem run_succ_next (m : Host.Core) (k : Nat) (s u : m.State) (h : m.step s = .next u) : m.run (k + 1) s = m.run k u := by
  simp only [Host.Core.run, h]

theorem run_succ_fault (m : Host.Core) (k : Nat) (s : m.State) (r : m.Fault) (h : m.step s = .fault r) :
    m.run (k + 1) s = .fault r := by
  simp only [Host.Core.run, h]

theorem run_succ_refused (m : Host.Core) (k : Nat) (s : m.State) (r : m.Refusal) (h : m.step s = .refused r) :
    m.run (k + 1) s = .refused r := by
  simp only [Host.Core.run, h]

/-- A run of one step more is a step and then the run. -/
theorem runsTo_succ {k : Nat} {s t : State} : RunsTo (k + 1) s t ↔ ∃ u, step s = .next u ∧ RunsTo k u t := by
  unfold RunsTo
  cases hs : step s with
  | next u =>
    have := run_succ_next core k s u hs
    constructor
    · intro h; exact ⟨u, rfl, this ▸ h⟩
    · rintro ⟨v, hv, h⟩; cases hv; exact this.trans h
  | fault r =>
    have := run_succ_fault core k s r hs
    constructor
    · intro h; rw [this] at h; cases h
    · rintro ⟨v, hv, h⟩; cases hv
  | refused r =>
    have := run_succ_refused core k s r hs
    constructor
    · intro h; rw [this] at h; cases h
    · rintro ⟨v, hv, h⟩; cases hv

/-- What every step keeps, every run keeps. -/
theorem runsTo_induction {P : State → Prop} (hstep : ∀ s t, P s → step s = .next t → P t) {k : Nat} {s t : State} (hs : P s)
    (h : RunsTo k s t) : P t := by
  induction k generalizing s with
  | zero => rw [runsTo_zero.1 h]; exact hs
  | succ k ih =>
    obtain ⟨u, hu, h⟩ := runsTo_succ.1 h
    exact ih (hstep s u hs hu) h

end Sys2Proof.Machine
end

