-- ==== Sys2Proof/Tests/Slice0.lean ====
section
/-! SUPPORT. The model's own tests. Every expected value is one of spec/95_test_vectors.md (the vector group named above each
block) or of the table of spec/30_encoding.md R57; every word is written out from the layout of R52. At the end, one theorem for
each statement with hypotheses shows that something meets them. -/

namespace Sys2Proof.Machine.Tests

open Sys2Proof Sys2Proof.Machine

/-! ## Well-formedness: each ill-formed term is refused, and a term beside it is not -/

theorem test_wf_addo_odd : Instr.wf (.addo 5 6 7) = false ∧ Instr.wf (.addo 4 6 7) = true := by decide
theorem test_wf_subo_odd : Instr.wf (.subo 63 6 7) = false ∧ Instr.wf (.subo 62 6 7) = true := by decide
theorem test_wf_mulo_odd : Instr.wf (.mulo 1 6 7) = false ∧ Instr.wf (.mulo 0 6 7) = true := by decide
theorem test_wf_addio_odd : Instr.wf (.addio 5 6 1) = false ∧ Instr.wf (.addio 4 6 1) = true := by decide
theorem test_wf_subio_odd : Instr.wf (.subio 5 6 1) = false ∧ Instr.wf (.subio 4 6 1) = true := by decide
theorem test_wf_mulio_odd : Instr.wf (.mulio 5 6 4) = false ∧ Instr.wf (.mulio 4 6 4) = true := by decide

/-! ## Decoding: a word of every row -/

theorem test_decode_constants :
    decode defaultOpcodes 0x11045678 = .legal (.lcl 4 0x5678) ∧ decode defaultOpcodes 0x10041234 = .legal (.lch 4 0x1234) := by decide

theorem test_decode_arithmetic :
    decode defaultOpcodes 0x20040506 = .legal (.add 4 5 6) ∧ decode defaultOpcodes 0x21040506 = .legal (.sub 4 5 6) ∧
    decode defaultOpcodes 0x22040506 = .legal (.mul 4 5 6) ∧ decode defaultOpcodes 0x23040506 = .legal (.div 4 5 6) ∧
    decode defaultOpcodes 0x24040506 = .legal (.mod 4 5 6) := by decide

theorem test_decode_arithmetic_immediate :
    decode defaultOpcodes 0x3004057F = .legal (.addi 4 5 127) ∧ decode defaultOpcodes 0x310405FF = .legal (.subi 4 5 0xFF) ∧
    decode defaultOpcodes 0x32040507 = .legal (.muli 4 5 7) ∧ decode defaultOpcodes 0x33040507 = .legal (.divi 4 5 7) ∧
    decode defaultOpcodes 0x34040507 = .legal (.modi 4 5 7) := by decide

theorem test_decode_overflow_pairs :
    decode defaultOpcodes 0x28040607 = .legal (.addo 4 6 7) ∧ decode defaultOpcodes 0x29040607 = .legal (.subo 4 6 7) ∧
    decode defaultOpcodes 0x2A040607 = .legal (.mulo 4 6 7) ∧ decode defaultOpcodes 0x380406FF = .legal (.addio 4 6 0xFF) ∧
    decode defaultOpcodes 0x39040601 = .legal (.subio 4 6 1) ∧ decode defaultOpcodes 0x3A040604 = .legal (.mulio 4 6 4) := by decide

theorem test_decode_logical :
    decode defaultOpcodes 0x40040506 = .legal (.and 4 5 6) ∧ decode defaultOpcodes 0x41040506 = .legal (.nor 4 5 6) ∧
    decode defaultOpcodes 0x42040506 = .legal (.or 4 5 6) ∧ decode defaultOpcodes 0x43040506 = .legal (.xor 4 5 6) := by decide

theorem test_decode_shifts :
    decode defaultOpcodes 0x50040506 = .legal (.shl 4 5 6) ∧ decode defaultOpcodes 0x51040506 = .legal (.shr 4 5 6) ∧
    decode defaultOpcodes 0x52040506 = .legal (.shru 4 5 6) ∧ decode defaultOpcodes 0x58040502 = .legal (.shli 4 5 2) ∧
    decode defaultOpcodes 0x59040501 = .legal (.shri 4 5 1) ∧ decode defaultOpcodes 0x5A04051F = .legal (.shrui 4 5 31) := by decide

theorem test_decode_memory :
    decode defaultOpcodes 0x60040503 = .legal (.st1 4 5 3) ∧ decode defaultOpcodes 0x61040504 = .legal (.st4 4 5 4) ∧
    decode defaultOpcodes 0x62040502 = .legal (.ld1 4 5 2) ∧ decode defaultOpcodes 0x63040504 = .legal (.ld4 4 5 4) ∧
    decode defaultOpcodes 0x64040500 = .legal (.ex4 4 5 0) := by decide

theorem test_decode_comparisons :
    decode defaultOpcodes 0x70040506 = .legal (.eq 4 5 6) ∧ decode defaultOpcodes 0x71040506 = .legal (.ges 4 5 6) ∧
    decode defaultOpcodes 0x72040506 = .legal (.gts 4 5 6) ∧ decode defaultOpcodes 0x73040506 = .legal (.geu 4 5 6) ∧
    decode defaultOpcodes 0x74040506 = .legal (.gtu 4 5 6) := by decide

theorem test_decode_jumps_branches :
    decode defaultOpcodes 0x80040506 = .legal (.jez 4 5 6) ∧ decode defaultOpcodes 0x81040506 = .legal (.jnz 4 5 6) ∧
    decode defaultOpcodes 0x82040506 = .legal (.bez 4 5 6) ∧ decode defaultOpcodes 0x83040506 = .legal (.bnz 4 5 6) ∧
    decode defaultOpcodes 0x84050003 = .legal (.bezi 5 3) ∧ decode defaultOpcodes 0x8505FFFD = .legal (.bnzi 5 0xFFFD) := by decide

theorem test_decode_console_halt :
    decode defaultOpcodes 0x90040000 = .legal (.cin 4) ∧ decode defaultOpcodes 0x91040000 = .legal (.cout 4) ∧
    decode defaultOpcodes 0xA0000000 = .legal (.halt) := by decide

/-- V11: the illegal words, in the order of the checks of R59. -/
theorem test_decode_illegal :
    decode defaultOpcodes 0x00000000 = .illegal .undefinedOpcode ∧
    decode defaultOpcodes 0xFFFFFFFF = .illegal .undefinedOpcode ∧
    decode defaultOpcodes 0x25040506 = .illegal .undefinedOpcode ∧
    decode defaultOpcodes 0xA0000001 = .illegal .reservedField ∧
    decode defaultOpcodes 0x91040100 = .illegal .reservedField ∧
    decode defaultOpcodes 0x90040001 = .illegal .reservedField ∧
    decode defaultOpcodes 0x20400506 = .illegal .registerNumber ∧
    decode defaultOpcodes 0x20040580 = .illegal .registerNumber ∧
    decode defaultOpcodes 0x30044001 = .illegal .registerNumber ∧
    decode defaultOpcodes 0x11FF0001 = .illegal .registerNumber ∧ decode defaultOpcodes 0x28050607 = .illegal .oddPair ∧
    decode defaultOpcodes 0x39050601 = .illegal .oddPair ∧ decode defaultOpcodes 0x28410607 = .illegal .registerNumber := by decide

/-- The host's numbering: bit 0 is the least significant bit of the one word. -/
theorem test_decode_table_word : decodeTableWord 32 0x20040500 = some (.add 4 5 0) ∧ decodeTableWord 32 0 = none := by decide

/-! ## One step -/

/-- A small machine: the word `w` alone in the text at 0x100, data from 0x1000 to 0x100F, the registers given. -/
def small (w : Word) (regs : List (RegNum × Word)) : State :=
  let s : State :=
    { regs := launchRegisters
      pc := 0x100
      mem := Memory.writeBytes [] 0x100 (bytesOfWord .big w)
      cinQ := [0x41, 0x0A]
      coutQ := []
      status := .running
      launch := ⟨defaultParams, 0x100, 1, [⟨0x1000, 0x1010⟩]⟩ }
  regs.foldl (fun t p => t.setReg p.1 p.2) s

/-- The small machine with bytes in its memory. -/
def withBytes (s : State) (a : Nat) (bs : List Byte) : State := s.setMem (Memory.writeBytes s.mem a bs)

/-- One register and `pc` after a step that does not fault. -/
def regAfter (s : State) (r : RegNum) : Option (Word × Word) :=
  match step s with
  | .next t => if t.status = .running then some (t.reg r, t.pc) else none
  | _ => none

/-- The status and `pc` after a step. -/
def statusAfter (s : State) : Option (Status × Word) :=
  match step s with
  | .next t => some (t.status, t.pc)
  | _ => none

/-- Some bytes after a step. -/
def bytesAfter (s : State) (as : List Nat) : Option (List Byte) :=
  match step s with
  | .next t => some (as.map t.byteAt)
  | _ => none

/-- Both console lists after a step. -/
def consoleAfter (s : State) : Option (List Byte × List Byte) :=
  match step s with
  | .next t => some (t.cinQ, t.coutQ)
  | _ => none


/-! V1 -/

theorem test_lcl_negative : regAfter (small 0x11048765 []) 4 = some (0xFFFF8765, 0x104) := by decide
theorem test_lch_keeps_low : regAfter (small 0x10040001 [(4, 0xFFFF8765)]) 4 = some (0x00018765, 0x104) := by decide
theorem test_lch_zero_register : regAfter (small 0x10001234 []) 0 = some (0, 0x104) := by decide

/-! V2 -/

theorem test_add_wraps : regAfter (small 0x20040506 [(5, 0xFFFFFFFF), (6, 1)]) 4 = some (0, 0x104) := by decide
theorem test_add_same_register : regAfter (small 0x20040404 [(4, 0x40000001)]) 4 = some (0x80000002, 0x104) := by decide
theorem test_addi_negative : regAfter (small 0x30040580 [(5, 0)]) 4 = some (0xFFFFFF80, 0x104) := by decide
theorem test_sub_order : regAfter (small 0x21040506 [(5, 5), (6, 7)]) 4 = some (0xFFFFFFFE, 0x104) := by decide
theorem test_subi_negative : regAfter (small 0x310405FF [(5, 0xA)]) 4 = some (0xB, 0x104) := by decide
theorem test_mul_low_word : regAfter (small 0x22040506 [(5, 0x000186A0), (6, 0x000186A0)]) 4 = some (0x540BE400, 0x104) := by decide
theorem test_muli_negative : regAfter (small 0x320405FF [(5, 6)]) 4 = some (0xFFFFFFFA, 0x104) := by decide

/-! V3 -/

theorem test_div_truncates : regAfter (small 0x23040506 [(5, 0xFFFFFFF9), (6, 2)]) 4 = some (0xFFFFFFFD, 0x104) := by decide
theorem test_div_zero_register : statusAfter (small 0x23000506 [(5, 5), (6, 0)]) = some (.faulted (.divideByZero), 0x100) := by decide
theorem test_mod_sign : regAfter (small 0x24040506 [(5, 7), (6, 0xFFFFFFFE)]) 4 = some (1, 0x104) := by decide
theorem test_mod_overflow : statusAfter (small 0x24040506 [(5, 0x80000000), (6, 0xFFFFFFFF)]) = some (.faulted (.divideOverflow), 0x100) := by decide
theorem test_divi_agreed : regAfter (small 0x33040507 [(5, 0x64)]) 4 = some (0xE, 0x104) := by decide
theorem test_divi_overflow : statusAfter (small 0x330405FF [(5, 0x80000000)]) = some (.faulted (.divideOverflow), 0x100) := by decide
theorem test_modi_negative : regAfter (small 0x340405FE [(5, 0xFFFFFFF9)]) 4 = some (0xFFFFFFFF, 0x104) := by decide
theorem test_modi_zero : statusAfter (small 0x34040500 [(5, 5)]) = some (.faulted (.divideByZero), 0x100) := by decide

/-! V4 -/

theorem test_addo_high :
    regAfter (small 0x28040607 [(6, 0x80000000), (7, 0xFFFFFFFF)]) 4 = some (0x7FFFFFFF, 0x104) ∧
      regAfter (small 0x28040607 [(6, 0x80000000), (7, 0xFFFFFFFF)]) 5 = some (0xFFFFFFFF, 0x104) := by decide
theorem test_addo_zero_register :
    regAfter (small 0x28000607 [(6, 0x80000000), (7, 0x80000000)]) 0 = some (0, 0x104) ∧
      regAfter (small 0x28000607 [(6, 0x80000000), (7, 0x80000000)]) 1 = some (0xFFFFFFFF, 0x104) := by decide
theorem test_addio_high :
    regAfter (small 0x38040601 [(6, 0x7FFFFFFF)]) 4 = some (0x80000000, 0x104) ∧
      regAfter (small 0x38040601 [(6, 0x7FFFFFFF)]) 5 = some (0, 0x104) := by decide
theorem test_subo_high :
    regAfter (small 0x29040607 [(6, 0), (7, 0x80000000)]) 4 = some (0x80000000, 0x104) ∧
      regAfter (small 0x29040607 [(6, 0), (7, 0x80000000)]) 5 = some (0, 0x104) := by decide
theorem test_subio_high :
    regAfter (small 0x39040601 [(6, 0x80000000)]) 4 = some (0x7FFFFFFF, 0x104) ∧
      regAfter (small 0x39040601 [(6, 0x80000000)]) 5 = some (0xFFFFFFFF, 0x104) := by decide
theorem test_mulo_high :
    regAfter (small 0x2A040607 [(6, 0xFFFFFFFE), (7, 3)]) 4 = some (0xFFFFFFFA, 0x104) ∧
      regAfter (small 0x2A040607 [(6, 0xFFFFFFFE), (7, 3)]) 5 = some (0xFFFFFFFF, 0x104) := by decide
theorem test_mulio_high :
    regAfter (small 0x3A040604 [(6, 0x40000000)]) 4 = some (0, 0x104) ∧
      regAfter (small 0x3A040604 [(6, 0x40000000)]) 5 = some (1, 0x104) := by decide
theorem test_addo_odd : statusAfter (small 0x28050607 [(6, 1), (7, 2)]) = some (.faulted (.illegalInstruction 0x28050607 .oddPair), 0x100) := by decide

/-! V5 -/

theorem test_and_table : regAfter (small 0x40040506 [(5, 0xF0F0F0F0), (6, 0x0FF00FF0)]) 4 = some (0x00F000F0, 0x104) := by decide
theorem test_nor_table : regAfter (small 0x41040506 [(5, 0xF0F0F0F0), (6, 0x0FF00FF0)]) 4 = some (0x000F000F, 0x104) := by decide
theorem test_or_table : regAfter (small 0x42040506 [(5, 0xF0F0F0F0), (6, 0x0FF00FF0)]) 4 = some (0xFFF0FFF0, 0x104) := by decide
theorem test_xor_table : regAfter (small 0x43040506 [(5, 0xF0F0F0F0), (6, 0x0FF00FF0)]) 4 = some (0xFF00FF00, 0x104) := by decide

/-! V6 -/

theorem test_shl_width : regAfter (small 0x50040506 [(5, 0x80000001), (6, 0x20)]) 4 = some (0, 0x104) := by decide
theorem test_shr_last : regAfter (small 0x51040506 [(5, 0x7FFFFFFF), (6, 0x1E)]) 4 = some (1, 0x104) := by decide
theorem test_shr_width : regAfter (small 0x51040506 [(5, 0x80000010), (6, 0x20)]) 4 = some (0xFFFFFFFF, 0x104) := by decide
theorem test_shru_last : regAfter (small 0x52040506 [(5, 0x80000010), (6, 0x1F)]) 4 = some (1, 0x104) := by decide
theorem test_shli_last : regAfter (small 0x5804051F [(5, 3)]) 4 = some (0x80000000, 0x104) := by decide
theorem test_shri_sign : regAfter (small 0x59040501 [(5, 0xFFFFFFF9)]) 4 = some (0xFFFFFFFC, 0x104) := by decide
theorem test_shrui_zeros : regAfter (small 0x5A040501 [(5, 0xFFFFFFF9)]) 4 = some (0x7FFFFFFC, 0x104) := by decide

/-! V7 -/

theorem test_st1_low_byte : bytesAfter (small 0x60040503 [(4, 0x12345678), (5, 0x1000)]) [0x1003] = some [0x78] := by decide
theorem test_st1_past_end : statusAfter (small 0x60040510 [(4, 1), (5, 0x1000)]) = some (.faulted (.busFault 0x1010), 0x100) := by
  decide
theorem test_st4_big : bytesAfter (small 0x61040504 [(4, 0x12345678), (5, 0x1000)]) [0x1004, 0x1005, 0x1006, 0x1007] =
    some [0x12, 0x34, 0x56, 0x78] := by decide
theorem test_st4_text : statusAfter (small 0x61040500 [(4, 1), (5, 0x100)]) = some (.faulted (.textWriteFault 0x100), 0x100) := by
  decide
theorem test_ld1_sign : regAfter (withBytes (small 0x62040502 [(5, 0x1000)]) 0x1002 [0x9C]) 4 = some (0xFFFFFF9C, 0x104) := by decide
theorem test_ld1_below : statusAfter (small 0x620405FF [(5, 0x1000)]) = some (.faulted (.busFault 0xFFF), 0x100) := by decide
theorem test_ld4_big :
    regAfter (withBytes (small 0x63040504 [(5, 0x1000)]) 0x1004 [0x12, 0x34, 0x56, 0x78]) 4 = some (0x12345678, 0x104) := by decide
theorem test_ld4_wraps_to_zero : statusAfter (small 0x63040501 [(5, 0xFFFFFFFF)]) = some (.faulted (.busFault 0), 0x100) := by
  decide
theorem test_ex4_same_register :
    regAfter (withBytes (small 0x64040400 [(4, 0x1008)]) 0x1008 [0, 0, 0, 7]) 4 = some (7, 0x104) ∧
      bytesAfter (withBytes (small 0x64040400 [(4, 0x1008)]) 0x1008 [0, 0, 0, 7]) [0x100A, 0x100B] = some [0x10, 0x08] := by decide
theorem test_ex4_zero_register :
    bytesAfter (withBytes (small 0x64000500 [(5, 0x1000)]) 0x1000 [0x55, 0x55, 0x55, 0x55]) [0x1000, 0x1003] = some [0, 0] := by
  decide

/-! V8 -/

theorem test_eq_equal : regAfter (small 0x70040506 [(5, 5), (6, 5)]) 4 = some (1, 0x104) := by decide
theorem test_eq_different : regAfter (small 0x70040506 [(5, 0x80000000), (6, 0x7FFFFFFF)]) 4 = some (0, 0x104) := by decide
theorem test_ges_signed : regAfter (small 0x71040506 [(5, 0xFFFFFFFF), (6, 1)]) 4 = some (0, 0x104) := by decide
theorem test_ges_equal : regAfter (small 0x71040506 [(5, 5), (6, 5)]) 4 = some (1, 0x104) := by decide
theorem test_gts_signed : regAfter (small 0x72040506 [(5, 1), (6, 0xFFFFFFFF)]) 4 = some (1, 0x104) := by decide
theorem test_gts_equal : regAfter (small 0x72040506 [(5, 5), (6, 5)]) 4 = some (0, 0x104) := by decide
theorem test_geu_unsigned : regAfter (small 0x73040506 [(5, 0xFFFFFFFF), (6, 1)]) 4 = some (1, 0x104) := by decide
theorem test_geu_equal : regAfter (small 0x73040506 [(5, 5), (6, 5)]) 4 = some (1, 0x104) := by decide
theorem test_gtu_unsigned : regAfter (small 0x74040506 [(5, 1), (6, 0xFFFFFFFF)]) 4 = some (0, 0x104) := by decide
theorem test_gtu_equal : regAfter (small 0x74040506 [(5, 5), (6, 5)]) 4 = some (0, 0x104) := by decide

/-! V9 -/

theorem test_jez_same_register : regAfter (small 0x80060006 [(6, 0x180)]) 6 = some (0x100, 0x180) := by decide
theorem test_jez_not_taken : regAfter (small 0x80040506 [(5, 1), (6, 0x180)]) 4 = some (0x100, 0x104) := by decide
theorem test_jnz_taken : regAfter (small 0x81040506 [(5, 0x80000000), (6, 0x180)]) 4 = some (0x100, 0x180) := by decide
theorem test_bez_taken : regAfter (small 0x82040506 [(5, 0), (6, 0x20)]) 4 = some (0x100, 0x120) := by decide
theorem test_bnz_not_taken : regAfter (small 0x83040506 [(5, 0), (6, 0x20)]) 4 = some (0x100, 0x104) := by decide
theorem test_bezi_far_back : regAfter (small 0x84058000 [(5, 0)]) 5 = some (0, 0xFFFE0100) := by decide
theorem test_bezi_far : regAfter (small 0x84057FFF [(5, 0)]) 5 = some (0, 0x200FC) := by decide
theorem test_bnzi_zero : regAfter (small 0x85000005 []) 0 = some (0, 0x104) := by decide

/-! V10 -/

theorem test_cin_first_byte : regAfter (small 0x90040000 []) 4 = some (0x41, 0x104) ∧
    consoleAfter (small 0x90040000 []) = some ([0x0A], []) := by decide
theorem test_cin_empty_is_stuck : attempt ((small 0x90040000 []).setCin []) = .stuck := by decide
theorem test_cout_low_byte : consoleAfter (small 0x91040000 [(4, 0x141)]) = some ([0x41, 0x0A], [0x41]) := by decide
theorem test_cout_zero_register : consoleAfter (small 0x91000000 []) = some ([0x41, 0x0A], [0]) := by decide
theorem test_halt : statusAfter (small 0xA0000000 []) = some (.halted, 0x100) := by decide

/-! V11, fetch faults -/

theorem test_fetch_misaligned : statusAfter ((small 0x11040001 []).setPc 0x102) =
    some (.faulted (.fetchFault 0x102 .misaligned), 0x102) := by decide
theorem test_fetch_outside : statusAfter ((small 0x11040001 []).setPc 0x104) =
    some (.faulted (.fetchFault 0x104 .outsideText), 0x104) := by decide

/-- The host's first instruction after reset. -/
theorem test_with_fetch_word : regAfter (State.reset.withFetchWord 32 0x11048765) 4 = some (0xFFFF8765, 0x104) := by decide

/-! ## The assembler -/

/-- E1 of Part 1, the source's own listing. -/
theorem test_source_example_mov :
    assembleText defaultParams 0x100 [] "  # copy the contents of g1 into g0\n  mov g0, g1".toList = .ok [.add 4 5 0] ∧
      assembleText defaultParams 0x100 [] "add g0, g1, ze".toList = .ok [.add 4 5 0] := by decide

/-- E2 of Part 1, the source's own listing. -/
theorem test_source_example_lc :
    assembleText defaultParams 0x100 [] "lc g0, 0x12345678".toList = .ok [.lcl 4 0x5678, .lch 4 0x1234] ∧
      assembleText defaultParams 0x100 [] "lcl g0, 0x5678\nlch g0, 0x1234".toList = .ok [.lcl 4 0x5678, .lch 4 0x1234] := by decide

/-- P2 of Part 4, from its source text: labels, a data label, `lc` and `b`. -/
theorem test_source_program : assembleText defaultParams 0x100 [("str".toList, 0x1000)]
    "lc g1, str\nloop: ld1 g0, g1, 0\nbezi g0, done\ncout g0\naddi g1, g1, 1\nb loop\ndone: halt".toList =
    .ok [.lcl 5 0x1000, .lch 5 0, .ld1 4 5 0, .bezi 4 4, .cout 4, .addi 5 5 1, .bezi 0 0xFFFC, .halt] := by decide

/-- Part 3: a form through the scratch register, by a literal that one `lcl` loads, a label, and a literal that takes two. -/
theorem test_synthetic_forms :
    assembleText defaultParams 0x100 [] "addi g0, g1, 1000".toList = .ok [.lcl 60 0x3E8, .add 4 5 60] ∧
      assembleText defaultParams 0x100 [("f".toList, 0x180)] "jezi ra, g1, f".toList =
        .ok [.lcl 60 0x180, .lch 60 0, .jez 1 5 60] ∧
      assembleText defaultParams 0x100 [] "ori g0, g1, 0x8000".toList = .ok [.lcl 60 0x8000, .lch 60 0, .or 4 5 60] ∧
      assembleText defaultParams 0x100 [] "b 0x120".toList = .ok [.bezi 0 8] := by decide

/-- Part 3: `push sp` stores the stack pointer already moved. -/
theorem test_synthetic_push_pop :
    assembleText defaultParams 0x100 [] "push sp\npop g1".toList = .ok [.subi 2 2 4, .st4 2 2 0, .ld4 5 2 0, .addi 2 2 4] ∧
      assembleText defaultParams 0x100 [] "pop sp".toList = .refused .popStackPointer := by decide

/-! ## Witnesses: something meets the hypotheses of each statement -/

/-- The small machine under other open parameters. -/
def under (p : Params) (s : State) : State := { s with launch := { s.launch with params := p } }

/-- Every open parameter away from its default. -/
def otherParams : Params where
  byteOrder := .little
  imm8Ext := .zero
  div := .other
  mod := .other
  ovfAdd := .other
  ovfSub := .other
  ovfMul := .other
  shiftBig := .other
  opc := defaultOpcodes

/-- A launch with two instructions, data, contents and input. -/
def smallLaunch : Launch where
  params := defaultParams
  textBase := 0x100
  program := [.lcl 4 5, .halt]
  data := [⟨0x1000, 0x1010⟩]
  contents := [(0x1000, 0x48), (0x100F, 0x21)]
  entry := 0x100
  input := [0x41]
  registers := launchRegisters

theorem test_witness_EncodeThenDecode :
    Opcodes.injective defaultOpcodes = true ∧ Instr.wf (.addo 62 63 63) = true ∧ Instr.wf (.bnzi 63 0x8000) = true := by decide

theorem test_witness_EveryWordIsOneInstructionOrIllegal :
    Opcodes.injective defaultOpcodes = true ∧ decode defaultOpcodes 0x203F3F3F = .legal (.add 63 63 63) ∧
      decode defaultOpcodes 0x203F3F40 = .illegal .registerNumber := by decide

theorem test_witness_DefaultDecodingFollowsOpcodeTable :
    (⟨.addo, 0x28000000, 0xFFC1C0C0⟩ : OpcodeRow) ∈ opcodeRows ∧ (0x283E3F3F : Word) &&& 0xFFC1C0C0 = 0x28000000 ∧
      (0x283F3F3F : Word) &&& 0xFFC1C0C0 ≠ 0x28000000 := by decide

theorem test_witness_IllegalWordsAreRejectedInOrder :
    let fetched : Word → Prop := fun w => (small w []).status = .running ∧ fetch (small w []) = .word w ∧
      Opcodes.injective (small w []).launch.params.opc = true
    fetched 0x25040506 ∧ fetched 0xA0000001 ∧ fetched 0x28410607 ∧ fetched 0x28050607 ∧ fetched 0x28040607 ∧
      defaultOpcodes.code .halt = fieldOp 0xA0000001 ∧ defaultOpcodes.code .addo = fieldOp 0x28410607 ∧
      expand defaultParams [] 0 ⟨.native .addo, [.reg 4, .reg 6, .reg 7]⟩ = .ok [.addo 4 6 7] := by decide

/-- No mnemonic has the opcode 0x25. -/
theorem test_witness_undefined_opcode : ∀ m, (small 0x25040506 []).launch.params.opc.code m ≠ fieldOp 0x25040506 := by
  intro m; cases m <;> decide

/-- A well-formed instruction in the text after reset, and the entry it stands at. -/
theorem test_witness_ResetStateIsAsSpecified : (Instr.addo 62 63 63).wf = true ∧ State.reset.inText 0x103 = true := by decide

theorem test_witness_AdmittedLaunchGivesLaunchState :
    smallLaunch.wf = true ∧ (smallLaunch.contents.map Prod.fst).Nodup ∧ (0x100F, 0x21) ∈ smallLaunch.contents := by decide

/-- An entry at the end of the text, one between two instructions, a text that starts on an odd address, and data over the last
word of the text: each breaks one condition of R261; data that begins where the text ends breaks none. -/
theorem test_witness_MalformedLaunchIsRefused :
    ¬({ smallLaunch with entry := 0x108 }.entry.toNat <
        { smallLaunch with entry := 0x108 }.textBase.toNat + 4 * { smallLaunch with entry := 0x108 }.program.length) ∧
      launch { smallLaunch with entry := 0x108 } = .refused .malformedLaunch ∧
      launch { smallLaunch with entry := 0x102 } = .refused .malformedLaunch ∧
      launch { smallLaunch with textBase := 0x101 } = .refused .malformedLaunch ∧
      launch { smallLaunch with data := [⟨0x104, 0x1010⟩] } = .refused .malformedLaunch ∧
      { smallLaunch with data := [⟨0x108, 0x1010⟩] }.wf = true :=
  ⟨by decide, rfl, rfl, rfl, rfl, by decide⟩

theorem test_witness_StepRunsDecodedInstruction :
    let s := small 0x20040506 []
    s.status = .running ∧ s.pc.toNat % 4 = 0 ∧ s.inText s.pc.toNat = true ∧
      decodeBytes s.launch.params.byteOrder s.launch.params.opc (s.byteAt s.pc.toNat) (s.byteAt (s.pc.toNat + 1))
        (s.byteAt (s.pc.toNat + 2)) (s.byteAt (s.pc.toNat + 3)) = .legal (.add 4 5 6) := by decide

theorem test_witness_FetchChecksThenReadsTheWord :
    let s := small 0x20040506 []
    s.status = .running ∧ (s.setPc 0x103).pc.toNat % 4 ≠ 0 ∧ (s.setPc 0x104).pc.toNat % 4 = 0 ∧
      ¬(s.setPc 0x104).pc.toNat < s.launch.textBase.toNat + 4 * s.launch.textLen ∧ s.launch.textBase.toNat ≤ s.pc.toNat ∧
      s.pc.toNat < s.launch.textBase.toNat + 4 * s.launch.textLen ∧ fetch s = .word 0x20040506 := by decide

/-- Each of the five outcomes. -/
theorem test_witness_AttemptHasOneOfTheOutcomes :
    let s := small 0x90040000 []
    (∃ t, attempt s = .step t) ∧ attempt (s.setPc 2) = .fault (.fetchFault 2 .misaligned)
      ((s.setPc 2).setStatus (.faulted (.fetchFault 2 .misaligned))) ∧ attempt (s.setCin []) = .stuck ∧
      attempt (s.setStatus .halted) = .halted ∧ attempt (s.setStatus (.faulted .divideByZero)) = .faulted .divideByZero :=
  ⟨⟨_, rfl⟩, by decide, by decide, by decide, by decide⟩

theorem test_witness_StuckExactlyOnEmptyConsoleInput :
    let s := (small 0x903F0000 []).setCin []
    s.status = .running ∧ s.cinQ = [] ∧ fetch s = .word 0x903F0000 ∧
      decode s.launch.params.opc 0x903F0000 = .legal (.cin 63) := by decide

theorem test_witness_FaultsArePrecise :
    ∃ t, step (small 0x23040500 []) = .next t ∧ t.status = .faulted .divideByZero := ⟨_, rfl, by decide⟩

/-- Every family faults somewhere. -/
theorem test_witness_FaultsOfEachFamily :
    let faults : Instr → FaultReason → Prop := fun i f =>
      ∃ t, exec i (small 0 [(4, 0x80000000), (5, 0x1000), (6, 0xFFFFFFFF), (7, 0x100)]) = .next t ∧ t.status = .faulted f
    faults (.mod 8 4 0) .divideByZero ∧ faults (.divi 8 4 0xFF) .divideOverflow ∧ faults (.ld1 8 5 0x10) (.busFault 0x1010) ∧
      faults (.ld4 8 5 1) (.alignmentFault 0x1001) ∧ faults (.st1 8 7 3) (.textWriteFault 0x103) ∧
      faults (.ex4 8 7 0) (.textWriteFault 0x100) :=
  ⟨⟨_, rfl, by decide⟩, ⟨_, rfl, by decide⟩, ⟨_, rfl, by decide⟩, ⟨_, rfl, by decide⟩, ⟨_, rfl, by decide⟩, ⟨_, rfl, by decide⟩⟩

theorem test_witness_StepKeepsWellFormed :
    State.wf (small 0x61040504 [(5, 0x1000)]) = true ∧ ∃ t, step (small 0x61040504 [(5, 0x1000)]) = .next t :=
  ⟨by decide, _, rfl⟩

theorem test_witness_TextNeverChanges :
    ∃ t, RunsTo 1 (small 0x61040504 [(5, 0x1000)]) t ∧ t.launch.textBase.toNat ≤ 0x103 ∧
      0x103 < t.launch.textBase.toNat + 4 * t.launch.textLen := ⟨_, rfl, by decide, by decide⟩

/-- The last instruction of the launched program is reached. -/
theorem test_witness_EveryFetchSeesTheLaunchedProgram :
    ∃ s0 s, launch smallLaunch = .next s0 ∧ RunsTo 1 s0 s ∧ s.status = .running ∧
      s.pc.toNat = smallLaunch.textBase.toNat + 4 * 1 := ⟨_, _, rfl, rfl, by decide, by decide⟩

theorem test_witness_OnlyStoresChangeMemory :
    (∃ t, exec (.ld4 4 5 0) (small 0 [(5, 0x1000)]) = .next t) ∧
      (Instr.ld4 4 5 0).mnemonic ∉ [Mnemonic.st1, .st4, .ex4] := ⟨⟨_, rfl⟩, by decide⟩

theorem test_witness_ConsoleStreamsOnlyAdvance :
    (∃ t, RunsTo 1 (small 0x90040000 []) t) ∧ (∃ t, exec (.cout 4) (small 0 []) = .next t) := ⟨⟨_, rfl⟩, ⟨_, rfl⟩⟩

/-- A run that ends well, and one that does not. -/
theorem test_witness_EndsWellExactlyByHalt :
    (∃ t, RunsTo 1 (small 0xA0000000 []) t ∧ t.isFinal = true) ∧
      ∃ t, RunsTo 1 (small 0 []) t ∧ t.isFinal = false := ⟨⟨_, rfl, by decide⟩, _, rfl, by decide⟩

/-- Taken, not taken at the end of the address space, and halted. -/
theorem test_witness_ProgramCounterAdvances :
    let s := small 0 [(5, 0xFFFFFFFC)]
    takenTarget s (.jez 4 0 5) = some 0xFFFFFFFC ∧ (∃ t, exec (.jez 4 0 5) s = .next t) ∧
      takenTarget (s.setPc 0xFFFFFFFC) (.add 4 5 6) = none ∧
      (∃ t, exec (.add 4 5 6) (s.setPc 0xFFFFFFFC) = .next t ∧ t.status = .running) ∧
      ∃ t, exec .halt s = .next t ∧ t.status ≠ .running :=
  ⟨by decide, ⟨_, rfl⟩, by decide, ⟨_, rfl, by decide⟩, _, rfl, by decide⟩

theorem test_witness_OnlyDestinationsChange :
    (∃ t, exec (.addo 4 6 7) (small 0 []) = .next t) ∧ (6 : RegNum) ∉ destinations (.addo 4 6 7) ∧
      (5 : RegNum) ∈ destinations (.addo 4 6 7) := ⟨⟨_, rfl⟩, by decide, by decide⟩

theorem test_witness_ZeroRegisterIsZero : ∃ t, exec (.lcl 0 0x1234) (small 0 []) = .next t := ⟨_, rfl⟩

/-- Both extensions at 0x80, and a register that holds the extended constant. -/
theorem test_witness_ImmediateFormsActAsRegisterForms :
    let s := small 0 [(6, 0xFFFFFF80)]
    s.launch.params.imm8Ext = .sign ∧ (under otherParams s).launch.params.imm8Ext = .zero ∧ (0x7F : BitVec 8).toNat ≤ 127 ∧
      s.reg 6 = s.imm 0x80 ∧ (4 : RegNum).toNat % 2 = 0 := by decide

/-- Operands where the readings agree, at the last such values, and both readings. -/
theorem test_witness_DivisionUnderEveryReading :
    let s := small 0 [(5, 0x7FFFFFFF), (6, 0x7FFFFFFF)]
    ((s.reg 5).toNat < 2 ^ 31 ∧ (s.reg 6).toNat < 2 ^ 31 ∧ s.reg 6 ≠ 0) ∧ ((s.imm 0x7F).toNat < 2 ^ 31 ∧ s.imm 0x7F ≠ 0) ∧
      s.launch.params.div = .signedTruncating ∧ s.launch.params.mod = .signedTruncating ∧
      (under otherParams s).launch.params.div = .other ∧ (under otherParams s).launch.params.mod = .other := by decide

/-- A zero divisor, the overflowing operands, and the operands on either side of them. -/
theorem test_witness_DivisionByDefaultTruncates :
    let s := small 0 [(5, 0x80000000), (6, 0xFFFFFFFF)]
    s.launch.params.div = .signedTruncating ∧ s.launch.params.mod = .signedTruncating ∧ s.reg 0 = 0 ∧
      ((s.reg 5).toInt = -2 ^ 31 ∧ (s.reg 6).toInt = -1) ∧ (s.imm 0xFF).toInt = -1 ∧
      (s.reg 5 ≠ 0 ∧ ¬((s.reg 5).toInt = -2 ^ 31 ∧ (s.reg 5).toInt = -1)) := by decide

theorem test_witness_OverflowPairUnderEveryReading :
    let s := small 0 []
    (62 : RegNum).toNat % 2 = 0 ∧ s.launch.params.ovfAdd = .signedHigh ∧ s.launch.params.ovfSub = .signedHigh ∧
      s.launch.params.ovfMul = .signedHigh ∧ (under otherParams s).launch.params.ovfAdd = .other ∧
      (under otherParams s).launch.params.ovfSub = .other ∧ (under otherParams s).launch.params.ovfMul = .other := by decide

/-- A sum at the last value that fits and one past it. -/
theorem test_witness_PairHoldsExactResult :
    let s := small 0 [(5, 0x7FFFFFFF), (6, 1)]
    (62 : RegNum).toNat % 2 = 0 ∧ s.launch.params.ovfAdd = .signedHigh ∧ s.launch.params.ovfSub = .signedHigh ∧
      s.launch.params.ovfMul = .signedHigh ∧ s.reg 6 = 1 ∧ s.imm 0 = 0 ∧ (s.reg 5).toInt + (s.imm 0).toInt = 2 ^ 31 - 1 ∧
      (s.reg 5).toInt + (s.reg 6).toInt = 2 ^ 31 := by decide

/-- The word of each of the six at an odd destination, fetched by a running machine: the highest one and the lowest. -/
theorem test_witness_OddDestinationIsRejected :
    (63 : RegNum).toNat % 2 = 1 ∧ (1 : RegNum).toNat % 2 = 1 ∧
    (∀ p ∈ [(Mnemonic.addo, 0x283F0607), (.subo, 0x293F0607), (.mulo, 0x2A3F0607)],
      let s := small p.2 []
      Opcodes.injective s.launch.params.opc = true ∧ s.status = .running ∧ fetch s = .word p.2 ∧
        p.2 = s.launch.params.opc.code p.1 ++ (0#2 ++ 63#6) ++ (0#2 ++ 6#6) ++ (0#2 ++ 7#6)) ∧
    ∀ p ∈ [(Mnemonic.addio, 0x380106FF), (.subio, 0x390106FF), (.mulio, 0x3A0106FF)],
      let s := small p.2 []
      Opcodes.injective s.launch.params.opc = true ∧ s.status = .running ∧ fetch s = .word p.2 ∧
        p.2 = s.launch.params.opc.code p.1 ++ (0#2 ++ 1#6) ++ (0#2 ++ 6#6) ++ 0xFF#8 := by decide

/-- The amounts at the two ends, in a register and in a constant. -/
theorem test_witness_ShiftsBelow32 :
    let s := small 0 [(5, 0), (6, 31)]
    (s.reg 5).toNat = 0 ∧ (s.reg 6).toNat ≤ 31 ∧ (s.imm 0).toNat = 0 ∧ (s.imm 31).toNat ≤ 31 := by decide

/-- The amounts 32 and 2^32 - 1, under both readings. -/
theorem test_witness_ShiftsBy32OrMore :
    let s := small 0 [(5, 32), (6, 0xFFFFFFFF)]
    s.launch.params.shiftBig = .shiftedOut ∧ (under otherParams s).launch.params.shiftBig = .other ∧ 32 ≤ (s.reg 5).toNat ∧
      32 ≤ (s.reg 6).toNat ∧ 32 ≤ (s.imm 32).toNat ∧ 32 ≤ (s.imm 0xFF).toNat := by decide

theorem test_witness_EffectiveAddressWraps :
    let s := small 0 [(5, 0)]
    s.launch.params.imm8Ext = .sign ∧ (s.effAddr 5 0xFF).toNat = 2 ^ 32 - 1 ∧
      (under otherParams s).launch.params.imm8Ext = .zero ∧ ((under otherParams s).effAddr 5 0xFF).toNat = 255 := by decide

/-- The words on either side of the ends of the text and of the data. -/
theorem test_witness_AlignedWordsLieInOneRegion :
    let s := small 0 []
    State.wf s = true ∧ s.inText 0x103 = true ∧ s.inText 0x104 = false ∧ s.backed 0x100C = true ∧ s.backed 0x1010 = false := by
  decide

/-- For each clause an address at an end of the data. -/
theorem test_witness_LoadsFollowMemRead :
    let s := small 0 [(5, 0x1000)]
    s.backed (s.effAddr 5 0x10).toNat = false ∧ s.backed (s.effAddr 5 0xF).toNat = true ∧ (s.effAddr 5 0xD).toNat % 4 ≠ 0 ∧
      ((s.effAddr 5 0x10).toNat % 4 = 0 ∧ s.backed ((s.effAddr 5 0x10).toNat + 0) = false) ∧
      (s.effAddr 5 0xC).toNat % 4 = 0 ∧ ∀ k, k < 4 → s.backed ((s.effAddr 5 0xC).toNat + k) = true := by decide

/-- For each clause of the stores and of the exchange an address at an end of the data or of the text. -/
theorem test_witness_StoresFollowMemWrite :
    let s := small 0 [(5, 0x1000), (6, 0x100)]
    s.backed (s.effAddr 5 0x10).toNat = false ∧
      (s.backed (s.effAddr 6 3).toNat = true ∧ s.inText (s.effAddr 6 3).toNat = true) ∧
      (s.backed (s.effAddr 5 0xF).toNat = true ∧ s.inText (s.effAddr 5 0xF).toNat = false) ∧ (s.effAddr 5 0xD).toNat % 4 ≠ 0 ∧
      ((s.effAddr 5 0x10).toNat % 4 = 0 ∧ ¬∀ k, k < 4 → s.backed ((s.effAddr 5 0x10).toNat + k) = true) ∧
      ((s.effAddr 6 0).toNat % 4 = 0 ∧ (∀ k, k < 4 → s.backed ((s.effAddr 6 0).toNat + k) = true) ∧
        s.inText ((s.effAddr 6 0).toNat + 3) = true) ∧
      (s.effAddr 5 0xC).toNat % 4 = 0 ∧ (∀ k, k < 4 → s.backed ((s.effAddr 5 0xC).toNat + k) = true) ∧
      (∀ k, k < 4 → s.inText ((s.effAddr 5 0xC).toNat + k) = false) ∧ State.wf s = true := by decide

/-- The same addresses serve the exchange, with two other registers. -/
theorem test_witness_ExchangeSwapsRegisterAndWord :
    let s := small 0 [(4, 0xAAAAAAAA), (5, 0x1000)]
    (s.effAddr 5 0xC).toNat % 4 = 0 ∧ (∀ k, k < 4 → s.backed ((s.effAddr 5 0xC).toNat + k) = true) ∧
      (∀ k, k < 4 → s.inText ((s.effAddr 5 0xC).toNat + k) = false) ∧ (4 : RegNum) ≠ 0 ∧ (4 : RegNum) ≠ 5 := by decide

theorem test_witness_ByteOrderOfStoredWord :
    (small 0 []).launch.params.byteOrder = .big ∧ (under otherParams (small 0 [])).launch.params.byteOrder = .little ∧
      fetch (under otherParams (small 0x000000A0 [])) = .word 0xA0000000 ∧ ∃ t, step (small 0xA0000000 []) = .next t :=
  ⟨by decide, by decide, by decide, _, rfl⟩

/-- A stored word and its last byte; four stored bytes and their word. -/
theorem test_witness_MixedWidthAccess :
    let s := small 0 [(5, 0x1000)]
    (∃ t, exec (.st4 4 5 4) s = .next t ∧ t.status = .running ∧ (t.effAddr 5 7).toNat = (s.effAddr 5 4).toNat + 3) ∧
      ((s.effAddr 5 0).toNat % 4 = 0 ∧ (s.effAddr 5 1).toNat = (s.effAddr 5 0).toNat + 1 ∧
        (s.effAddr 5 3).toNat = (s.effAddr 5 0).toNat + 3) ∧
      ∃ t0 t1 t2 t3, exec (.st1 1 5 0) s = .next t0 ∧ exec (.st1 2 5 1) t0 = .next t1 ∧ exec (.st1 3 5 2) t1 = .next t2 ∧
        exec (.st1 4 5 3) t2 = .next t3 ∧ t0.status = .running ∧ t1.status = .running ∧ t2.status = .running ∧
        t3.status = .running :=
  ⟨⟨_, rfl, by decide, by decide⟩, by decide, _, _, _, _, rfl, rfl, rfl, rfl, by decide, by decide, by decide, by decide⟩

/-- A taken branch to a misaligned target, one out of the text, and one that stays inside. -/
theorem test_witness_TargetsAreCheckedAtNextFetch :
    let s := small 0 [(5, 0x183), (6, 0x104)]
    s.status = .running ∧ isTransfer (.jez 4 0 5) = true ∧ takenTarget s (.jez 4 0 5) = some 0x183 ∧
      takenTarget s (.jez 4 0 6) = some 0x104 ∧ isTransfer (.bezi 0 0) = true ∧ takenTarget s (.bezi 0 0) = some 0x100 ∧
      s.pc.toNat % 4 = 0 ∧ (4 : RegNum) ∈ destinations (.jez 4 0 5) := by decide

theorem test_witness_ConsoleInputTakesFirstByte :
    ((small 0 []).setCin []).cinQ = [] ∧ (small 0 []).cinQ = [0x41, 0x0A] := by decide

theorem test_witness_HaltStopsTheProcessor :
    (small 0 []).status = .running ∧ ∃ t, exec .halt (small 0 []) = .next t ∧ t.isFinal = true := ⟨by decide, _, rfl, by decide⟩

theorem test_witness_LengthsAreKnownBeforeAddresses :
    expand defaultParams [] 0 ⟨.native .addi, [.reg 4, .reg 5, .const (.lit 128)]⟩ = .ok [.lcl 60 128, .add 4 5 60] := by decide

/-- A literal at each end of its range, and a label. -/
theorem test_witness_LcLoadsTheWholeConstant :
    ConstIs [] (.lit (-2 ^ 31)) 0x80000000 ∧ ConstIs [] (.lit (2 ^ 32 - 1)) 0xFFFFFFFF ∧
      ConstIs [("f".toList, 0x180)] (.label "f".toList) 0x180 ∧ (small 0 []).status = .running :=
  ⟨by unfold ConstIs; decide, by unfold ConstIs; decide, by unfold ConstIs; decide, by decide⟩

/-- A form with no `const8` reading, a form just past its range, and the scratch register among the operands. -/
theorem test_witness_WideFormsLoadScratchThenRun :
    wideForm 4 5 .andi = some (.and 4 5 u0) ∧ wideForm 4 5 (.native .addio) = some (.addo 4 5 u0) ∧
      Instr.wf (.addo 4 5 u0) = true ∧ fitsConst8 defaultParams (.lit 128) = false ∧
      fitsConst8 defaultParams (.lit 127) = true ∧ (4 : RegNum) ≠ u0 ∧ (5 : RegNum) ≠ u0 ∧
      wideForm 60 5 .andi = some (.and 60 5 u0) := by decide

/-- The farthest branch and the one after it. -/
theorem test_witness_OneInstructionForms :
    let s := small 0 []
    ConstIs [] (.lit 0x200FC) 0x200FC ∧ s.pc = 0x100 ∧ ((0x200FC : Word).toNat : Int) - (0x100 : Word).toNat = 4 * 32767 ∧
      ConstIs [] (.lit 0x20100) 0x20100 ∧ ((0x20100 : Word).toNat : Int) - (0x100 : Word).toNat = 4 * 32768 ∧
      ConstIs [] (.lit 0x102) 0x102 ∧ (((0x102 : Word).toNat : Int) - (0x100 : Word).toNat) % 4 ≠ 0 :=
  ⟨by unfold ConstIs; decide, by decide, by decide, by unfold ConstIs; decide, by decide, by unfold ConstIs; decide, by decide⟩

/-- A literal that one `lcl` loads and one that takes two instructions. -/
theorem test_witness_JumpsToConstants :
    ConstIs [] (.lit 0x7FFF) 0x7FFF ∧ loadSize (.lit 0x7FFF) = 1 ∧ ConstIs [] (.lit 0x8000) 0x8000 ∧ loadSize (.lit 0x8000) = 2 ∧
      (small 0 []).status = .running ∧ (1 : RegNum) ≠ u0 ∧ (5 : RegNum) ≠ u0 :=
  ⟨by unfold ConstIs; decide, by decide, by unfold ConstIs; decide, by decide, by decide, by decide, by decide⟩

/-- A stack with one word left to push and one with none; a word to pop. -/
theorem test_witness_PushAndPop :
    let s := small 0 [(2, 0x1004)]
    let e := small 0 [(2, 0x1000)]
    s.status = .running ∧ s.writeFault (s.reg sp - 4) .word = none ∧
      e.writeFault (e.reg sp - 4) .word = some (.busFault 0xFFC) ∧ e.readFault (e.reg sp) .word = none ∧
      (small 0 [(2, 0x1010)]).readFault 0x1010 .word = some (.busFault 0x1010) ∧ (5 : RegNum) ≠ sp := by decide

end Sys2Proof.Machine.Tests
end

section
/-! What one given instruction does (10_state.md): its next state in terms of its own destinations and its own target, and from
that the program counter, the registers it leaves alone, and the console. -/

namespace Sys2Proof.Machine

/-! ## The effect of a given instruction -/

/-- The instruction neither goes to a target nor halts, so that it ends with `pc + 4` unless it faults (10_state.md R17). -/
structure Sequential (i : Instr) (s : State) : Prop where
  target : takenTarget s i = none
  notHalt : i ≠ .halt

/-- The shapes of a next state of the instruction `i`. Where `Effect` says what some instruction can do, this says which registers
`i` itself may write and which target it takes, in terms of `destinations i` and `takenTarget s i`; the stored bytes and the
console's new content are left to `Effect`. -/
inductive InstrEffect (i : Instr) (s : State) : State → Prop where
  | fault (f : FaultReason) (hi : Sequential i s) : InstrEffect i s (s.setStatus (.faulted f))
  | register (r : RegNum) (v : Word) (hi : Sequential i s) (hd : destinations i = [r]) : InstrEffect i s (s.setReg r v).advance
  | pair (r : RegNum) (a b : Word) (hi : Sequential i s) (hd : destinations i = [r, pairHigh r]) :
      InstrEffect i s ((s.setReg r a).setReg (pairHigh r) b).advance
  | store (m : Memory) (hi : Sequential i s) : InstrEffect i s (s.setMem m).advance
  | exchange (m : Memory) (r : RegNum) (v : Word) (hi : Sequential i s) (hd : destinations i = [r]) :
      InstrEffect i s ((s.setMem m).setReg r v).advance
  | input (r : RegNum) (v : Word) (rest : List Byte) (hi : i = .cin r) : InstrEffect i s ((s.setCin rest).setReg r v).advance
  | output (r : RegNum) (q : List Byte) (hi : i = .cout r) : InstrEffect i s (s.setCout q).advance
  | link (r : RegNum) (taken : Bool) (target : Word) (hh : i ≠ .halt) (hd : destinations i = [r])
      (ht : takenTarget s i = if taken then some target else none) :
      InstrEffect i s ((s.setReg r s.pc).setPc (if taken then target else s.pc + 4))
  | branch (taken : Bool) (target : Word) (hh : i ≠ .halt) (ht : takenTarget s i = if taken then some target else none) :
      InstrEffect i s (s.setPc (if taken then target else s.pc + 4))
  | halt (hi : i = .halt) : InstrEffect i s (s.setStatus .halted)

section Shapes
variable {i : Instr} {s t : State}

theorem InstrEffect.ofResult {r : RegNum} {v : Word} (hi : Sequential i s) (hd : destinations i = [r])
    (h : writeResult r v s = .next t) : InstrEffect i s t := by
  rw [writeResult_next.1 h]; exact .register r v hi hd

theorem InstrEffect.ofDivision {r : RegNum} {d : DivResult} (hi : Sequential i s) (hd : destinations i = [r])
    (h : writeDivResult r d s = .next t) : InstrEffect i s t := by
  rcases writeDivResult_next.1 h with ⟨v, -, rfl⟩ | ⟨-, rfl⟩ | ⟨-, rfl⟩
  · exact .register r v hi hd
  · exact .fault _ hi
  · exact .fault _ hi

theorem InstrEffect.ofPair {r : RegNum} {a b : Word} (hi : Sequential i s) (hd : destinations i = [r, pairHigh r])
    (h : ifEvenPair r i s (writePair r a b s) = .next t) : InstrEffect i s t := by
  rcases ifEvenPair_next.1 h with ⟨-, h⟩ | ⟨-, rfl⟩
  · rw [writePair_next.1 h]; exact .pair r a b hi hd
  · exact .fault _ hi

/-- An access whose checks fail faults, and one whose checks pass does what follows them. -/
theorem InstrEffect.ofAccess {f : Option FaultReason} {go : Result} (hi : Sequential i s)
    (hgo : go = .next t → InstrEffect i s t) (h : ifNoFault f s go = .next t) : InstrEffect i s t := by
  rcases ifNoFault_next.1 h with ⟨-, h⟩ | ⟨f, -, rfl⟩
  · exact hgo h
  · exact .fault f hi

theorem InstrEffect.ofStore {f : Option FaultReason} {m : Memory} (hi : Sequential i s)
    (h : ifNoFault f s (.next (s.setMem m).advance) = .next t) : InstrEffect i s t :=
  .ofAccess hi (fun h => by cases h; exact .store m hi) h

theorem InstrEffect.ofExchange {f : Option FaultReason} {m : Memory} {r : RegNum} {v : Word} (hi : Sequential i s)
    (hd : destinations i = [r]) (h : ifNoFault f s (writeResult r v (s.setMem m)) = .next t) : InstrEffect i s t :=
  .ofAccess hi (fun h => by rw [writeResult_next.1 h]; exact .exchange m r v hi hd) h

theorem InstrEffect.ofLink {r : RegNum} {taken : Bool} {target : Word} (hh : i ≠ .halt) (hd : destinations i = [r])
    (ht : takenTarget s i = if taken then some target else none) (h : linkAndGo r taken target s = .next t) :
    InstrEffect i s t := by
  rw [linkAndGo_next.1 h]; exact .link r taken target hh hd ht

theorem InstrEffect.ofBranch {taken : Bool} {target : Word} (hh : i ≠ .halt)
    (ht : takenTarget s i = if taken then some target else none) (h : branchTo taken target s = .next t) :
    InstrEffect i s t := by
  rw [branchTo_next.1 h]; exact .branch taken target hh ht

end Shapes

/-- The target of `bezi` and `bnzi`: the wrapping sum the machine computes is the exact integer sum modulo 2^32
(46_branch.md R182, 30_encoding.md R53). -/
theorem pc_add_branchOffset (pc : Word) (h : BitVec 16) : pc + branchOffset h = BitVec.ofInt 32 (pc.toNat + 4 * h.toInt) := by
  have hoffset : branchOffset h = BitVec.ofInt 32 (4 * h.toInt) := by
    unfold branchOffset; rw [BitVec.ofInt_mul]; rfl
  have hpc : pc = BitVec.ofInt 32 pc.toNat := by simp
  rw [hoffset, BitVec.ofInt_add, ← hpc]

/-- Every next state of an instruction is one of the shapes its destinations and its target allow. -/
theorem exec_instrEffect {i : Instr} {s t : State} (h : exec i s = .next t) : InstrEffect i s t := by
  cases i
  case lch | lcl => exact .ofResult ⟨rfl, nofun⟩ rfl h
  case add | sub | mul | addi | subi | muli => exact .ofResult ⟨rfl, nofun⟩ rfl h
  case div | mod | divi | modi => exact .ofDivision ⟨rfl, nofun⟩ rfl h
  case addo | subo | mulo | addio | subio | mulio => exact .ofPair ⟨rfl, nofun⟩ rfl h
  case and | nor | or | xor => exact .ofResult ⟨rfl, nofun⟩ rfl h
  case shl | shr | shru | shli | shri | shrui => exact .ofResult ⟨rfl, nofun⟩ rfl h
  case st1 | st4 => exact .ofStore ⟨rfl, nofun⟩ h
  case ld1 | ld4 => exact .ofAccess ⟨rfl, nofun⟩ (.ofResult ⟨rfl, nofun⟩ rfl) h
  case ex4 => exact .ofExchange ⟨rfl, nofun⟩ rfl h
  case eq | ges | gts | geu | gtu => exact .ofResult ⟨rfl, nofun⟩ rfl h
  case jez | jnz | bez | bnz => exact .ofLink nofun rfl (by simp [takenTarget]) h
  case bezi | bnzi => exact .ofBranch nofun (by simp [takenTarget, pc_add_branchOffset]) h
  case cin r =>
    cases hq : s.cinQ with
    | nil => simp [exec, execCin, hq] at h
    | cons b rest =>
      simp only [exec, execCin, hq] at h
      rw [writeResult_next.1 h]; exact .input r _ rest rfl
  case cout r => cases h; exact .output r _ rfl
  case halt => cases h; exact .halt rfl

/-! ## What follows for the program counter, the registers and the console -/

/-- How an instruction ends: it faults, it halts, or it keeps the status and goes to its target or to `pc + 4`
(10_state.md R17). -/
theorem InstrEffect.control {i : Instr} {s t : State} (h : InstrEffect i s t) :
    (Sequential i s ∧ ∃ f, t = s.setStatus (.faulted f)) ∨ (i = .halt ∧ t = s.setStatus .halted) ∨
      (i ≠ .halt ∧ t.status = s.status ∧ t.pc = (takenTarget s i).getD (s.pc + 4)) := by
  cases h
  case fault f hi => exact .inl ⟨hi, f, rfl⟩
  case halt hi => exact .inr (.inl ⟨hi, rfl⟩)
  case register r v hi hd => exact .inr (.inr ⟨hi.notHalt, by simp, by simp [hi.target]⟩)
  case pair r a b hi hd => exact .inr (.inr ⟨hi.notHalt, by simp, by simp [hi.target]⟩)
  case store m hi => exact .inr (.inr ⟨hi.notHalt, by simp, by simp [hi.target]⟩)
  case exchange m r v hi hd => exact .inr (.inr ⟨hi.notHalt, by simp, by simp [hi.target]⟩)
  case input r v rest hi => subst hi; exact .inr (.inr ⟨nofun, by simp, by simp [takenTarget]⟩)
  case output r q hi => subst hi; exact .inr (.inr ⟨nofun, by simp, by simp [takenTarget]⟩)
  case link r taken target hh hd ht => exact .inr (.inr ⟨hh, by simp, by cases taken <;> simp [ht]⟩)
  case branch taken target hh ht => exact .inr (.inr ⟨hh, by simp, by cases taken <;> simp [ht]⟩)

/-- A register that is no destination reads as before. -/
theorem InstrEffect.reg_of_notMem {i : Instr} {s t : State} (h : InstrEffect i s t) {r : RegNum} (hr : r ∉ destinations i) :
    t.reg r = s.reg r := by
  cases h
  case register d v hi hd =>
    have hne : r ≠ d := by simpa [hd] using hr
    simp [State.reg_setReg_of_ne, hne]
  case pair d a b hi hd =>
    obtain ⟨hne, hneHigh⟩ : r ≠ d ∧ r ≠ pairHigh d := by simpa [hd] using hr
    simp [State.reg_setReg_of_ne, hne, hneHigh]
  case exchange m d v hi hd =>
    have hne : r ≠ d := by simpa [hd] using hr
    simp [State.reg_setReg_of_ne, hne]
  case input d v rest hi =>
    have hne : r ≠ d := by simpa [hi, destinations] using hr
    simp [State.reg_setReg_of_ne, hne]
  case link d taken target hh hd ht =>
    have hne : r ≠ d := by simpa [hd] using hr
    simp [State.reg_setReg_of_ne, hne]
  case fault | store | output | branch | halt => simp

theorem InstrEffect.cinQ {i : Instr} {s t : State} (h : InstrEffect i s t) (hi : i.mnemonic ≠ .cin) : t.cinQ = s.cinQ := by
  cases h
  case input r v rest hcin => exact absurd (congrArg Instr.mnemonic hcin) hi
  all_goals simp

theorem InstrEffect.coutQ {i : Instr} {s t : State} (h : InstrEffect i s t) (hi : i.mnemonic ≠ .cout) : t.coutQ = s.coutQ := by
  cases h
  case output r q hcout => exact absurd (congrArg Instr.mnemonic hcout) hi
  all_goals simp

/-! ## The console over a run (10_state.md R22) -/

/-- The input left in `t` is an end of the input of `s`, and the output of `s` is a beginning of the output of `t`. -/
def StreamsAdvance (s t : State) : Prop := t.cinQ <:+ s.cinQ ∧ s.coutQ <+: t.coutQ

theorem StreamsAdvance.refl (s : State) : StreamsAdvance s s := ⟨List.suffix_rfl, List.prefix_rfl⟩

theorem StreamsAdvance.trans {s t u : State} (h : StreamsAdvance s t) (h' : StreamsAdvance t u) : StreamsAdvance s u :=
  ⟨h'.1.trans h.1, h.2.trans h'.2⟩

theorem Effect.streamsAdvance {s t : State} (h : Effect s t) : StreamsAdvance s t := by
  cases h
  case input r b rest hq => exact ⟨by simp [hq], by simp⟩
  case output b => exact ⟨by simp, by simp⟩
  all_goals simp [StreamsAdvance, State.storeByte, State.storeWord]

theorem RunsTo.streamsAdvance {k : Nat} {s t : State} (h : RunsTo k s t) : StreamsAdvance s t :=
  runsTo_induction (fun _ _ hs hstep => hs.trans (step_effect hstep).streamsAdvance) (.refl s) h

/-! ## The statements -/

/-- Settles O21: by induction on the run, each step taking bytes from the front of the input or adding them to the end of the
output. -/
theorem consoleStreamsOnlyAdvance : Obligations.ConsoleStreamsOnlyAdvance := by
  refine ⟨fun k s t h => ?_, fun i s t h => ⟨(exec_instrEffect h).cinQ, (exec_instrEffect h).coutQ⟩⟩
  obtain ⟨⟨taken, htaken⟩, more, hmore⟩ := h.streamsAdvance
  exact ⟨⟨taken, htaken.symm⟩, more, hmore.symm⟩

/-- Settles O23: the three ways an instruction ends, read for `pc`. -/
theorem programCounterAdvances : Obligations.ProgramCounterAdvances := by
  intro i s t hs h
  rcases (exec_instrEffect h).control with ⟨hi, f, rfl⟩ | ⟨rfl, rfl⟩ | ⟨hi, hstatus, hpc⟩
  · simp [hi.target, hi.notHalt]
  · simp [takenTarget]
  · rw [hs] at hstatus
    refine ⟨fun target ht => by simp [hpc, ht], fun ht _ => by simp [hpc, ht, BitVec.toNat_add], ?_, ?_⟩
    · exact fun hne => absurd hstatus hne
    · simp [hstatus, hi]

/-- Settles O24: `exec_instrEffect` gives the shape of the next state, and each shape writes destinations only. -/
theorem onlyDestinationsChange : Obligations.OnlyDestinationsChange :=
  fun _ _ _ h _ hr => (exec_instrEffect h).reg_of_notMem hr

/-- Settles O25: the zero register is never looked up and never written. -/
theorem zeroRegisterIsZero : Obligations.ZeroRegisterIsZero :=
  fun s => ⟨s.reg_zero, s.setReg_zero, fun _ t _ => t.reg_zero⟩

/-! ## The state after reset (10_state.md R25) -/

/-- The launch arguments at reset are well formed (20_memory.md R31, 30_encoding.md R57). -/
theorem reset_launch_wf : State.reset.launch.wf = true := by
  have hbase : State.reset.launch.textBase.toNat % 4 = 0 := by decide
  have hfits : State.reset.launch.textBase.toNat + 4 * State.reset.launch.textLen ≤ 2 ^ 32 := by decide
  have hranges : State.reset.launch.data.all rangeWf = true := by decide
  have hopcodes : Opcodes.injective State.reset.launch.params.opc = true := defaultOpcodes_injective
  simp only [Launched.wf, hbase, hfits, hranges, hopcodes, decide_true, Bool.and_self]

/-- Settles O8: nothing is stored at reset, the cell of register 0 is zero, and the launch arguments are well formed. -/
theorem resetIsWellFormed : Obligations.ResetIsWellFormed := by
  have hmem : Memory.wf State.reset.mem = true := rfl
  have hzero : State.reset.regs[0] = 0 := rfl
  unfold Obligations.ResetIsWellFormed
  simp only [State.wf, hmem, hzero, reset_launch_wf, decide_true, Bool.and_self]

theorem reset_inText_iff (a : Nat) : State.reset.inText a = true ↔ 0x100 ≤ a ∧ a < 0x104 := inText_iff State.reset a

theorem reset_inData_iff (a : Nat) : State.reset.inData a = true ↔ a < 0x100 ∨ (0x104 ≤ a ∧ a < 2 ^ 32) := by
  simp [State.inData, State.reset, launchData, launchTextBase, launchTextLen]

/-- The launch that `State.reset` stands for once its one instruction is `i`: the arguments of logs 1, 4, 5 and 6. -/
def resetLaunch (i : Instr) : Launch where
  params := defaultParams
  textBase := launchTextBase
  program := [i]
  data := launchData
  contents := []
  entry := launchTextBase
  input := launchInput
  registers := launchRegisters

/-- The launch is admitted exactly when its instruction is a legal one (70_reset_and_hazards.md R261). -/
theorem resetLaunch_wf (i : Instr) : (resetLaunch i).wf = i.wf := by
  have hkept : (resetLaunch i).kept.wf = true := reset_launch_wf
  have hclear : (resetLaunch i).data.all
      (fun r => rangeClearOf r (resetLaunch i).textBase.toNat (resetLaunch i).program.length) = true :=
    (by decide : launchData.all (fun r => rangeClearOf r launchTextBase.toNat 1) = true)
  rw [Launch.wf, hkept, hclear]
  simp [resetLaunch, launchTextBase]

/-- Its launch state is the state after reset with the instruction's word at `pc`. -/
theorem resetLaunch_state (i : Instr) :
    (resetLaunch i).state = placeWord State.reset (encode State.reset.launch.params.opc i) := by
  have hpc : alignedPc State.reset = launchTextBase := by decide
  have hregs : launchRegisters.set 0 0 = launchRegisters := by decide
  have htext : textHolding State.reset launchTextBase = (resetLaunch i).kept := rfl
  have hbytes : (resetLaunch i).textBytes = bytesOfWord defaultParams.byteOrder (encode defaultParams.opc i) := by
    simp [Launch.textBytes, resetLaunch]
  simp only [Launch.state, placeWord, Launch.memory, hpc, htext, hbytes]
  simp only [resetLaunch, State.reset, hregs, storeCells]

/-- Settles O7: the launch is `resetLaunch i`. -/
theorem resetStateIsAsSpecified : Obligations.ResetStateIsAsSpecified := by
  have hclear (a : Nat) (ha : State.reset.inText a = true) : State.reset.inData a = false := by
    rw [reset_inText_iff] at ha
    rw [Bool.eq_false_iff, ne_eq, reset_inData_iff]
    omega
  refine ⟨State.reset.reg_zero, rfl, by decide, by decide, hclear, rfl, rfl, rfl, fun i hi => ⟨resetLaunch i, rfl, ?_⟩⟩
  rw [launch, resetLaunch_wf, if_pos hi, resetLaunch_state]

/-! ## The names of the registers (10_state.md R13) -/

/-- A decimal digit reads as the number it is written for. -/
theorem hexDigit_digitChar : ∀ d < 10, hexDigit (Nat.digitChar d) = some d := by decide

/-- Reading digits and then one more is one step of the positional value. -/
theorem digitsFrom_append_digit {cs : List Char} {acc n d : Nat} (h : digitsFrom 10 acc cs = some n) (hd : d < 10) :
    digitsFrom 10 acc (cs ++ [Nat.digitChar d]) = some (n * 10 + d) := by
  induction cs generalizing acc with
  | nil =>
    cases h
    simp [digitsFrom, hexDigit_digitChar d hd, hd]
  | cons c cs ih =>
    simp only [List.cons_append, digitsFrom] at h ⊢
    split at h
    · split at h
      · rename_i hlt
        rw [if_pos hlt]
        exact ih h
      · cases h
    · cases h

/-- A number written in decimal reads as that number. -/
theorem number_toDigits (k : Nat) : number 10 (Nat.toDigits 10 k) = some k := by
  have hdigits : digitsFrom 10 0 (Nat.toDigits 10 k) = some k := by
    induction k using Nat.strongRecOn with
    | _ k ih =>
      by_cases hk : k < 10
      · rw [Nat.toDigits_of_lt_base hk]
        simpa using digitsFrom_append_digit (cs := []) (acc := 0) rfl hk
      · rw [Nat.toDigits_of_base_le (by omega) (by omega), digitsFrom_append_digit (ih (k / 10) (by omega)) (by omega)]
        congr 1; omega
  simp [number, hdigits]

/-- An index up to the last one, written in decimal, names the register that many after the first. -/
theorem indexed_toDigits (first : Nat) {last k : Nat} (hk : k ≤ last) :
    indexed first last (Nat.toDigits 10 k) = some (BitVec.ofNat 6 (first + k)) := by
  simp [indexed, number_toDigits, hk]

/-- A name of `r` and an index is not `ra`. -/
theorem registerOfName_r {cs : List Char} (h : cs ≠ ['a']) : registerOfName ('r' :: cs) = indexed 0 63 cs := by
  simp only [registerOfName]

/-- Settles O53: each family of indexed names by `indexed_toDigits`. -/
theorem registerNames : Obligations.RegisterNames := by
  refine ⟨rfl, rfl, rfl, rfl, fun k hk => indexed_toDigits 4 hk, fun k hk => indexed_toDigits 60 hk, fun k hk => ?_⟩
  have hra : Nat.toDigits 10 k ≠ ['a'] := fun h => by
    have := number_toDigits k
    rw [h] at this
    exact absurd this (by simp [number, digitsFrom, hexDigit])
  rw [registerOfName_r hra, indexed_toDigits 0 hk, Nat.zero_add]

end Sys2Proof.Machine
end

section
/-! Memory (20_memory.md): the invariant of every step, the text that no run changes, what a fetch sees, and what a load or a
store checks, reads and changes. -/

namespace Sys2Proof

/-! ## Decoding an encoded word (30_encoding.md R52, R56) -/

/-- The word of every well-formed instruction has the fields of its mnemonic; one lemma of `EncodedFields` per format. -/
theorem encode_fields (i : Instr) : Laws.EncodedFields.Statement i := by
  cases i
  case lch | lcl | bezi | bnzi => exact fun _ _ => Laws.EncodedFields.fields_rh rfl
  case addo | subo | mulo => exact fun _ h => Laws.EncodedFields.fields_rrr (Laws.EncodedFields.pair_even h)
  case addio | subio | mulio => exact fun _ h => Laws.EncodedFields.fields_rri (Laws.EncodedFields.pair_even h)
  case addi | subi | muli | divi | modi | shli | shri | shrui => exact fun _ _ => Laws.EncodedFields.fields_rri rfl
  case st1 | st4 | ld1 | ld4 | ex4 => exact fun _ _ => Laws.EncodedFields.fields_rri rfl
  case cin | cout => exact fun _ _ => Laws.EncodedFields.fields_r rfl
  case halt => exact fun _ _ => Laws.EncodedFields.fields_n rfl
  all_goals exact fun _ _ => Laws.EncodedFields.fields_rrr rfl

/-- The operands of an encoded word are the operands of the instruction. -/
theorem instrOfFields_encode (opc : Opcodes) (i : Instr) : instrOfFields i.mnemonic (encode opc i) = i := by
  cases i <;> simp [encode, Instr.mnemonic, instrOfFields, regA, regB, regC]

/-- A word that passes the four checks of R59 is the instruction its fields hold. -/
theorem decode_of_fields {opc : Opcodes} {m : Mnemonic} {w : Word} (hopc : Opcodes.injective opc = true)
    (hw : Laws.EncodedFields.Fields opc m m.format w) : decode opc w = .legal (instrOfFields m w) := by
  obtain ⟨hop, hreserved, hregister, hpair⟩ := hw
  simp [decode, hop, Opcodes.mnemonic?_code hopc, hreserved, hregister, hpair]

/-- Decoding the word of a well-formed instruction gives it back. -/
theorem decode_encode {opc : Opcodes} {i : Instr} (hopc : Opcodes.injective opc = true) (hi : i.wf = true) :
    decode opc (encode opc i) = .legal i := by
  rw [decode_of_fields hopc (encode_fields i opc hi), instrOfFields_encode]

/-! ## The bytes of a word (20_memory.md R34) -/

theorem byteOfWord_big_toNat (v : Word) (k : Nat) : (byteOfWord .big v k).toNat = v.toNat / 2 ^ (8 * (3 - k)) % 256 := by
  simp [byteOfWord, Nat.shiftRight_eq_div_pow]

theorem byteOfWord_little_toNat (v : Word) (k : Nat) : (byteOfWord .little v k).toNat = v.toNat / 2 ^ (8 * k) % 256 := by
  simp [byteOfWord, Nat.shiftRight_eq_div_pow]

end Sys2Proof

namespace Sys2Proof.Machine

/-! ## The invariant of every step -/

theorem State.wf_iff (s : State) :
    State.wf s = true ↔ Memory.wf s.mem = true ∧ s.regs[0] = 0 ∧ s.launch.wf = true := by
  simp [State.wf, and_assoc]

/-- No effect writes the cell of register 0 (10_state.md R12). -/
theorem Effect.zeroCell {s t : State} (h : Effect s t) : t.regs[0] = s.regs[0] := by
  cases h <;> simp [State.storeByte, State.storeWord]

/-- A word that passes the checks of a write ends inside the address space, so storing it keeps the canonical form
(20_memory.md R36). -/
theorem State.storeWord_mem_wf {s : State} {addr v : Word} (hm : Memory.wf s.mem = true)
    (hf : s.writeFault addr .word = none) : Memory.wf (s.storeWord addr v).mem = true := by
  have haligned : addr.toNat % 4 = 0 := (readFault_word_none.1 (writeFault_none.1 hf).1).1
  exact Memory.wf_writeBytes hm (accessed_end haligned)

/-- Every effect keeps memory in its canonical form. -/
theorem Effect.memory_wf {s t : State} (h : Effect s t) (hm : Memory.wf s.mem = true) : Memory.wf t.mem = true := by
  cases h
  case storeByte addr v hf => exact Memory.wf_writeByte v hm addr.isLt
  case storeWord addr v hf => exact State.storeWord_mem_wf hm hf
  case exchange addr v r x hf => simpa using State.storeWord_mem_wf hm hf
  all_goals simpa using hm

/-- Settles O17: each part of the invariant is kept by every shape of `Effect`. -/
theorem stepKeepsWellFormed : Obligations.StepKeepsWellFormed := by
  intro s t hs hstep
  have heffect := step_effect hstep
  obtain ⟨hmem, hzero, hlaunch⟩ := s.wf_iff.1 hs
  exact t.wf_iff.2 ⟨heffect.memory_wf hmem, heffect.zeroCell.trans hzero, by rw [heffect.launch, hlaunch]⟩

/-! ## The text over a run (20_memory.md R33) -/

/-- `t` has the launch arguments of `s` and the same bytes in its text. -/
def SameText (s t : State) : Prop := t.launch = s.launch ∧ ∀ a, s.inText a = true → t.byteAt a = s.byteAt a

theorem SameText.refl (s : State) : SameText s s := ⟨rfl, fun _ _ => rfl⟩

/-- Where the text lies is said by the launch arguments. -/
theorem State.inText_congr {s t : State} (h : t.launch = s.launch) (a : Nat) : t.inText a = s.inText a := by
  unfold State.inText; rw [h]

theorem SameText.step {s t u : State} (h : SameText s t) (hstep : step t = .next u) : SameText s u := by
  obtain ⟨hlaunch, hbytes⟩ := h
  have heffect := step_effect hstep
  refine ⟨heffect.launch.trans hlaunch, fun a ha => ?_⟩
  rw [heffect.text (by rwa [State.inText_congr hlaunch]), hbytes a ha]

theorem RunsTo.sameText {k : Nat} {s t : State} (h : RunsTo k s t) : SameText s t :=
  runsTo_induction (fun _ _ ht hstep => ht.step hstep) (.refl s) h

/-- Settles O18: by induction on the run, no step writing a byte of the text. -/
theorem textNeverChanges : Obligations.TextNeverChanges := by
  intro k s t h
  obtain ⟨hlaunch, hbytes⟩ := h.sameText
  exact ⟨hlaunch, fun a hlo hhi => hbytes a ((inText_iff s a).2 ⟨hlo, hhi⟩)⟩

/-! ## The launched program (20_memory.md R48) -/

/-- A word stands where its four bytes do. -/
theorem wordAt_of_bytes {s : State} {a : Nat} {w : Word}
    (h : ∀ k < 4, s.byteAt (a + k) = byteOfWord s.launch.params.byteOrder w k) : WordAt s a w := by
  have hjoin := wordOfBytes_bytesOfWord s.launch.params.byteOrder w
  rw [← h 0 (by omega), ← h 1 (by omega), ← h 2 (by omega), ← h 3 (by omega), Nat.add_zero] at hjoin
  unfold WordAt
  revert hjoin
  unfold wordOfBytes
  cases s.launch.params.byteOrder <;> exact Eq.symm

theorem bytesOfWord_getElem? (o : ByteOrder) (w : Word) {k : Nat} (hk : k < 4) :
    (bytesOfWord o w)[k]? = some (byteOfWord o w k) := by
  interval_cases k <;> rfl

/-- The launch stores each instruction's word at its place in the text (10_state.md R25). -/
theorem Launch.state_wordAt (l : Launch) {j : Nat} (hj : j < l.program.length) :
    WordAt l.state (l.textBase.toNat + 4 * j) (encode l.params.opc l.program[j]) := by
  refine wordAt_of_bytes fun k hk => ?_
  have hin : 4 * j + k < l.textBytes.length := by rw [textBytes_length]; omega
  have hread : l.state.byteAt (l.textBase.toNat + 4 * j + k) = l.textBytes[4 * j + k] := by
    rw [Nat.add_assoc]; exact Memory.readByte_writeBytes_inside _ _ _ _ hin
  have htext : l.textBytes[4 * j + k]? = some (byteOfWord l.params.byteOrder (encode l.params.opc l.program[j]) k) :=
    (flatMap_bytes_get _ _ _ j hj k hk).trans (bytesOfWord_getElem? _ _ hk)
  rw [hread]
  exact Option.some.inj ((List.getElem?_eq_getElem hin).symm.trans htext)

theorem launch_next {l : Launch} {s : State} : launch l = .next s ↔ l.wf = true ∧ s = l.state := by
  unfold launch
  split
  · rename_i hl; simp [hl, eq_comm]
  · rename_i hl; simp [hl]

/-- A word of the text reads the same in every state of a run. -/
theorem SameText.wordAt {s t : State} (h : SameText s t) {a : Nat} {w : Word} (htext : ∀ k < 4, s.inText (a + k) = true)
    (hw : WordAt s a w) : WordAt t a w :=
  (wordAt_congr (by rw [h.1]) (fun k hk => h.2 _ (htext k hk)) w).2 hw

/-- A running machine whose `pc` is at the word of a legal instruction in the text executes that instruction. -/
theorem step_of_wordAt {s : State} {w : Word} {i : Instr} (hs : s.status = .running) (haligned : s.pc.toNat % 4 = 0)
    (htext : s.inText s.pc.toNat = true) (hw : WordAt s s.pc.toNat w) (hd : decode s.launch.params.opc w = .legal i) :
    step s = exec i s := by
  have hfetch : fetch s = .word w := fetch_word.2 ⟨haligned, htext, ((wordAt_iff s s.pc w).1 hw).symm⟩
  rw [step_of_fetch_word hs hfetch, hd]

/-- Settles O19: the launch puts the words in place, no run changes them, and decoding undoes the encoding. -/
theorem everyFetchSeesTheLaunchedProgram : Obligations.EveryFetchSeesTheLaunchedProgram := by
  intro l s0 s k j hj hlaunch hrun
  obtain ⟨hwf, rfl⟩ := launch_next.1 hlaunch
  have hl := admitted_of_wf hwf
  have htext : ∀ k < 4, l.state.inText (l.textBase.toNat + 4 * j + k) = true := by
    intro k hk
    rw [inText_iff]
    change l.textBase.toNat ≤ _ ∧ _ < l.textBase.toNat + 4 * l.program.length
    omega
  have hsame := hrun.sameText
  have hword := hsame.wordAt htext (l.state_wordAt hj)
  refine ⟨hword, fun hs hpc => ?_⟩
  rw [← hpc] at hword
  have hbase := hl.base
  refine step_of_wordAt hs (by omega) ?_ hword ?_
  · rw [State.inText_congr hsame.1, hpc]; exact htext 0 (by omega)
  · rw [hsame.1]; exact decode_encode hl.opcodes (hl.program _ (List.getElem_mem hj))

/-! ## Fetch (20_memory.md R40) -/

theorem fetch_misaligned {s : State} (h : s.pc.toNat % 4 ≠ 0) : fetch s = .fault (.fetchFault s.pc .misaligned) := if_pos h

theorem fetch_outsideText {s : State} (h4 : s.pc.toNat % 4 = 0) (h : s.inText s.pc.toNat = false) :
    fetch s = .fault (.fetchFault s.pc .outsideText) := by
  simp [fetch, h4, h]

theorem fetch_wordAt {s : State} {w : Word} (h : fetch s = .word w) : WordAt s s.pc.toNat w := by
  obtain ⟨-, -, rfl⟩ := fetch_word.1 h
  exact (wordAt_iff s s.pc _).2 rfl

/-- Settles O12: the two fetch faults are taken by the step, and a fetched word stands at `pc`. -/
theorem fetchChecksThenReadsTheWord : Obligations.FetchChecksThenReadsTheWord := by
  intro s hs inside
  refine ⟨fun h4 => ?_, fun h4 hout => ?_, fun h4 hin => ?_⟩
  · exact stepFaults_raise (step_of_fetch_fault hs (fetch_misaligned h4))
  · have htext : s.inText s.pc.toNat = false := Bool.eq_false_iff.2 fun h => hout ((inText_iff s _).1 h)
    exact stepFaults_raise (step_of_fetch_fault hs (fetch_outsideText h4 htext))
  · have hfetch : fetch s = .word (s.loadWord s.pc) := fetch_word.2 ⟨h4, (inText_iff s _).2 hin, rfl⟩
    exact ⟨_, hfetch, fetch_wordAt hfetch⟩

/-! ## Which instructions reach memory (20_memory.md R32) -/

section MemoryKept
variable {s t : State} {r : RegNum}

theorem writeResult_mem {v : Word} (h : writeResult r v s = .next t) : t.mem = s.mem := by
  rw [writeResult_next.1 h]; simp

theorem writeDivResult_mem {d : DivResult} (h : writeDivResult r d s = .next t) : t.mem = s.mem := by
  rcases writeDivResult_next.1 h with ⟨v, -, rfl⟩ | ⟨-, rfl⟩ | ⟨-, rfl⟩ <;> simp

theorem writeEvenPair_mem {i : Instr} {a b : Word} (h : ifEvenPair r i s (writePair r a b s) = .next t) : t.mem = s.mem := by
  rcases ifEvenPair_next.1 h with ⟨-, h⟩ | ⟨-, rfl⟩
  · rw [writePair_next.1 h]; simp
  · simp

theorem load_mem {f : Option FaultReason} {v : Word} (h : ifNoFault f s (writeResult r v s) = .next t) : t.mem = s.mem := by
  rcases ifNoFault_next.1 h with ⟨-, h⟩ | ⟨f, -, rfl⟩
  · exact writeResult_mem h
  · simp

theorem linkAndGo_mem {taken : Bool} {target : Word} (h : linkAndGo r taken target s = .next t) : t.mem = s.mem := by
  rw [linkAndGo_next.1 h]; simp

theorem branchTo_mem {taken : Bool} {target : Word} (h : branchTo taken target s = .next t) : t.mem = s.mem := by
  rw [branchTo_next.1 h]; simp

end MemoryKept

/-- An instruction other than the stores and the exchange leaves memory as it was; one lemma per shape of a meaning. -/
theorem exec_mem {i : Instr} {s t : State} (h : exec i s = .next t) (hi : i.mnemonic ∉ [Mnemonic.st1, .st4, .ex4]) :
    t.mem = s.mem := by
  cases i
  case st1 | st4 | ex4 => simp [Instr.mnemonic] at hi
  case div | mod | divi | modi => exact writeDivResult_mem h
  case addo | subo | mulo | addio | subio | mulio => exact writeEvenPair_mem h
  case ld1 | ld4 => exact load_mem h
  case jez | jnz | bez | bnz => exact linkAndGo_mem h
  case bezi | bnzi => exact branchTo_mem h
  case cin r =>
    cases hq : s.cinQ with
    | nil => simp [exec, execCin, hq] at h
    | cons b rest =>
      simp only [exec, execCin, hq] at h
      exact (writeResult_mem h).trans (s.setCin_mem rest)
  case cout | halt => cases h; rfl
  all_goals exact writeResult_mem h

/-- Settles O20: what an address reads as depends on memory alone, which `exec_mem` keeps. -/
theorem onlyStoresChangeMemory : Obligations.OnlyStoresChangeMemory := by
  intro i s t h hi
  have hmem := exec_mem h hi
  exact ⟨hmem, fun a => by rw [State.byteAt, hmem, State.byteAt]⟩

/-! ## Regions (20_memory.md R31) -/

theorem backed_iff (s : State) (a : Nat) :
    s.backed a = true ↔ s.inText a = true ∨ ∃ r ∈ s.launch.data, r.lo ≤ a ∧ a < r.hi := by
  simp [State.backed, State.inData]

/-- In well-formed launch arguments the text and every data range start and end on a multiple of 4. -/
theorem Launched.aligned_of_wf {l : Launched} (h : l.wf = true) :
    l.textBase.toNat % 4 = 0 ∧ ∀ r ∈ l.data, r.lo % 4 = 0 ∧ r.hi % 4 = 0 := by
  simp only [Launched.wf, rangeWf, Bool.and_eq_true, decide_eq_true_eq, List.all_eq_true] at h
  obtain ⟨⟨⟨hbase, -⟩, hranges⟩, -⟩ := h
  exact ⟨hbase, fun r hr => (hranges r hr).1⟩

/-- A region whose ends are multiples of 4 holds all four bytes of an aligned word or none. -/
theorem aligned_word_in_range {lo hi a k : Nat} (hlo : lo % 4 = 0) (hhi : hi % 4 = 0) (ha : a % 4 = 0) (hk : k < 4) :
    (lo ≤ a + k ∧ a + k < hi) ↔ (lo ≤ a ∧ a < hi) := by
  omega

/-- The four bytes of an aligned word are all backed or none, and all in the text or none. -/
theorem aligned_word_in_region {s : State} {a k : Nat} (hs : State.wf s = true) (ha : a % 4 = 0) (hk : k < 4) :
    s.backed (a + k) = s.backed a ∧ s.inText (a + k) = s.inText a := by
  obtain ⟨-, -, hlaunch⟩ := s.wf_iff.1 hs
  obtain ⟨hbase, hranges⟩ := Launched.aligned_of_wf hlaunch
  have htext : s.inText (a + k) = true ↔ s.inText a = true := by
    rw [inText_iff, inText_iff]
    exact aligned_word_in_range hbase (by omega) ha hk
  have hdata : (∃ r ∈ s.launch.data, r.lo ≤ a + k ∧ a + k < r.hi) ↔ ∃ r ∈ s.launch.data, r.lo ≤ a ∧ a < r.hi :=
    exists_congr fun r => and_congr_right fun hr => aligned_word_in_range (hranges r hr).1 (hranges r hr).2 ha hk
  exact ⟨Bool.eq_iff_iff.2 (by rw [backed_iff, backed_iff, htext, hdata]), Bool.eq_iff_iff.2 htext⟩

/-- Settles O39: the ends of the text and of every data range of a well-formed state are multiples of 4. -/
theorem alignedWordsLieInOneRegion : Obligations.AlignedWordsLieInOneRegion :=
  fun s a => ⟨inText_iff s a, backed_iff s a, fun hs ha _ hk => aligned_word_in_region hs ha hk⟩

/-! ## The checks of an access, each at its place in the order (20_memory.md R36, R37) -/

section Checks
variable {s : State} {addr : Word}

theorem readFault_byte_unbacked (h : s.backed addr.toNat = false) : s.readFault addr .byte = some (.busFault addr) := by
  simp [State.readFault, h]

theorem readFault_word_misaligned (h : addr.toNat % 4 ≠ 0) : s.readFault addr .word = some (.alignmentFault addr) :=
  if_pos ⟨rfl, h⟩

/-- An aligned word that does not pass has an unbacked byte, since nothing else is checked. -/
theorem readFault_word_unbacked (h4 : addr.toNat % 4 = 0) (h : ¬∀ k < 4, s.backed (addr.toNat + k) = true) :
    s.readFault addr .word = some (.busFault addr) := by
  have hfails : s.readFault addr .word ≠ none := fun hnone => h (readFault_word_none.1 hnone).2
  unfold State.readFault at hfails ⊢
  rw [if_neg (by simp [h4])] at hfails ⊢
  split
  · rfl
  · rename_i hall
    exact absurd (if_neg hall) hfails

theorem writeFault_of_readFault {n : Width} {f : FaultReason} (h : s.readFault addr n = some f) :
    s.writeFault addr n = some f := by
  simp [State.writeFault, h]

theorem writeFault_text {n : Width} (h : s.readFault addr n = none) (ht : ∃ a ∈ accessed addr n, s.inText a = true) :
    s.writeFault addr n = some (.textWriteFault addr) := by
  have hany : (accessed addr n).any s.inText = true := List.any_eq_true.2 ht
  simp [State.writeFault, h, hany]

theorem writeFault_byte_none :
    s.writeFault addr .byte = none ↔ s.backed addr.toNat = true ∧ s.inText addr.toNat = false := by
  simp [writeFault_none, readFault_byte_none]

theorem mem_accessed_word {a : Nat} : a ∈ accessed addr .word ↔ ∃ k < 4, a = addr.toNat + k := by
  simp only [accessed_word, List.mem_cons, List.not_mem_nil, or_false]
  refine ⟨fun h => ⟨a - addr.toNat, by omega, by omega⟩, ?_⟩
  rintro ⟨k, hk, rfl⟩
  omega

theorem writeFault_word_text (h : s.readFault addr .word = none) (ht : ∃ k, k < 4 ∧ s.inText (addr.toNat + k) = true) :
    s.writeFault addr .word = some (.textWriteFault addr) := by
  obtain ⟨k, hk, ht⟩ := ht
  exact writeFault_text h ⟨_, mem_accessed_word.2 ⟨k, hk, rfl⟩, ht⟩

/-- A write of a word passes exactly when the word is aligned, backed and outside the text. -/
theorem writeFault_word_none :
    s.writeFault addr .word = none ↔ addr.toNat % 4 = 0 ∧ (∀ k < 4, s.backed (addr.toNat + k) = true) ∧
      ¬∃ k, k < 4 ∧ s.inText (addr.toNat + k) = true := by
  have hclear : (∀ a ∈ accessed addr .word, s.inText a = false) ↔ ¬∃ k, k < 4 ∧ s.inText (addr.toNat + k) = true := by
    simp only [mem_accessed_word, not_exists, not_and, Bool.not_eq_true]
    exact ⟨fun h k hk => h _ ⟨k, hk, rfl⟩, fun h _ ⟨k, hk, ha⟩ => ha ▸ h k hk⟩
  rw [writeFault_none, readFault_word_none, hclear, and_assoc]

end Checks

/-! ## Accesses -/

section Accesses
variable {i : Instr} {s : State} {f : Option FaultReason} {go : Result}

/-- An instruction whose check fails takes that fault and does nothing else (20_memory.md R38). -/
theorem execFaults_of_check {reason : FaultReason} (hi : exec i s = ifNoFault f s go) (hf : f = some reason) :
    ExecFaults i s reason := by
  subst hf
  exact execFaults_raise hi

theorem exec_of_check (hi : exec i s = ifNoFault f s go) (hf : f = none) : exec i s = go := by
  subst hf
  exact hi

/-- An access that leaves the machine running passed its checks. -/
theorem check_of_running {t : State} (hi : exec i s = ifNoFault f s go) (h : exec i s = .next t) (ht : t.status = .running) :
    f = none ∧ go = .next t := by
  rcases ifNoFault_next.1 (hi.symm.trans h) with hpass | ⟨reason, -, rfl⟩
  · exact hpass
  · cases ht

end Accesses

section Meanings
variable (a b : RegNum) (c : BitVec 8) (s : State)

theorem exec_ld1 : exec (.ld1 a b c) s = ifNoFault (s.readFault (s.effAddr b c) .byte) s
    (writeResult a ((s.loadByte (s.effAddr b c)).signExtend 32) s) := rfl

theorem exec_ld4 : exec (.ld4 a b c) s = ifNoFault (s.readFault (s.effAddr b c) .word) s
    (writeResult a (s.loadWord (s.effAddr b c)) s) := rfl

theorem exec_st1 : exec (.st1 a b c) s = ifNoFault (s.writeFault (s.effAddr b c) .byte) s
    (.next (s.storeByte (s.effAddr b c) ((s.reg a).extractLsb' 0 8)).advance) := rfl

theorem exec_st4 : exec (.st4 a b c) s = ifNoFault (s.writeFault (s.effAddr b c) .word) s
    (.next (s.storeWord (s.effAddr b c) (s.reg a)).advance) := rfl

end Meanings

/-- A load whose byte is backed writes that byte, sign-extended. -/
theorem ld1_completes {rdes src1 : RegNum} {c : BitVec 8} {s : State} (h : s.backed (s.effAddr src1 c).toNat = true) :
    Completes (.ld1 rdes src1 c) s fun t =>
      ∃ v : Word, v.toInt = (s.byteAt (s.effAddr src1 c).toNat).toInt ∧ OnlyWrites rdes v s t := by
  obtain ⟨t, ht, hwrites⟩ := completes_writeResult (exec_of_check (exec_ld1 rdes src1 c s) (readFault_byte_none.2 h))
  exact ⟨t, ht, _, BitVec.toInt_signExtend_of_le (by omega), hwrites⟩

/-- A load whose word is aligned and backed writes that word. -/
theorem ld4_completes {rdes src1 : RegNum} {c : BitVec 8} {s : State} (h4 : (s.effAddr src1 c).toNat % 4 = 0)
    (h : ∀ k < 4, s.backed ((s.effAddr src1 c).toNat + k) = true) :
    Completes (.ld4 rdes src1 c) s (OnlyWrites rdes (s.loadWord (s.effAddr src1 c)) s) :=
  completes_writeResult (exec_of_check (exec_ld4 rdes src1 c s) (readFault_word_none.2 ⟨h4, h⟩))

/-- Settles O40: the checks of `readFault` one by one, and the two loads that pass them. -/
theorem loadsFollowMemRead : Obligations.LoadsFollowMemRead := by
  intro rdes src1 c s addr a
  refine ⟨fun h => ?_, ld1_completes, fun h4 => ?_, fun h4 h => ?_, fun h4 h => ⟨accessed_end h4, ?_⟩⟩
  · exact execFaults_of_check (exec_ld1 rdes src1 c s) (readFault_byte_unbacked h)
  · exact execFaults_of_check (exec_ld4 rdes src1 c s) (readFault_word_misaligned h4)
  · obtain ⟨k, hk, hfalse⟩ := h
    have hnot : ¬∀ k < 4, s.backed (a + k) = true := fun hall => by simp [hall k hk] at hfalse
    exact execFaults_of_check (exec_ld4 rdes src1 c s) (readFault_word_unbacked h4 hnot)
  · obtain ⟨t, ht, hwrites⟩ := ld4_completes (rdes := rdes) h4 h
    exact ⟨t, ht, _, (wordAt_iff s addr _).2 rfl, hwrites⟩

/-! ## Stores -/

/-- The only effect is on the `n` bytes from `a`, and `pc` advances. -/
def OnlyStores (a n : Nat) (s t : State) : Prop :=
  SameBytesBut a n s t ∧ SameRegs s t ∧ t.pc = s.pc + 4 ∧ SameConsole s t ∧ SameRun s t

theorem onlyStores_storeByte (s : State) (addr : Word) (v : Byte) :
    OnlyStores addr.toNat 1 s (s.storeByte addr v).advance := by
  refine ⟨fun x hx => ?_, fun _ => rfl, rfl, ⟨rfl, rfl⟩, ⟨rfl, rfl⟩⟩
  rw [State.advance_byteAt, State.storeByte_byteAt, if_neg (by omega)]

theorem onlyStores_storeWord (s : State) (addr v : Word) : OnlyStores addr.toNat 4 s (s.storeWord addr v).advance :=
  ⟨fun x hx => s.storeWord_byteAt_outside addr v x hx, fun _ => rfl, rfl, ⟨rfl, rfl⟩, ⟨rfl, rfl⟩⟩

/-- Settles O41: the checks of `writeFault` one by one, and the two stores that pass them. -/
theorem storesFollowMemWrite : Obligations.StoresFollowMemWrite := by
  intro src1 src2 c s addr a rest all text
  refine ⟨fun h => ?_, fun h ht => ?_, fun h ht => ?_, fun h4 => ?_, fun h4 h => ?_, fun h4 h ht => ?_, fun h4 h ht => ?_,
    fun hs h4 k hk => aligned_word_in_region hs h4 hk⟩
  · exact execFaults_of_check (exec_st1 src1 src2 c s) (writeFault_of_readFault (readFault_byte_unbacked h))
  · exact execFaults_of_check (exec_st1 src1 src2 c s) (writeFault_text (readFault_byte_none.2 h) ⟨a, by simp [a, addr], ht⟩)
  · refine ⟨_, exec_of_check (exec_st1 src1 src2 c s) (writeFault_byte_none.2 ⟨h, ht⟩), ?_, onlyStores_storeByte s addr _⟩
    simp [a, addr]
  · exact execFaults_of_check (exec_st4 src1 src2 c s) (writeFault_of_readFault (readFault_word_misaligned h4))
  · exact execFaults_of_check (exec_st4 src1 src2 c s) (writeFault_of_readFault (readFault_word_unbacked h4 h))
  · exact execFaults_of_check (exec_st4 src1 src2 c s) (writeFault_word_text (readFault_word_none.2 ⟨h4, h⟩) ht)
  · exact ⟨_, exec_of_check (exec_st4 src1 src2 c s) (writeFault_word_none.2 ⟨h4, h, ht⟩), wordAt_storeWord s addr _,
      onlyStores_storeWord s addr _⟩

/-! ## Accesses of mixed width (20_memory.md R35) -/

/-- `t` is `s` with the byte `v` stored at the backed address `addr`, as far as later accesses can tell. -/
structure ByteStored (addr : Word) (v : Byte) (s t : State) : Prop where
  backed : s.backed addr.toNat = true
  byteAt : ∀ x, t.byteAt x = if x = addr.toNat then v else s.byteAt x
  regs : SameRegs s t
  launch : t.launch = s.launch

section ByteStored
variable {addr : Word} {v : Byte} {s t : State}

theorem ByteStored.effAddr (h : ByteStored addr v s t) (base : RegNum) (c : BitVec 8) : t.effAddr base c = s.effAddr base c := by
  rw [State.effAddr, State.effAddr, State.imm, State.imm, h.regs, h.launch]

theorem ByteStored.backed_eq (h : ByteStored addr v s t) (a : Nat) : t.backed a = s.backed a := by
  rw [State.backed, State.backed, State.inText, State.inText, State.inData, State.inData, h.launch]

end ByteStored

/-- A `st1` that leaves the machine running stored the low byte at a backed address. -/
theorem st1_running {src1 src2 : RegNum} {c : BitVec 8} {s t : State} (h : exec (.st1 src1 src2 c) s = .next t)
    (ht : t.status = .running) : ByteStored (s.effAddr src2 c) ((s.reg src1).setWidth 8) s t := by
  obtain ⟨hf, hgo⟩ := check_of_running (exec_st1 src1 src2 c s) h ht
  obtain ⟨hbacked, -⟩ := writeFault_byte_none.1 hf
  cases hgo
  refine ⟨hbacked, fun x => ?_, fun _ => rfl, rfl⟩
  rw [State.advance_byteAt, State.storeByte_byteAt, BitVec.setWidth_eq_extractLsb' (by omega)]

/-- A `st4` that leaves the machine running stored the word at a backed address. -/
theorem st4_running {src1 src2 : RegNum} {c : BitVec 8} {s t : State} (h : exec (.st4 src1 src2 c) s = .next t)
    (ht : t.status = .running) :
    (∀ k < 4, s.backed ((s.effAddr src2 c).toNat + k) = true) ∧
      t = (s.storeWord (s.effAddr src2 c) (s.reg src1)).advance := by
  obtain ⟨hf, hgo⟩ := check_of_running (exec_st4 src1 src2 c s) h ht
  obtain ⟨-, hbacked, -⟩ := writeFault_word_none.1 hf
  cases hgo
  exact ⟨hbacked, rfl⟩

/-- Each byte of a word that `st4` stored reads back with `ld1`, sign-extended. -/
theorem ld1_after_st4 {src1 src2 rdes base : RegNum} {c d : BitVec 8} {s t : State} {i : Nat}
    (h : exec (.st4 src1 src2 c) s = .next t) (ht : t.status = .running) (hi : i < 4)
    (haddr : (t.effAddr base d).toNat = (s.effAddr src2 c).toNat + i) :
    Completes (.ld1 rdes base d) t fun u => ∃ v : Word,
      v.toInt = (byteOfWord s.launch.params.byteOrder (s.reg src1) i).toInt ∧ OnlyWrites rdes v t u := by
  obtain ⟨hbacked, rfl⟩ := st4_running h ht
  have hload := ld1_completes (rdes := rdes)
    (s := (s.storeWord (s.effAddr src2 c) (s.reg src1)).advance) (src1 := base) (c := d) (by rw [haddr]; exact hbacked i hi)
  rwa [haddr, State.advance_byteAt, State.storeWord_byteAt_inside _ _ _ i hi] at hload

/-- Four `st1` to the bytes of an aligned word make the word that `ld4` reads. -/
theorem ld4_after_st1 {v0 v1 v2 v3 base rdes : RegNum} {c0 c1 c2 c3 : BitVec 8} {s t0 t1 t2 t3 : State}
    (h4 : (s.effAddr base c0).toNat % 4 = 0) (ha1 : (s.effAddr base c1).toNat = (s.effAddr base c0).toNat + 1)
    (ha2 : (s.effAddr base c2).toNat = (s.effAddr base c0).toNat + 2)
    (ha3 : (s.effAddr base c3).toNat = (s.effAddr base c0).toNat + 3)
    (h0 : exec (.st1 v0 base c0) s = .next t0) (hr0 : t0.status = .running)
    (h1 : exec (.st1 v1 base c1) t0 = .next t1) (hr1 : t1.status = .running)
    (h2 : exec (.st1 v2 base c2) t1 = .next t2) (hr2 : t2.status = .running)
    (h3 : exec (.st1 v3 base c3) t2 = .next t3) (hr3 : t3.status = .running) :
    Completes (.ld4 rdes base c0) t3 (OnlyWrites rdes (wordOfBytes s.launch.params.byteOrder ((s.reg v0).setWidth 8)
      ((s.reg v1).setWidth 8) ((s.reg v2).setWidth 8) ((s.reg v3).setWidth 8)) t3) := by
  have s0 := st1_running h0 hr0
  have s1 := st1_running h1 hr1
  have s2 := st1_running h2 hr2
  have s3 := st1_running h3 hr3
  rw [s0.effAddr, s0.regs] at s1
  rw [s1.effAddr, s0.effAddr, s1.regs, s0.regs] at s2
  rw [s2.effAddr, s1.effAddr, s0.effAddr, s2.regs, s1.regs, s0.regs] at s3
  have haddr : t3.effAddr base c0 = s.effAddr base c0 := by rw [s3.effAddr, s2.effAddr, s1.effAddr, s0.effAddr]
  have hbacked : ∀ k < 4, t3.backed ((s.effAddr base c0).toNat + k) = true := by
    intro k hk
    rw [s3.backed_eq]
    interval_cases k
    · rw [s2.backed_eq, s1.backed_eq, s0.backed_eq]; exact s0.backed
    · rw [s2.backed_eq, s1.backed_eq, ← ha1]; exact s1.backed
    · rw [s2.backed_eq, ← ha2]; exact s2.backed
    · rw [← ha3]; exact s3.backed
  have hword : t3.loadWord (s.effAddr base c0) = wordOfBytes s.launch.params.byteOrder ((s.reg v0).setWidth 8)
      ((s.reg v1).setWidth 8) ((s.reg v2).setWidth 8) ((s.reg v3).setWidth 8) := by
    rw [State.loadWord, s3.launch, s2.launch, s1.launch, s0.launch]
    simp [s3.byteAt, s2.byteAt, s1.byteAt, s0.byteAt, ha1, ha2, ha3]
  have hload := ld4_completes (rdes := rdes) (s := t3) (src1 := base) (c := c0) (by rwa [haddr]) (by rwa [haddr])
  rwa [haddr, hword] at hload

/-- Settles O44: a byte of a stored word by `ld1_after_st4`, a word of stored bytes by `ld4_after_st1`. -/
theorem mixedWidthAccess : Obligations.MixedWidthAccess := by
  refine ⟨fun src1 src2 rdes base c d s t i _ h ht hi haddr => ?_, ?_⟩
  · obtain ⟨u, hu, v, hv, hwrites⟩ := ld1_after_st4 (rdes := rdes) h ht hi haddr
    refine ⟨u, hu, v, hv.trans ?_, hwrites⟩
    unfold byteOfWord
    cases s.launch.params.byteOrder
    · have hlow : 8 * (3 - i) = 24 - 8 * i := by omega
      simp only [hlow]
    · rfl
  · intro v0 v1 v2 v3 base rdes c0 c1 c2 c3 s t0 t1 t2 t3 _ a h4 ha1 ha2 ha3 h0 hr0 h1 hr1 h2 hr2 h3 hr3 b
    have hload := ld4_after_st1 (rdes := rdes) h4 ha1 ha2 ha3 h0 hr0 h1 hr1 h2 hr2 h3 hr3
    unfold wordOfBytes at hload
    exact hload

/-! ## Effective addresses (20_memory.md R39) -/

theorem effAddr_toNat_of_sign {s : State} (h : s.launch.params.imm8Ext = .sign) (base : RegNum) (c : BitVec 8) :
    ((s.effAddr base c).toNat : Int) = ((s.reg base).toNat + c.toInt) % 2 ^ 32 := by
  have himm : s.imm c = BitVec.ofInt 32 c.toInt := by rw [State.imm, h]; rfl
  rw [State.effAddr, himm, BitVec.toNat_add, BitVec.toNat_ofInt]
  omega

theorem effAddr_toNat_of_zero {s : State} (h : s.launch.params.imm8Ext = .zero) (base : RegNum) (c : BitVec 8) :
    (s.effAddr base c).toNat = ((s.reg base).toNat + c.toNat) % 2 ^ 32 := by
  have himm : s.imm c = c.setWidth 32 := by rw [State.imm, h]; rfl
  rw [State.effAddr, himm, BitVec.toNat_add, BitVec.toNat_setWidth_of_le (by omega)]

/-- Settles O38: one lemma for each extension of the offset. -/
theorem effectiveAddressWraps : Obligations.EffectiveAddressWraps :=
  fun _ base c => ⟨fun h => effAddr_toNat_of_sign h base c, fun h => effAddr_toNat_of_zero h base c⟩

/-! ## The byte order (20_memory.md R34) -/

/-- Settles O43: the bytes of a stored word as quotients, the fetched word from `fetch_wordAt`, and the launch arguments, the byte
order among them, kept by every effect. -/
theorem byteOrderOfStoredWord : Obligations.ByteOrderOfStoredWord := by
  intro s addr v b
  have hv := v.isLt
  have hb (k : Nat) (hk : k < 4) : b k = (byteOfWord s.launch.params.byteOrder v k).toNat :=
    congrArg BitVec.toNat (s.storeWord_byteAt_inside addr v k hk)
  refine ⟨fun ho => ?_, fun ho => ?_, fun w => fetch_wordAt, fun t h => by rw [(step_effect h).launch]⟩
  · rw [hb 0 (by omega), hb 1 (by omega), hb 2 (by omega), hb 3 (by omega), ho]
    simp only [byteOfWord_big_toNat, Nat.reduceSub, Nat.reduceMul, Nat.reducePow, Nat.div_one, and_true]
    omega
  · rw [hb 0 (by omega), hb 1 (by omega), hb 2 (by omega), hb 3 (by omega), ho]
    simp only [byteOfWord_little_toNat, Nat.reduceMul, Nat.reducePow, Nat.div_one, true_and]
    omega

end Sys2Proof.Machine
end

section
/-! The instruction word (30_encoding.md): decoding and encoding undo each other, the masks of the opcode table and the reasons of R59
say the same of the fields, and what the assembler accepts is legal and of a known length. -/

namespace Sys2Proof

open Laws.EncodedFields (Fields)

/-! ## The instruction that the fields of a word hold (R52, R56) -/

@[simp] theorem instrOfFields_mnemonic (m : Mnemonic) (w : Word) : (instrOfFields m w).mnemonic = m := by cases m <;> rfl

/-- Only the six "o" operations ask anything of their operands, and it is what R59 (d) asks of the word. -/
theorem instrOfFields_wf (m : Mnemonic) (w : Word) : (instrOfFields m w).wf = !oddPairField m w := by
  cases m
  case addo | subo | mulo | addio | subio | mulio => exact regOfField_isEven (fieldA w)
  all_goals rfl

/-! One lemma per format: the fields give the word back. -/

theorem wordRRR_fields {w : Word} (h : registerNumberBad .rrr w = false) : wordRRR (fieldOp w) (regA w) (regB w) (regC w) = w := by
  simp only [registerNumberBad, Bool.or_eq_false_iff] at h
  obtain ⟨⟨ha, hb⟩, hc⟩ := h
  apply word_ext_fields <;> simp [regA, regB, regC, fieldOfReg_regOfField, ha, hb, hc]

theorem wordRRI_fields {w : Word} (h : registerNumberBad .rri w = false) : wordRRI (fieldOp w) (regA w) (regB w) (fieldC w) = w := by
  simp only [registerNumberBad, Bool.or_eq_false_iff] at h
  obtain ⟨ha, hb⟩ := h
  apply word_ext_fields <;> simp [regA, regB, fieldOfReg_regOfField, ha, hb]

theorem wordRH_fields {w : Word} (h : registerNumberBad .rh w = false) : wordRH (fieldOp w) (regA w) (fieldH w) = w := by
  have hA : fieldOfReg (regA w) = fieldA w := fieldOfReg_regOfField h
  have hB : (fieldH w).extractLsb' 8 8 = fieldB w := by rw [fieldH_eq]; exact BitVec.extractLsb'_append_eq_left
  have hC : (fieldH w).extractLsb' 0 8 = fieldC w := by rw [fieldH_eq]; exact BitVec.extractLsb'_append_eq_right
  rw [wordRH_eq, hA, hB, hC]
  obtain ⟨ho, ha, hb, hc⟩ := fields_append (fieldOp w) (fieldA w) (fieldB w) (fieldC w)
  exact word_ext_fields ho ha hb hc

theorem wordR_fields {w : Word} (hr : reservedFieldSet .r w = false) (h : registerNumberBad .r w = false) :
    wordR (fieldOp w) (regA w) = w := by
  simp only [reservedFieldSet, Bool.or_eq_false_iff, bne_eq_false_iff_eq] at hr
  obtain ⟨hb, hc⟩ := hr
  apply word_ext_fields <;> simp [regA, fieldOfReg_regOfField h, hb, hc]

theorem wordN_fields {w : Word} (hr : reservedFieldSet .n w = false) : wordN (fieldOp w) = w := by
  simp only [reservedFieldSet, Bool.or_eq_false_iff, bne_eq_false_iff_eq] at hr
  obtain ⟨⟨ha, hb⟩, hc⟩ := hr
  apply word_ext_fields <;> simp [ha, hb, hc]

/-- A word that passes the checks of R59 for a mnemonic is the word of the instruction its fields hold. -/
theorem encode_instrOfFields {opc : Opcodes} {m : Mnemonic} {w : Word} (hw : Fields opc m m.format w) :
    encode opc (instrOfFields m w) = w := by
  obtain ⟨hop, hreserved, hregister, -⟩ := hw
  cases m
  all_goals simp only [instrOfFields, encode, ← hop]
  case lch | lcl | bezi | bnzi => exact wordRH_fields hregister
  case addi | subi | muli | divi | modi | addio | subio | mulio | shli | shri | shrui => exact wordRRI_fields hregister
  case st1 | st4 | ld1 | ld4 | ex4 => exact wordRRI_fields hregister
  case cin | cout => exact wordR_fields hreserved hregister
  case halt => exact wordN_fields hreserved
  all_goals exact wordRRR_fields hregister

/-! ## Decoding read in both directions (R58) -/

/-- What decoding answers for a word whose opcode is that of `m`: the checks of R59 in their order. -/
theorem decode_of_code {opc : Opcodes} {m : Mnemonic} {w : Word} (hopc : Opcodes.injective opc = true) (hm : opc.code m = fieldOp w) :
    decode opc w =
      if reservedFieldSet m.format w then .illegal .reservedField
      else if registerNumberBad m.format w then .illegal .registerNumber
      else if oddPairField m w then .illegal .oddPair
      else .legal (instrOfFields m w) := by
  rw [decode, ← hm, Opcodes.mnemonic?_code hopc]

/-- A legal word passes the checks of R59 for one mnemonic and decodes to the instruction its fields hold. -/
theorem decode_legal {opc : Opcodes} {w : Word} {i : Instr} (h : decode opc w = .legal i) :
    ∃ m, Fields opc m m.format w ∧ i = instrOfFields m w := by
  unfold decode at h
  split at h
  · cases h
  · rename_i m hm
    refine ⟨m, ?_⟩
    split_ifs at h with hreserved hregister hpair
    cases h
    exact ⟨⟨(Opcodes.code_of_mnemonic? hm).symm, by simpa using hreserved, by simpa using hregister, by simpa using hpair⟩, rfl⟩

/-- Decoding answers an instruction exactly when it is well formed and the word is its word. -/
theorem decode_legal_iff {opc : Opcodes} {w : Word} {i : Instr} (hopc : Opcodes.injective opc = true) :
    decode opc w = .legal i ↔ i.wf = true ∧ encode opc i = w := by
  constructor
  · intro h
    obtain ⟨m, hw, rfl⟩ := decode_legal h
    have ⟨_, _, _, hpair⟩ := hw
    exact ⟨by simp [instrOfFields_wf, hpair], encode_instrOfFields hw⟩
  · rintro ⟨hi, rfl⟩
    exact decode_encode hopc hi

/-- Settles O1: `decode_encode`, from the fields of an encoded word. -/
theorem encodeThenDecode : Obligations.EncodeThenDecode := fun _ _ hopc hi => decode_encode hopc hi

/-- Settles O2: what decoding answers, read by `decode_legal_iff`, which makes it the only instruction with that word. -/
theorem everyWordIsOneInstructionOrIllegal : Obligations.EveryWordIsOneInstructionOrIllegal := by
  intro opc w hopc
  cases hd : decode opc w with
  | legal i =>
    obtain ⟨hi, hw⟩ := (decode_legal_iff hopc).1 hd
    refine .inl ⟨i, rfl, hi, hw, fun j hj hjw => ?_⟩
    rw [(decode_legal_iff hopc).2 ⟨hj, hjw⟩] at hd
    exact Decoded.legal.inj hd
  | illegal why =>
    refine .inr ⟨why, rfl, fun i hi hiw => ?_⟩
    rw [(decode_legal_iff hopc).2 ⟨hi, hiw⟩] at hd
    cases hd

/-! ## The default words (R57) -/

/-- Settles O3: each word by its format, with the number the default map gives its mnemonic. -/
theorem defaultWordOfEveryInstruction : Obligations.DefaultWordOfEveryInstruction := by
  intro a b c k h
  have hR (op : BitVec 8) : wordR op a = op ++ (0#2 ++ a) ++ 0#16 := BitVec.append_assoc (x₂ := 0#8) (x₃ := 0#8)
  have hN : wordN 0xA0 = 0xA0000000 := by decide
  simp only [encode, defaultOpcodes_code, defaultCode, wordRRR, wordRRI, wordRH, hR, hN, fieldOfReg, and_self]

/-! ## The opcode table (R56) -/

/-- The bits of the field `A` that a row of the table fixes: all where the format has no operand, else the two above a register
number and, for an "o" operation, the lowest (R52, R59). -/
def maskA (f : Format) (pair : Bool) : BitVec 8 :=
  match f with
  | .n => 0xFF
  | .rrr | .rri | .rh | .r => if pair then 0xC1 else 0xC0

/-- The bits of the field `B` that a row of the table fixes. -/
def maskB (f : Format) : BitVec 8 :=
  match f with
  | .rrr | .rri => 0xC0
  | .rh => 0
  | .r | .n => 0xFF

/-- The bits of the field `C` that a row of the table fixes. -/
def maskC (f : Format) : BitVec 8 :=
  match f with
  | .rrr => 0xC0
  | .rri | .rh => 0
  | .r | .n => 0xFF

/-- The row of the opcode table that the default number and the format of a mnemonic give. -/
def tableRow (m : Mnemonic) : OpcodeRow where
  mnemonic := m
  pattern := defaultCode m ++ 0#8 ++ 0#8 ++ 0#8
  mask := 0xFF#8 ++ maskA m.format m.writesPair ++ maskB m.format ++ maskC m.format

theorem opcodeRows_eq : opcodeRows = Mnemonic.all.map tableRow := by decide

theorem mem_opcodeRows {row : OpcodeRow} : row ∈ opcodeRows ↔ ∃ m, row = tableRow m := by
  simp [opcodeRows_eq, Mnemonic.mem_all, eq_comm]

theorem and_eq_iff_fields {w mask pattern : Word} :
    w &&& mask = pattern ↔ fieldOp w &&& fieldOp mask = fieldOp pattern ∧ fieldA w &&& fieldA mask = fieldA pattern ∧
      fieldB w &&& fieldB mask = fieldB pattern ∧ fieldC w &&& fieldC mask = fieldC pattern := by
  have hop : fieldOp (w &&& mask) = fieldOp w &&& fieldOp mask := BitVec.extractLsb'_and
  have ha : fieldA (w &&& mask) = fieldA w &&& fieldA mask := BitVec.extractLsb'_and
  have hb : fieldB (w &&& mask) = fieldB w &&& fieldB mask := BitVec.extractLsb'_and
  have hc : fieldC (w &&& mask) = fieldC w &&& fieldC mask := BitVec.extractLsb'_and
  rw [← hop, ← ha, ← hb, ← hc]
  exact ⟨by rintro rfl; simp, fun ⟨ho, ha, hb, hc⟩ => word_ext_fields ho ha hb hc⟩

/-! What the masks ask of one byte. -/

theorem and_FF (f : BitVec 8) : f &&& 0xFF#8 = f := BitVec.and_allOnes

theorem and_C0_eq_zero (f : BitVec 8) : f &&& 0xC0#8 = 0#8 ↔ notARegister f = false := by revert f; decide

theorem and_C1_eq_zero (f : BitVec 8) : f &&& 0xC1#8 = 0#8 ↔ notARegister f = false ∧ f.getLsbD 0 = false := by
  revert f; decide

theorem and_maskA_eq_zero {fmt : Format} (hf : fmt ≠ .n) (pair : Bool) (f : BitVec 8) :
    f &&& maskA fmt pair = 0#8 ↔ notARegister f = false ∧ (pair && f.getLsbD 0) = false := by
  have hmask : maskA fmt pair = if pair then 0xC1#8 else 0xC0#8 := by
    cases fmt
    case n => exact absurd rfl hf
    all_goals rfl
  cases pair
  · simp [hmask, and_C0_eq_zero]
  · simp [hmask, and_C1_eq_zero]

/-- The masks of a format ask what the checks of R59 (b) to (d) ask. -/
theorem masks_iff_checks (m : Mnemonic) (f : Format) (w : Word) :
    fieldA w &&& maskA f m.writesPair = 0#8 ∧ fieldB w &&& maskB f = 0#8 ∧ fieldC w &&& maskC f = 0#8 ↔
      reservedFieldSet f w = false ∧ registerNumberBad f w = false ∧ oddPairField m w = false := by
  cases f
  case n =>
    have hodd : fieldA w = 0#8 → oddPairField m w = false := fun h => by simp [oddPairField, h]
    simp [maskA, maskB, maskC, reservedFieldSet, registerNumberBad, and_FF, and_assoc]
    exact fun ha _ _ => hodd ha
  all_goals rw [and_maskA_eq_zero (by decide)]
  case rrr => simp [maskB, maskC, and_C0_eq_zero, reservedFieldSet, registerNumberBad, oddPairField, and_assoc, and_comm,
      and_left_comm]
  case rri => simp [maskB, maskC, and_C0_eq_zero, reservedFieldSet, registerNumberBad, oddPairField, and_assoc, and_comm,
      and_left_comm]
  case rh => simp [maskB, maskC, reservedFieldSet, registerNumberBad, oddPairField]
  case r => simp [maskB, maskC, and_FF, reservedFieldSet, registerNumberBad, oddPairField, and_assoc, and_comm]

/-- A word matches the row of a mnemonic exactly when its fields pass the checks of R59 for that mnemonic. -/
theorem matches_tableRow_iff (m : Mnemonic) (w : Word) :
    w &&& (tableRow m).mask = (tableRow m).pattern ↔ Fields defaultOpcodes m m.format w := by
  obtain ⟨hmo, hma, hmb, hmc⟩ := fields_append 0xFF#8 (maskA m.format m.writesPair) (maskB m.format) (maskC m.format)
  obtain ⟨hpo, hpa, hpb, hpc⟩ := fields_append (defaultCode m) 0#8 0#8 0#8
  simp only [and_eq_iff_fields, tableRow, hmo, hma, hmb, hmc, hpo, hpa, hpb, hpc, Fields, defaultOpcodes_code]
  exact and_congr (by rw [and_FF]) (masks_iff_checks m m.format w)

/-- A word that matches the row of a mnemonic decodes to the instruction of that mnemonic that its fields hold. -/
theorem decode_of_matches {m : Mnemonic} {w : Word} (h : w &&& (tableRow m).mask = (tableRow m).pattern) :
    decode defaultOpcodes w = .legal (instrOfFields m w) :=
  decode_of_fields defaultOpcodes_injective ((matches_tableRow_iff m w).1 h)

/-- Settles O4: the rows are those of `tableRow`, and matching one is passing the checks of decoding. -/
theorem defaultDecodingFollowsOpcodeTable : Obligations.DefaultDecodingFollowsOpcodeTable := by
  intro w
  refine ⟨⟨fun ⟨i, hi⟩ => ?_, fun ⟨row, hrow, h⟩ => ?_⟩, fun row hrow h => ?_, fun row hrow row' hrow' h h' => ?_⟩
  · obtain ⟨m, hw, -⟩ := decode_legal hi
    exact ⟨tableRow m, mem_opcodeRows.2 ⟨m, rfl⟩, (matches_tableRow_iff m w).2 hw⟩
  · obtain ⟨m, rfl⟩ := mem_opcodeRows.1 hrow
    exact ⟨_, decode_of_matches h⟩
  · obtain ⟨m, rfl⟩ := mem_opcodeRows.1 hrow
    exact ⟨_, decode_of_matches h, instrOfFields_mnemonic m w⟩
  · obtain ⟨m, rfl⟩ := mem_opcodeRows.1 hrow
    obtain ⟨m', rfl⟩ := mem_opcodeRows.1 hrow'
    obtain ⟨hop, -⟩ := (matches_tableRow_iff m w).1 h
    obtain ⟨hop', -⟩ := (matches_tableRow_iff m' w).1 h'
    rw [Opcodes.code_injective defaultOpcodes_injective (hop.symm.trans hop')]

/-! ## The reasons of R59 in numbers -/

theorem notARegister_iff (f : BitVec 8) : notARegister f = true ↔ 64 ≤ f.toNat := decide_eq_true_iff

theorem bne_zero_iff_toNat (f : BitVec 8) : (f != 0) = true ↔ f.toNat ≠ 0 := by
  rw [bne_iff_ne, ne_eq, BitVec.toNat_eq]; rfl

theorem reservedFieldSet_iff (f : Format) (w : Word) :
    reservedFieldSet f w = true ↔ f = .r ∧ ((fieldB w).toNat ≠ 0 ∨ (fieldC w).toNat ≠ 0) ∨
      f = .n ∧ ((fieldA w).toNat ≠ 0 ∨ (fieldB w).toNat ≠ 0 ∨ (fieldC w).toNat ≠ 0) := by
  cases f <;> simp only [reservedFieldSet, Bool.or_eq_true, bne_zero_iff_toNat] <;> simp [or_assoc]

theorem registerNumberBad_iff (f : Format) (w : Word) :
    registerNumberBad f w = true ↔ f = .rrr ∧ (64 ≤ (fieldA w).toNat ∨ 64 ≤ (fieldB w).toNat ∨ 64 ≤ (fieldC w).toNat) ∨
      f = .rri ∧ (64 ≤ (fieldA w).toNat ∨ 64 ≤ (fieldB w).toNat) ∨ (f = .rh ∨ f = .r) ∧ 64 ≤ (fieldA w).toNat := by
  cases f <;> simp [registerNumberBad, notARegister_iff, or_assoc]

theorem writesPair_iff (m : Mnemonic) :
    m.writesPair = true ↔ m ∈ [Mnemonic.addo, .addio, .subo, .subio, .mulo, .mulio] := by
  cases m <;> decide

theorem oddPairField_iff (m : Mnemonic) (w : Word) :
    oddPairField m w = true ↔ m ∈ [Mnemonic.addo, .addio, .subo, .subio, .mulo, .mulio] ∧ (fieldA w).toNat % 2 = 1 := by
  have hbit (f : BitVec 8) : f.getLsbD 0 = true ↔ f.toNat % 2 = 1 := by revert f; decide
  rw [oddPairField, Bool.and_eq_true, writesPair_iff, hbit]

theorem isSome_mnemonic?_iff {opc : Opcodes} {op : BitVec 8} : (opc.mnemonic? op).isSome = true ↔ ∃ m, opc.code m = op := by
  rw [← not_iff_not, Bool.not_eq_true, Option.isSome_eq_false_iff, Option.isNone_iff_eq_none, Opcodes.mnemonic?_none, not_exists]

/-- The defined opcodes are the numbers of the 47 mnemonics. -/
theorem filter_defined_perm {opc : Opcodes} (hopc : Opcodes.injective opc = true) :
    List.Perm ((List.range 256).filter fun op => (opc.mnemonic? (BitVec.ofNat 8 op)).isSome)
      (Mnemonic.all.map fun m => (opc.code m).toNat) := by
  have hall : Mnemonic.all.Nodup := by decide
  have hinj : Function.Injective fun m => (opc.code m).toNat :=
    fun m n h => Opcodes.code_injective hopc (BitVec.eq_of_toNat_eq h)
  refine (List.perm_ext_iff_of_nodup (List.nodup_range.filter _) (hall.map hinj)).2 fun op => ?_
  simp only [List.mem_filter, List.mem_range, isSome_mnemonic?_iff, List.mem_map, Mnemonic.mem_all, true_and]
  constructor
  · rintro ⟨hop, m, hm⟩
    exact ⟨m, by rw [hm, BitVec.toNat_ofNat, Nat.mod_eq_of_lt hop]⟩
  · rintro ⟨m, rfl⟩
    exact ⟨(opc.code m).isLt, m, by simp⟩

/-- An injective opcode map leaves all but 47 of the 256 opcodes undefined. -/
theorem countP_undefined {opc : Opcodes} (hopc : Opcodes.injective opc = true) :
    (List.range 256).countP (fun op => (opc.mnemonic? (BitVec.ofNat 8 op)).isNone) = 209 := by
  have hsplit := List.length_eq_countP_add_countP (fun op => (opc.mnemonic? (BitVec.ofNat 8 op)).isSome) (l := List.range 256)
  have hdefined := (filter_defined_perm hopc).length_eq
  rw [← List.countP_eq_length_filter, List.length_map, show Mnemonic.all.length = 47 from rfl] at hdefined
  simp only [hdefined, List.length_range, Bool.not_eq_true, Option.isSome_eq_false_iff, Bool.decide_eq_true] at hsplit
  omega

/-! ## The example words of the spec -/

/-- Settles O6: each word is decoded. -/
theorem specExampleWordsDecode : Obligations.SpecExampleWordsDecode := by
  unfold Obligations.SpecExampleWordsDecode
  decide

end Sys2Proof

namespace Sys2Proof.Machine

/-! ## What the assembler accepts (R59, R62) -/

/-- If the assembler answers a program, it is `n` instructions and each of them is legal. -/
def AcceptsLegal (n : Nat) (answer : Assembled) : Prop := ∀ is, answer = .ok is → is.length = n ∧ ∀ i ∈ is, i.wf = true

section
variable {n : Nat} {p : Params} {syms : Symbols} {here : Word} {c : Const} {m : Mnemonic} {rdes src1 : RegNum}

theorem acceptsLegal_refused (why : AsmError) : AcceptsLegal n (.refused why) := fun _ h => by cases h

theorem acceptsLegal_ok {is : List Instr} (hn : is.length = n) (hw : ∀ i ∈ is, i.wf = true) : AcceptsLegal n (.ok is) := by
  rintro _ ⟨⟩; exact ⟨hn, hw⟩

theorem acceptsLegal_one {i : Instr} (hi : i.wf = true) : AcceptsLegal 1 (.ok [i]) :=
  acceptsLegal_ok rfl fun _ hj => by rwa [List.mem_singleton.1 hj]

theorem acceptsLegal_native (i : Instr) : AcceptsLegal 1 (native i) := fun is h => by
  obtain ⟨rfl, hi⟩ := native_ok h
  exact acceptsLegal_one hi _ rfl

theorem acceptsLegal_constValue {use : Word → Assembled} (h : ∀ k, AcceptsLegal n (use k)) :
    AcceptsLegal n (constValue syms c use) := fun is hok => by
  obtain ⟨k, -, hk⟩ := constValue_ok hok
  exact h k is hk

theorem loadBoth_wf (r : RegNum) (k : Word) : ∀ i ∈ loadBoth r k, i.wf = true := by simp [loadBoth, Instr.wf]

theorem acceptsLegal_withScratch {regs : List RegNum} {last : Instr} (hlast : last.wf = true) :
    AcceptsLegal (loadSize c + 1) (withScratch syms regs c last) := fun is h => by
  obtain ⟨k, -, rfl⟩ := withScratch_ok h
  refine ⟨by simp, fun i hi => ?_⟩
  rcases List.mem_append.1 hi with hi | hi
  · exact load32_wf c k i hi
  · rwa [List.mem_singleton.1 hi]

/-- A literal in the `const8` range takes the native form, any other constant the one with the scratch register. -/
theorem acceptsLegal_immediate (short : BitVec 8 → Instr) (long : Instr) :
    AcceptsLegal (if fitsConst8 p c then 1 else loadSize c + 1) (immediate p syms rdes src1 c short long) := by
  have hwide : AcceptsLegal (loadSize c + 1)
      (if long.wf then withScratch syms [rdes, src1] c long else .refused .oddDestination) := by
    split
    · next hlong => exact acceptsLegal_withScratch hlong
    · exact acceptsLegal_refused _
  unfold immediate
  cases c with
  | label name => exact hwide
  | lit v =>
    cases hk : const8Field p.imm8Ext v with
    | some k => simpa [fitsConst8, hk] using acceptsLegal_native (short k)
    | none => simpa [fitsConst8, hk] using hwide

theorem acceptsLegal_nativeConst8 (i : BitVec 8 → Instr) : AcceptsLegal 1 (nativeConst8 p c i) := by
  unfold nativeConst8
  split
  · split
    · exact acceptsLegal_native _
    · exact acceptsLegal_refused _
  · exact acceptsLegal_refused _

theorem acceptsLegal_nativeConst16 (i : BitVec 16 → Instr) : AcceptsLegal 1 (nativeConst16 c i) := by
  unfold nativeConst16
  split
  · split
    · exact acceptsLegal_native _
    · exact acceptsLegal_refused _
  · exact acceptsLegal_refused _

theorem acceptsLegal_nativeBranch (i : BitVec 16 → Instr) : AcceptsLegal 1 (nativeBranch syms here c i) := by
  unfold nativeBranch
  split
  · split
    · exact acceptsLegal_native _
    · exact acceptsLegal_refused _
  · split
    · exact acceptsLegal_refused _
    · split
      · exact acceptsLegal_native _
      · exact acceptsLegal_refused _

theorem acceptsLegal_branchToConst : AcceptsLegal 1 (branchToConst syms here c) :=
  acceptsLegal_constValue fun k => by
    split
    · exact acceptsLegal_one rfl
    · exact acceptsLegal_refused _

theorem acceptsLegal_expandConst8 :
    AcceptsLegal (if hasWideForm m && !fitsConst8 p c then loadSize c + 1 else 1) (expandConst8 p syms m rdes src1 c) := by
  have hwide (short : BitVec 8 → Instr) (long : Instr) :
      AcceptsLegal (if true && !fitsConst8 p c then loadSize c + 1 else 1) (immediate p syms rdes src1 c short long) := by
    have h := acceptsLegal_immediate (p := p) (syms := syms) (c := c) (rdes := rdes) (src1 := src1) short long
    cases hc : fitsConst8 p c <;> simpa [hc] using h
  cases m
  case addi | subi | muli | divi | modi | addio | subio | mulio | shli | shri | shrui => exact hwide _ _
  case st1 | st4 | ld1 | ld4 | ex4 => exact acceptsLegal_nativeConst8 _
  all_goals exact acceptsLegal_refused _

/-- Only the four shapes of R51's operands are accepted, each for its mnemonics. -/
theorem acceptsLegal_expandNative (operands : List Operand) :
    AcceptsLegal (lineSize p ⟨.native m, operands⟩) (expandNative p syms here m operands) := by
  rcases operands with _ | ⟨a | _, _ | ⟨b | _, _ | ⟨d | c, _ | ⟨_, _⟩⟩⟩⟩
  case nil =>
    dsimp only [expandNative]
    split
    · exact acceptsLegal_native _
    · exact acceptsLegal_refused _
  case cons.reg.nil =>
    dsimp only [expandNative]
    split
    · exact acceptsLegal_native _
    · exact acceptsLegal_native _
    · exact acceptsLegal_refused _
  case cons.reg.cons.const.nil c =>
    dsimp only [expandNative]
    split
    · exact acceptsLegal_nativeConst16 _
    · exact acceptsLegal_nativeConst16 _
    · exact acceptsLegal_nativeBranch _
    · exact acceptsLegal_nativeBranch _
    · exact acceptsLegal_refused _
  case cons.reg.cons.reg.cons.reg.nil =>
    dsimp only [expandNative]
    cases instrRRR m a b d with
    | some i => exact acceptsLegal_native i
    | none => exact acceptsLegal_refused _
  case cons.reg.cons.reg.cons.const.nil => exact acceptsLegal_expandConst8
  all_goals exact acceptsLegal_refused _

/-- The length of a line is `lineSize`, computed with no symbols and no address, and its instructions are legal. -/
theorem acceptsLegal_expand (l : AsmLine) : AcceptsLegal (lineSize p l) (expand p syms here l) := by
  obtain ⟨op, operands⟩ := l
  dsimp only [expand]
  split
  case h_1 m => exact acceptsLegal_expandNative operands
  case h_2 rdes c => exact acceptsLegal_constValue fun k => acceptsLegal_ok rfl (loadBoth_wf rdes k)
  case h_3 | h_4 | h_5 | h_6 | h_11 | h_12 | h_14 => exact acceptsLegal_withScratch rfl
  case h_7 | h_8 | h_9 | h_10 | h_13 | h_15 | h_17 => exact acceptsLegal_one rfl
  case h_16 c => exact acceptsLegal_branchToConst
  case h_18 src1 => exact acceptsLegal_ok rfl (by simp [Instr.wf])
  case h_19 rdes =>
    split
    · exact acceptsLegal_refused _
    · exact acceptsLegal_ok rfl (by simp [Instr.wf])
  all_goals exact acceptsLegal_refused _

end

/-- Settles O54: `acceptsLegal_expand`, read for the length. -/
theorem lengthsAreKnownBeforeAddresses : Obligations.LengthsAreKnownBeforeAddresses :=
  fun _ _ _ l is h => (acceptsLegal_expand l is h).1

/-! ## Stepping on a fetched word (R59) -/

/-- Stepping on an illegal word takes its fault. -/
theorem stepFaults_of_illegal {s : State} {w : Word} {why : IllegalKind} (hs : s.status = .running) (hw : fetch s = .word w)
    (hd : decode s.launch.params.opc w = .illegal why) : StepFaults s (.illegalInstruction w why) :=
  stepFaults_raise (by rw [step_of_fetch_word hs hw, hd])

/-- Settles O5: the checks of `decode_of_code` one by one, read in numbers; the count of undefined opcodes by `countP_undefined`; the
assembler by `acceptsLegal_expand`. -/
theorem illegalWordsAreRejectedInOrder : Obligations.IllegalWordsAreRejectedInOrder := by
  refine ⟨fun s w hs hw hopc => ?_, countP_undefined defaultOpcodes_injective, fun _ _ _ l is h => (acceptsLegal_expand l is h).2⟩
  refine ⟨fun hnone => stepFaults_of_illegal hs hw ?_, fun m hm => ?_⟩
  · rw [decode, Opcodes.mnemonic?_none.2 hnone]
  · have hd := decode_of_code hopc hm
    simp only [← reservedFieldSet_iff, ← registerNumberBad_iff, ← oddPairField_iff]
    refine ⟨fun hreserved => ?_, fun hreserved hnumber => ?_, fun hreserved hnumber hodd => ?_, fun hreserved hnumber hodd => ?_⟩
    · exact stepFaults_of_illegal hs hw (by rw [hd, if_pos hreserved])
    · exact stepFaults_of_illegal hs hw (by rw [hd, if_neg hreserved, if_pos hnumber])
    · exact stepFaults_of_illegal hs hw (by rw [hd, if_neg hreserved, if_neg hnumber, if_pos hodd])
    · rw [if_neg hreserved, if_neg hnumber, if_neg hodd] at hd
      obtain ⟨hwf, hword⟩ := (decode_legal_iff hopc).1 hd
      exact ⟨_, instrOfFields_mnemonic m w, hwf, hword, by rw [step_of_fetch_word hs hw, hd]⟩

/-! ## Lines with a 32-bit constant (R64 to R66) -/

/-- A word in the range of a signed 16-bit constant is its low half, sign-extended. -/
theorem signExtend_low_half {k : Word} (hlo : -32768 ≤ k.toInt) (hhi : k.toInt ≤ 32767) :
    (k.extractLsb' 0 16).signExtend 32 = k := by
  have hk := BitVec.toInt_eq_toNat_cond k
  apply BitVec.eq_of_toInt_eq
  rw [BitVec.toInt_signExtend_of_le (by omega), BitVec.toInt_extractLsb', Nat.shiftRight_zero, Int.bmod_def]
  split at hk <;> omega

/-- Where one `lcl` is enough for a constant, it loads it (R65). -/
theorem signExtend_of_fitsLcl {syms : Symbols} {c : Const} {k : Word} (hc : ConstIs syms c k) (hfits : fitsLcl c = true) :
    (k.extractLsb' 0 16).signExtend 32 = k := by
  cases c with
  | label name => cases hfits
  | lit v =>
    obtain ⟨-, -, rfl⟩ := hc
    simp only [fitsLcl, Bool.and_eq_true, decide_eq_true_eq] at hfits
    exact signExtend_low_half hfits.1 hfits.2

theorem OnlyLinks.trans {r : RegNum} {v v' target target' : Word} {s t u : State} (h : OnlyLinks r v target s t)
    (h' : OnlyLinks r v' target' t u) : OnlyLinks r v' target' s u := by
  obtain ⟨-, hregs, -, hbytes, ⟨hcin, hcout⟩, hstatus, hlaunch⟩ := h
  obtain ⟨hreg, hregs', hpc, hbytes', ⟨hcin', hcout'⟩, hstatus', hlaunch'⟩ := h'
  exact ⟨hreg, fun q hq => (hregs' q hq).trans (hregs q hq), hpc, fun a => (hbytes' a).trans (hbytes a),
    ⟨hcin'.trans hcin, hcout'.trans hcout⟩, hstatus'.trans hstatus, hlaunch'.trans hlaunch⟩

theorem lcl_completes (r : RegNum) (h : BitVec 16) (s : State) :
    Completes (.lcl r h) s (OnlyLinks r (h.signExtend 32) (s.pc + 4) s) := completes_writeResult rfl

theorem lch_completes (r : RegNum) (h : BitVec 16) (s : State) :
    Completes (.lch r h) s (OnlyLinks r (h ++ (s.reg r).extractLsb' 0 16) (s.pc + 4) s) := completes_writeResult rfl

/-- `lcl` and `lch` of the two halves leave the whole constant in the register and change nothing else (40_constants.md R72). -/
theorem loadBoth_loads (r : RegNum) (k : Word) {s : State} (hs : s.status = .running) :
    ∃ u, OnlyLinks r k (s.pc + 8) s u ∧ ∀ rest, execAll (loadBoth r k ++ rest) s = execAll rest u := by
  obtain ⟨t, hlcl, ht⟩ := lcl_completes r (k.extractLsb' 0 16) s
  obtain ⟨u, hlch, hu⟩ := lch_completes r (k.extractLsb' 16 16) t
  have ⟨hreg, _, hpc, _, _, ⟨hstatus, _⟩⟩ := ht
  obtain ⟨hreg', hothers', hpc', hbytes', hconsole', hstatus', hlaunch'⟩ := hu
  have hk : u.reg r = written r k := by
    rw [hreg', hreg]
    by_cases hr : r = 0
    · simp [written, hr]
    · simp only [written, hr, if_false, halves_append]
  have hpc8 : u.pc = s.pc + 8 := by rw [hpc', hpc, BitVec.add_assoc]; rfl
  refine ⟨u, ht.trans ⟨hk, hothers', hpc8, hbytes', hconsole', hstatus', hlaunch'⟩, fun rest => ?_⟩
  rw [loadBoth, List.cons_append, List.cons_append, List.nil_append, execAll_cons hlcl (hstatus.trans hs),
    execAll_cons hlch (hstatus'.trans (hstatus.trans hs))]

/-- `load32` leaves the constant in the scratch register and changes nothing else (R65). -/
theorem load32_loads {syms : Symbols} {c : Const} {k : Word} (hc : ConstIs syms c k) {s : State} (hs : s.status = .running) :
    ∃ u, ScratchLoaded (loadSize c) k s u ∧ ∀ rest, execAll (load32 c k ++ rest) s = execAll rest u := by
  unfold load32 loadSize
  cases hfits : fitsLcl c with
  | false => exact loadBoth_loads u0 k hs
  | true =>
    obtain ⟨u, hlcl, hu⟩ := lcl_completes u0 (k.extractLsb' 0 16) s
    rw [signExtend_of_fitsLcl hc hfits] at hu
    have ⟨_, _, _, _, _, ⟨hstatus, _⟩⟩ := hu
    exact ⟨u, hu, fun rest => execAll_cons hlcl (hstatus.trans hs)⟩

/-- A constant outside the `const8` range takes the form with the scratch register. -/
theorem immediate_wide {p : Params} {syms : Symbols} {rdes src1 : RegNum} {c : Const} {short : BitVec 8 → Instr} {long : Instr}
    (hwf : long.wf = true) (hc : fitsConst8 p c = false) :
    immediate p syms rdes src1 c short long = withScratch syms [rdes, src1] c long := by
  unfold immediate
  rw [if_pos hwf]
  cases c with
  | label name => rfl
  | lit v =>
    have hk : const8Field p.imm8Ext v = none := by simpa [fitsConst8] using hc
    simp only [hk]

/-- The seventeen forms of `wideForm` are the register form behind the scratch register. -/
theorem expand_wideForm {p : Params} {syms : Symbols} {here : Word} {op : AsmOp} {rdes src1 : RegNum} {last : Instr} {c : Const}
    (hform : wideForm rdes src1 op = some last) (hwf : last.wf = true) (hc : ∀ m, op = .native m → fitsConst8 p c = false) :
    expand p syms here ⟨op, [.reg rdes, .reg src1, .const c]⟩ = withScratch syms [rdes, src1] c last := by
  cases op
  case native m =>
    cases m
    case addi | subi | muli | divi | modi | addio | subio | mulio | shli | shri | shrui =>
      cases hform; exact immediate_wide hwf (hc _ rfl)
    all_goals cases hform
  case andi | nori | ori | xori | jezi | jnzi => cases hform; rfl
  all_goals cases hform

theorem withScratch_refused {syms : Symbols} {regs : List RegNum} {c : Const} {last : Instr} (h : u0 ∈ regs) :
    withScratch syms regs c last = .refused .scratchOperand := if_pos (by simpa using h)

/-- Settles O56: each form is `withScratch`, which refuses `u0` and else loads the constant before the register form. -/
theorem wideFormsLoadScratchThenRun : Obligations.WideFormsLoadScratchThenRun := by
  intro p syms here op rdes src1 last c k hform hk hwf hc
  have hexpand := expand_wideForm (syms := syms) (here := here) hform hwf hc
  refine ⟨fun hu => ?_, fun hr hs => ⟨load32 c k ++ [last], ?_, fun s hrun => ?_⟩⟩
  · rw [hexpand, withScratch_refused (by simpa [eq_comm] using hu)]
  · rw [hexpand, withScratch_of_constIs (by simpa using ⟨hr, hs⟩) hk]
  · obtain ⟨u, hu, hload⟩ := load32_loads hk hrun
    exact ⟨u, hu, by rw [hload, execAll_one]⟩

end Sys2Proof.Machine
end

section
/-! Constants (40_constants.md): the two halves of a register that `lch` and `lcl` write, the decoding of an `lcl` word whatever its
register field, and the pair of instructions `lc` stands for. -/

namespace Sys2Proof

/-! ## Words with a 16-bit constant (30_encoding.md R52) -/

/-- The fields of a word of format RH, whatever byte stands in the register field. -/
theorem fields_append_const16 (o a : BitVec 8) (h : BitVec 16) :
    fieldOp (o ++ a ++ h) = o ∧ fieldA (o ++ a ++ h) = a ∧ fieldH (o ++ a ++ h) = h := by
  have hbytes : o ++ a ++ h = o ++ a ++ h.extractLsb' 8 8 ++ h.extractLsb' 0 8 :=
    (congrArg (o ++ a ++ ·) (const16_halves h).symm).trans (BitVec.append_assoc (x₁ := o ++ a)).symm
  obtain ⟨ho, ha, hb, hc⟩ := fields_append o a (h.extractLsb' 8 8) (h.extractLsb' 0 8)
  rw [fieldH_eq, hbytes, hb, hc]
  exact ⟨ho, ha, const16_halves h⟩

theorem regOfField_eq_setWidth (f : BitVec 8) : regOfField f = f.setWidth 6 := (BitVec.setWidth_eq_extractLsb' (by decide)).symm

/-- An `lcl` word is legal exactly when its register field names a register: of the checks of R59 only (c) can fail. -/
theorem decode_lcl (a : BitVec 8) (h : BitVec 16) :
    decode defaultOpcodes (0x11#8 ++ a ++ h) =
      if 64 ≤ a.toNat then .illegal .registerNumber else .legal (.lcl (a.setWidth 6) h) := by
  obtain ⟨hop, ha, hh⟩ := fields_append_const16 0x11#8 a h
  have hcode : defaultOpcodes.code .lcl = fieldOp (0x11#8 ++ a ++ h) := by rw [hop, defaultOpcodes_code]; rfl
  have hinstr : instrOfFields .lcl (0x11#8 ++ a ++ h) = .lcl (a.setWidth 6) h := by
    rw [instrOfFields, regA, ha, hh, regOfField_eq_setWidth]
  rw [decode_of_code defaultOpcodes_injective hcode, hinstr]
  simp [Mnemonic.format, reservedFieldSet, registerNumberBad, oddPairField, Mnemonic.writesPair, ha, notARegister_iff]

end Sys2Proof

namespace Sys2Proof.Machine

/-! ## The constant loads -/

/-- A half-word put above the low half of a word, as a number. -/
theorem toNat_append_low_half (h : BitVec 16) (v : Word) :
    (h ++ v.extractLsb' 0 16).toNat = h.toNat * 2 ^ 16 + v.toNat % 2 ^ 16 := by
  have hlow : (v.extractLsb' 0 16).toNat = v.toNat % 2 ^ 16 := by rw [BitVec.extractLsb'_toNat, Nat.shiftRight_zero]
  rw [BitVec.toNat_append, ← Nat.shiftLeft_add_eq_or_of_lt (BitVec.isLt _), Nat.shiftLeft_eq, hlow]

/-- Settles O26: `lch_completes`, with the written word read as a number. -/
theorem loadConstantHigh : Obligations.LoadConstantHigh := by
  intro rdes h s
  obtain ⟨t, hexec, hwrites⟩ := lch_completes rdes h s
  exact ⟨t, hexec, _, toNat_append_low_half h (s.reg rdes), hwrites⟩

/-- Settles O27: the effect by `lcl_completes`, the word by `defaultWordOfEveryInstruction`, the decoding by `decode_lcl`. -/
theorem loadConstantLow : Obligations.LoadConstantLow := by
  intro rdes h s
  refine ⟨?_, ?_, fun a => decode_lcl a h⟩
  · obtain ⟨t, hexec, hwrites⟩ := lcl_completes rdes h s
    exact ⟨t, hexec, _, BitVec.toInt_signExtend_of_le (by decide), hwrites⟩
  · obtain ⟨⟨_, hword, _⟩, _⟩ := defaultWordOfEveryInstruction rdes 0 0 0 h
    exact hword

/-- An `lc` line is the pair `lcl`, `lch` of the halves of its constant, whatever the constant (R72). -/
theorem expand_lc {p : Params} {syms : Symbols} {here : Word} {rdes : RegNum} {c : Const} {k : Word} (hc : ConstIs syms c k) :
    expand p syms here ⟨.lc, [.reg rdes, .const c]⟩ = .ok (loadBoth rdes k) :=
  constValue_of_constIs (fun k => .ok (loadBoth rdes k)) hc

/-- Settles O55: the pair that `expand_lc` gives is executed by `loadBoth_loads`, with nothing after it. -/
theorem lcLoadsTheWholeConstant : Obligations.LcLoadsTheWholeConstant := by
  intro p syms here rdes c k s hc hs
  obtain ⟨t, hloaded, hexec⟩ := loadBoth_loads rdes k hs
  exact ⟨_, _, expand_lc hc, t, hexec [], hloaded⟩

end Sys2Proof.Machine
end

section
/-! Arithmetic (41_arithmetic.md): the immediate operand, the operations modulo 2^32, division under every reading and by default, the
"o" operations and the pair they write, and the odd destination that makes their word illegal. -/

namespace Sys2Proof.Machine

/-! ## The immediate operand (R82) -/

/-- Under sign extension the operand is the signed value of the field. -/
theorem imm_toInt_of_sign {s : State} (h : s.launch.params.imm8Ext = .sign) (c : BitVec 8) : (s.imm c).toInt = c.toInt := by
  rw [State.imm, h]; exact BitVec.toInt_signExtend_of_le (by decide)

/-- Under zero extension the operand is the unsigned value of the field. -/
theorem imm_toNat_of_zero {s : State} (h : s.launch.params.imm8Ext = .zero) (c : BitVec 8) : (s.imm c).toNat = c.toNat := by
  rw [State.imm, h]; exact BitVec.toNat_setWidth_of_le (by decide)

/-- The two extensions agree on a field below 128. -/
theorem imm_toNat_of_le (s : State) {c : BitVec 8} (hc : c.toNat ≤ 127) : (s.imm c).toNat = c.toNat := by
  cases hext : s.launch.params.imm8Ext with
  | zero => exact imm_toNat_of_zero hext c
  | sign =>
    have himm := imm_toInt_of_sign hext c
    have hfield : c.toInt = c.toNat := BitVec.toInt_eq_toNat_of_lt (by omega)
    rw [BitVec.toInt_eq_toNat_cond] at himm
    split at himm <;> omega

theorem imm_zero (s : State) : s.imm 0 = 0 := BitVec.eq_of_toNat_eq (imm_toNat_of_le s (by decide))

/-! ## Sums, differences and products (R81) -/

/-- An instruction that writes one register, with what is known of the written value. -/
theorem completes_writeResult_of {P : Word → Prop} {i : Instr} {r : RegNum} {v : Word} {s : State} (hv : P v)
    (hi : exec i s = writeResult r v s) : Completes i s fun t => ∃ v, P v ∧ OnlyWrites r v s t := by
  obtain ⟨t, hexec, hwrites⟩ := completes_writeResult hi
  exact ⟨t, hexec, v, hv, hwrites⟩

theorem add_eq_ofInt (x y : Word) : x + y = BitVec.ofInt 32 (x.toInt + y.toInt) := by
  rw [BitVec.ofInt_add, BitVec.ofInt_toInt, BitVec.ofInt_toInt]

theorem sub_eq_ofInt (x y : Word) : x - y = BitVec.ofInt 32 (x.toInt - y.toInt) := by
  rw [Int.sub_eq_add_neg, BitVec.ofInt_add, BitVec.ofInt_neg, BitVec.ofInt_toInt, BitVec.ofInt_toInt, BitVec.sub_eq_add_neg]

theorem mul_eq_ofInt (x y : Word) : x * y = BitVec.ofInt 32 (x.toInt * y.toInt) := by
  rw [BitVec.ofInt_mul, BitVec.ofInt_toInt, BitVec.ofInt_toInt]

theorem sub_toNat_eq_emod (x y : Word) : ((x - y).toNat : Int) = ((x.toNat : Int) - y.toNat) % 2 ^ 32 := by
  rw [BitVec.toNat_sub]; omega

/-- Settles O28: each of the six is `writeResult` of a word that the signed and the unsigned reading give alike. -/
theorem addSubMulWrapAround : Obligations.AddSubMulWrapAround := by
  intro rdes src1 src2 c s a b k sum difference product
  have hsum (x y : Word) : sum x y (x + y) := ⟨add_eq_ofInt x y, BitVec.toNat_add x y⟩
  have hdifference (x y : Word) : difference x y (x - y) := ⟨sub_eq_ofInt x y, sub_toNat_eq_emod x y⟩
  have hproduct (x y : Word) : product x y (x * y) := ⟨mul_eq_ofInt x y, BitVec.toNat_mul x y⟩
  exact ⟨completes_writeResult_of (hsum a b) rfl, completes_writeResult_of (hsum a k) rfl,
    completes_writeResult_of (hdifference a b) rfl, completes_writeResult_of (hdifference a k) rfl,
    completes_writeResult_of (hproduct a b) rfl, completes_writeResult_of (hproduct a k) rfl⟩

/-! ## Division and modulo under every reading (R83) -/

theorem divide_of_agreed (p : DivReading) {a b : Word} (h : a.toNat < 2 ^ 31 ∧ b.toNat < 2 ^ 31 ∧ b ≠ 0) :
    divide p a b = .value (BitVec.ofNat 32 (a.toNat / b.toNat)) := if_pos (divisionAgreed_iff.2 h)

theorem modulo_of_agreed (p : DivReading) {a b : Word} (h : a.toNat < 2 ^ 31 ∧ b.toNat < 2 ^ 31 ∧ b ≠ 0) :
    modulo p a b = .value (BitVec.ofNat 32 (a.toNat - b.toNat * (a.toNat / b.toNat))) := if_pos (divisionAgreed_iff.2 h)

/-- The floor quotient of two words fits in a word. -/
theorem toNat_floor_quotient (a b : Word) : (BitVec.ofNat 32 (a.toNat / b.toNat)).toNat = a.toNat / b.toNat :=
  (BitVec.toNat_ofNat ..).trans (Nat.mod_eq_of_lt (Nat.lt_of_le_of_lt (Nat.div_le_self ..) a.isLt))

/-- The remainder of the floor quotient fits in a word and is smaller than the divisor. -/
theorem toNat_floor_remainder (a : Word) {b : Word} (hb : b ≠ 0) :
    (BitVec.ofNat 32 (a.toNat - b.toNat * (a.toNat / b.toNat))).toNat = a.toNat - b.toNat * (a.toNat / b.toNat) ∧
      a.toNat - b.toNat * (a.toNat / b.toNat) < b.toNat := by
  have hlt : a.toNat - b.toNat * (a.toNat / b.toNat) < b.toNat :=
    Nat.mod_eq_sub_mul_div ▸ Nat.mod_lt a.toNat (Nat.pos_of_ne_zero fun h0 => hb (BitVec.eq_of_toNat_eq h0))
  exact ⟨(BitVec.toNat_ofNat ..).trans (Nat.mod_eq_of_lt (hlt.trans b.isLt)), hlt⟩

/-- What an instruction does with the answer of a division: it writes the value and nothing else, or it takes the fault. -/
def DivisionEnds (rdes : RegNum) (s : State) (i : Instr) : DivResult → Prop
  | .value v => Completes i s (OnlyWrites rdes v s)
  | .divideByZero => ExecFaults i s .divideByZero
  | .divideOverflow => ExecFaults i s .divideOverflow

/-- An instruction that is `writeDivResult` of an answer ends as that answer says. -/
theorem divisionEnds_of_exec {rdes : RegNum} {s : State} {i : Instr} {d : DivResult} (hi : exec i s = writeDivResult rdes d s) :
    DivisionEnds rdes s i d := by
  cases d with
  | value v => exact completes_writeResult hi
  | divideByZero => exact execFaults_raise hi
  | divideOverflow => exact execFaults_raise hi

/-- Settles O30: in the agreed domain by the two `_of_agreed` equations; everywhere the functions are `divide p` and `modulo p`
themselves, and `divisionEnds_of_exec` says how the instruction ends. -/
theorem divisionUnderEveryReading : Obligations.DivisionUnderEveryReading := by
  refine ⟨fun rdes src1 src2 c s => ?_, fun p => ⟨divide p, modulo p, fun rdes src1 src2 c s => ?_⟩⟩
  · intro a agreed quotient remainder
    have hquotient (b : Word) (hb : agreed b) (i : Instr)
        (hi : exec i s = writeDivResult rdes (divide s.launch.params.div (s.reg src1) b) s) : Completes i s (quotient b) := by
      rw [divide_of_agreed _ hb] at hi
      obtain ⟨t, hexec, hwrites⟩ := divisionEnds_of_exec hi
      exact ⟨t, hexec, _, toNat_floor_quotient _ b, hwrites⟩
    have hremainder (b : Word) (hb : agreed b) (i : Instr)
        (hi : exec i s = writeDivResult rdes (modulo s.launch.params.mod (s.reg src1) b) s) : Completes i s (remainder b) := by
      rw [modulo_of_agreed _ hb] at hi
      obtain ⟨t, hexec, hwrites⟩ := divisionEnds_of_exec hi
      obtain ⟨-, -, hne⟩ := hb
      obtain ⟨heq, hlt⟩ := toNat_floor_remainder (s.reg src1) hne
      exact ⟨t, hexec, _, heq, heq.trans_lt hlt, hwrites⟩
    exact ⟨fun hb => ⟨hquotient _ hb _ rfl, hremainder _ hb _ rfl⟩, fun hb => ⟨hquotient _ hb _ rfl, hremainder _ hb _ rfl⟩⟩
  · intro outcome
    have houtcome (i : Instr) (d : DivResult) (hi : exec i s = writeDivResult rdes d s) : outcome i d := divisionEnds_of_exec hi
    refine ⟨?_, ?_⟩
    · rintro rfl; exact ⟨houtcome _ _ rfl, houtcome _ _ rfl⟩
    · rintro rfl; exact ⟨houtcome _ _ rfl, houtcome _ _ rfl⟩

/-! ## The default division (R83, R84) -/

/-- The truncated quotient of two words, modulo 2^32, is the word `sdiv`. -/
theorem ofInt_tdiv (a b : Word) : BitVec.ofInt 32 (a.toInt.tdiv b.toInt) = a.sdiv b :=
  BitVec.eq_of_toInt_eq (by rw [BitVec.toInt_ofInt, BitVec.toInt_sdiv])

/-- The remainder of the truncated quotient is the word `srem`. -/
theorem ofInt_tdiv_remainder (a b : Word) : BitVec.ofInt 32 (a.toInt - b.toInt * a.toInt.tdiv b.toInt) = a.srem b := by
  rw [← Int.tmod_def, ← BitVec.toInt_srem, BitVec.ofInt_toInt]

/-- No corner of R84: the divisor is not zero and the quotient is not 2^31. -/
structure NoDivFault (a b : Word) : Prop where
  divisor : b ≠ 0
  fits : ¬(a.toInt = -2 ^ 31 ∧ b.toInt = -1)

theorem divSigned_value {a b : Word} (h : NoDivFault a b) : divSigned a b = .value (a.sdiv b) := by
  rw [divSigned, if_neg h.divisor, if_neg h.fits, ofInt_tdiv]

theorem modSigned_value {a b : Word} (h : NoDivFault a b) : modSigned a b = .value (a.srem b) := by
  rw [modSigned, if_neg h.divisor, if_neg h.fits, ofInt_tdiv_remainder]

/-- Where the readings agree there is no corner, and both operands are the same number signed and unsigned. -/
theorem agreed_noDivFault {a b : Word} (h : divisionAgreed a b = true) :
    NoDivFault a b ∧ a.toInt = a.toNat ∧ b.toInt = b.toNat := by
  obtain ⟨ha, hb, hne⟩ := divisionAgreed_iff.1 h
  have hsa : a.toInt = a.toNat := BitVec.toInt_eq_toNat_of_lt (by omega)
  have hsb : b.toInt = b.toNat := BitVec.toInt_eq_toNat_of_lt (by omega)
  exact ⟨⟨hne, by omega⟩, hsa, hsb⟩

/-- The default quotient needs no case for the agreed domain: the truncated quotient is the floor quotient there. -/
theorem divide_signedTruncating (a b : Word) : divide .signedTruncating a b = divSigned a b := by
  rcases divide_cases .signedTruncating a b with ⟨hag, heq⟩ | ⟨-, ⟨-, heq⟩ | ⟨hp, -⟩⟩
  · obtain ⟨hfault, ha, hb⟩ := agreed_noDivFault hag
    rw [heq, divSigned, if_neg hfault.divisor, if_neg hfault.fits, ha, hb, ← Int.ofNat_tdiv, BitVec.ofInt_natCast]
  · exact heq
  · cases hp

/-- The default remainder needs no case for the agreed domain. -/
theorem modulo_signedTruncating (a b : Word) : modulo .signedTruncating a b = modSigned a b := by
  rcases modulo_cases .signedTruncating a b with ⟨hag, heq⟩ | ⟨-, ⟨-, heq⟩ | ⟨hp, -⟩⟩
  · obtain ⟨hfault, ha, hb⟩ := agreed_noDivFault hag
    rw [heq, modSigned, if_neg hfault.divisor, if_neg hfault.fits, ha, hb, ← Int.ofNat_tdiv, ← Int.natCast_mul,
      ← Int.ofNat_sub (Nat.mul_div_le ..), BitVec.ofInt_natCast]
  · exact heq
  · cases hp

theorem divSigned_zero (a : Word) : divSigned a 0 = .divideByZero := if_pos rfl

theorem modSigned_zero (a : Word) : modSigned a 0 = .divideByZero := if_pos rfl

theorem ne_zero_of_toInt_neg_one {b : Word} (h : b.toInt = -1) : b ≠ 0 := by rintro rfl; cases h

theorem divSigned_corner {a b : Word} (ha : a.toInt = -2 ^ 31) (hb : b.toInt = -1) : divSigned a b = .divideOverflow := by
  rw [divSigned, if_neg (ne_zero_of_toInt_neg_one hb), if_pos ⟨ha, hb⟩]

theorem modSigned_corner {a b : Word} (ha : a.toInt = -2 ^ 31) (hb : b.toInt = -1) : modSigned a b = .divideOverflow := by
  rw [modSigned, if_neg (ne_zero_of_toInt_neg_one hb), if_pos ⟨ha, hb⟩]

/-- The quotient is exact outside the corners. -/
theorem sdiv_toInt {a b : Word} (h : NoDivFault a b) : (a.sdiv b).toInt = a.toInt.tdiv b.toInt := by
  refine BitVec.toInt_sdiv_of_ne_or_ne a b ?_
  by_contra hc
  simp only [not_or, ne_eq, not_not] at hc
  obtain ⟨rfl, rfl⟩ := hc
  exact h.fits ⟨by decide, by decide⟩

theorem srem_toInt {a b : Word} (h : NoDivFault a b) : (a.srem b).toInt = a.toInt - b.toInt * (a.sdiv b).toInt := by
  rw [BitVec.toInt_srem, sdiv_toInt h, Int.tmod_def]

theorem srem_natAbs_lt (a : Word) {b : Word} (hb : b ≠ 0) : (a.srem b).toInt.natAbs < b.toInt.natAbs := by
  have hb0 : b.toInt ≠ 0 := fun h0 => hb (BitVec.eq_of_toInt_eq h0)
  rw [BitVec.toInt_srem, Int.natAbs_tmod]
  exact Nat.mod_lt _ (Int.natAbs_pos.2 hb0)

/-- A remainder that is not zero has the sign of the dividend. -/
theorem srem_neg_iff {a b : Word} (h : a.srem b ≠ 0) : (a.srem b).toInt < 0 ↔ a.toInt < 0 := by
  have h0 : (a.srem b).toInt ≠ 0 := fun h0 => h (BitVec.eq_of_toInt_eq h0)
  rw [BitVec.toInt_srem] at h0 ⊢
  have hsign := Int.sign_tmod a.toInt b.toInt
  rw [if_neg fun hdvd => h0 (Int.tmod_eq_zero_of_dvd hdvd)] at hsign
  rw [← Int.sign_eq_neg_one_iff_neg, hsign, Int.sign_eq_neg_one_iff_neg]

/-- Quotient times divisor plus remainder is the dividend, as words. -/
theorem sdiv_mul_add_srem (a b : Word) : a.sdiv b * b + a.srem b = a := by
  rw [← ofInt_tdiv, ← ofInt_tdiv_remainder, ← Int.tmod_def]
  nth_rewrite 2 [← BitVec.ofInt_toInt (x := b)]
  rw [← BitVec.ofInt_mul, ← BitVec.ofInt_add, Int.tdiv_mul_add_tmod, BitVec.ofInt_toInt]

/-- Settles O31: `divide` and `modulo` are `divSigned` and `modSigned`, whose values are the words `sdiv` and `srem`. -/
theorem divisionByDefaultTruncates : Obligations.DivisionByDefaultTruncates := by
  intro rdes src1 src2 c s hdiv hmod a law
  have hlaw (b : Word) (i j : Instr) (hi : exec i s = writeDivResult rdes (divide s.launch.params.div a b) s)
      (hj : exec j s = writeDivResult rdes (modulo s.launch.params.mod a b) s) : law b i j := by
    rw [hdiv, divide_signedTruncating] at hi
    rw [hmod, modulo_signedTruncating] at hj
    have hquotient := divisionEnds_of_exec hi
    have hremainder := divisionEnds_of_exec hj
    refine ⟨?_, fun ha hb => ?_, fun hb hfits => ?_⟩
    · rintro rfl
      rw [divSigned_zero] at hquotient
      rw [modSigned_zero] at hremainder
      exact ⟨hquotient, hremainder⟩
    · rw [divSigned_corner ha hb] at hquotient
      rw [modSigned_corner ha hb] at hremainder
      exact ⟨hquotient, hremainder⟩
    · have hfault : NoDivFault a b := ⟨hb, hfits⟩
      rw [divSigned_value hfault] at hquotient
      rw [modSigned_value hfault] at hremainder
      exact ⟨_, _, sdiv_toInt hfault, srem_toInt hfault, srem_natAbs_lt a hb, srem_neg_iff, sdiv_mul_add_srem a b, hquotient,
        hremainder⟩
  obtain ⟨hdivi, hmodi⟩ := (hlaw (s.imm 0) (.divi rdes src1 0) (.modi rdes src1 0) rfl rfl).1 (imm_zero s)
  exact ⟨hlaw _ _ _ rfl rfl, hlaw _ _ _ rfl rfl, hdivi, hmodi⟩

/-! ## The "o" operations at an even destination (R100) -/

section Pairs
variable {p : OvfReading} {rdes src1 src2 : RegNum} {c : BitVec 8} {s : State}

theorem ifEvenPair_even {i : Instr} {go : Result} (h : RegNum.isEven rdes = true) : ifEvenPair rdes i s go = go := if_pos h

/-- An "o" operation at an even destination writes its pair and nothing else. -/
theorem completes_evenPair {i : Instr} {low high : Word} (h : RegNum.isEven rdes = true)
    (hi : exec i s = ifEvenPair rdes i s (writePair rdes low high s)) : Completes i s (OnlyWritesPair rdes low high s) :=
  ⟨_, hi.trans (ifEvenPair_even h), onlyWritesPair_setReg s low high h⟩

theorem addo_completes (h : RegNum.isEven rdes = true) (hp : s.launch.params.ovfAdd = p) : Completes (.addo rdes src1 src2) s
    (OnlyWritesPair rdes (s.reg src1 + s.reg src2) (overflowAdd p (s.reg src1) (s.reg src2)) s) := by
  subst hp; exact completes_evenPair h rfl

theorem addio_completes (h : RegNum.isEven rdes = true) (hp : s.launch.params.ovfAdd = p) : Completes (.addio rdes src1 c) s
    (OnlyWritesPair rdes (s.reg src1 + s.imm c) (overflowAdd p (s.reg src1) (s.imm c)) s) := by
  subst hp; exact completes_evenPair h rfl

theorem subo_completes (h : RegNum.isEven rdes = true) (hp : s.launch.params.ovfSub = p) : Completes (.subo rdes src1 src2) s
    (OnlyWritesPair rdes (s.reg src1 - s.reg src2) (overflowSub p (s.reg src1) (s.reg src2)) s) := by
  subst hp; exact completes_evenPair h rfl

theorem subio_completes (h : RegNum.isEven rdes = true) (hp : s.launch.params.ovfSub = p) : Completes (.subio rdes src1 c) s
    (OnlyWritesPair rdes (s.reg src1 - s.imm c) (overflowSub p (s.reg src1) (s.imm c)) s) := by
  subst hp; exact completes_evenPair h rfl

theorem mulo_completes (h : RegNum.isEven rdes = true) (hp : s.launch.params.ovfMul = p) : Completes (.mulo rdes src1 src2) s
    (OnlyWritesPair rdes (s.reg src1 * s.reg src2) (overflowMul p (s.reg src1) (s.reg src2)) s) := by
  subst hp; exact completes_evenPair h rfl

theorem mulio_completes (h : RegNum.isEven rdes = true) (hp : s.launch.params.ovfMul = p) : Completes (.mulio rdes src1 c) s
    (OnlyWritesPair rdes (s.reg src1 * s.imm c) (overflowMul p (s.reg src1) (s.imm c)) s) := by
  subst hp; exact completes_evenPair h rfl

end Pairs

/-- Settles O32: the functions are the three overflow words of the reading. -/
theorem overflowPairUnderEveryReading : Obligations.OverflowPairUnderEveryReading := by
  refine fun p => ⟨overflowAdd p, overflowSub p, overflowMul p, fun rdes src1 src2 c s heven => ?_⟩
  rw [← isEven_iff] at heven
  exact ⟨fun hp => ⟨addo_completes heven hp, addio_completes heven hp⟩, fun hp => ⟨subo_completes heven hp, subio_completes heven hp⟩,
    fun hp => ⟨mulo_completes heven hp, mulio_completes heven hp⟩⟩

/-- Settles O29: the operand by its extension; an immediate form and its register form are one shape applied to equal operands. -/
theorem immediateFormsActAsRegisterForms : Obligations.ImmediateFormsActAsRegisterForms := by
  refine ⟨fun s c => ⟨fun h => imm_toInt_of_sign h c, fun h => imm_toNat_of_zero h c, imm_toNat_of_le s⟩, ?_⟩
  intro rdes src1 src2 c s hb
  refine ⟨?_, ?_, ?_, ?_, ?_, fun heven => ?_⟩
  · exact congrArg (fun b => writeResult rdes (s.reg src1 + b) s) hb.symm
  · exact congrArg (fun b => writeResult rdes (s.reg src1 - b) s) hb.symm
  · exact congrArg (fun b => writeResult rdes (s.reg src1 * b) s) hb.symm
  · exact congrArg (fun b => writeDivResult rdes (divide s.launch.params.div (s.reg src1) b) s) hb.symm
  · exact congrArg (fun b => writeDivResult rdes (modulo s.launch.params.mod (s.reg src1) b) s) hb.symm
  · rw [← isEven_iff] at heven
    simp only [exec, execAddo, execAddio, execSubo, execSubio, execMulo, execMulio, ifEvenPair_even heven, hb, and_self]

/-! ## The default overflow word (R101) -/

/-- The pair `low`, `high` is the exact result `r`, and the high word says whether the low word alone is. -/
structure ExactPair (r : Int) (low high : Word) : Prop where
  value : (high ++ low).toInt = r
  fits : high = (if low.msb then 0xFFFFFFFF else 0) ↔ -2 ^ 31 ≤ r ∧ r < 2 ^ 31

/-- The high word repeats the top bit of the low 32 bits exactly when the result fits in 32 signed bits. -/
theorem highWord_eq_sign_iff {r : Int} (h : -2 ^ 63 ≤ r) (h' : r < 2 ^ 63) :
    highWord r = (if (BitVec.ofInt 32 r).msb then 0xFFFFFFFF else 0) ↔ -2 ^ 31 ≤ r ∧ r < 2 ^ 31 := by
  have hlow : (BitVec.ofInt 32 r).toNat = (r % 2 ^ 32).toNat := BitVec.toNat_ofInt ..
  rw [BitVec.toNat_eq, highWord_toNat, BitVec.msb_eq_decide, hlow]
  by_cases hneg : 2 ^ 31 ≤ (r % 2 ^ 32).toNat
  · rw [if_pos (decide_eq_true hneg), show (0xFFFFFFFF : Word).toNat = 2 ^ 32 - 1 from rfl]; omega
  · rw [if_neg (by simpa using hneg), show (0 : Word).toNat = 0 from rfl]; omega

/-- The low and the high word of a result of at most 64 signed bits are its exact pair. -/
theorem exactPair_of_range {r : Int} (h : -2 ^ 63 ≤ r) (h' : r < 2 ^ 63) : ExactPair r (BitVec.ofInt 32 r) (highWord r) :=
  ⟨highWord_append r h h', highWord_eq_sign_iff h h'⟩

/-- The high word of a result of at most 33 signed bits is 0 or all ones. -/
theorem highWord_of_narrow {r : Int} (h : -2 ^ 32 ≤ r) (h' : r < 2 ^ 32) : highWord r = 0 ∨ highWord r = 0xFFFFFFFF := by
  rw [BitVec.toNat_eq, BitVec.toNat_eq, highWord_toNat, show (0 : Word).toNat = 0 from rfl,
    show (0xFFFFFFFF : Word).toNat = 2 ^ 32 - 1 from rfl]
  omega

theorem toInt_range (x : Word) : -2 ^ 31 ≤ x.toInt ∧ x.toInt < 2 ^ 31 := ⟨x.le_toInt, x.toInt_lt⟩

theorem exactPair_add (x y : Word) : ExactPair (x.toInt + y.toInt) (x + y) (overflowAdd .signedHigh x y) := by
  have hx := toInt_range x
  have hy := toInt_range y
  rw [add_eq_ofInt]; exact exactPair_of_range (by omega) (by omega)

theorem exactPair_sub (x y : Word) : ExactPair (x.toInt - y.toInt) (x - y) (overflowSub .signedHigh x y) := by
  have hx := toInt_range x
  have hy := toInt_range y
  rw [sub_eq_ofInt]; exact exactPair_of_range (by omega) (by omega)

theorem exactPair_mul (x y : Word) : ExactPair (x.toInt * y.toInt) (x * y) (overflowMul .signedHigh x y) := by
  have hlo : -2 ^ 62 ≤ x.toInt * y.toInt := BitVec.le_toInt_mul_toInt
  have hhi : x.toInt * y.toInt ≤ 2 ^ 62 := BitVec.toInt_mul_toInt_le
  rw [mul_eq_ofInt]; exact exactPair_of_range (by omega) (by omega)

theorem overflowAdd_narrow (x y : Word) : overflowAdd .signedHigh x y = 0 ∨ overflowAdd .signedHigh x y = 0xFFFFFFFF := by
  have hx := toInt_range x
  have hy := toInt_range y
  exact highWord_of_narrow (by omega) (by omega)

theorem overflowSub_narrow (x y : Word) : overflowSub .signedHigh x y = 0 ∨ overflowSub .signedHigh x y = 0xFFFFFFFF := by
  have hx := toInt_range x
  have hy := toInt_range y
  exact highWord_of_narrow (by omega) (by omega)

/-- Settles O33: the pair each instruction writes is exact by `exactPair_add`, `exactPair_sub` and `exactPair_mul`. -/
theorem pairHoldsExactResult : Obligations.PairHoldsExactResult := by
  intro rdes src1 src2 c s heven a holdsExact holdsNarrow
  rw [← isEven_iff] at heven
  have hexact {r : Int} {i : Instr} {low high : Word} (h : ExactPair r low high)
      (hi : Completes i s (OnlyWritesPair rdes low high s)) : holdsExact r i := ⟨low, high, h.value, h.fits, hi⟩
  have hnarrow {r : Int} {i : Instr} {low high : Word} (h : ExactPair r low high) (hhigh : high = 0 ∨ high = 0xFFFFFFFF)
      (hi : Completes i s (OnlyWritesPair rdes low high s)) : holdsNarrow r i := ⟨low, high, h.value, hhigh, hi⟩
  refine ⟨fun hp b => ⟨?_, ?_⟩, fun hp b => ⟨?_, ?_⟩, fun hp b => ⟨?_, ?_⟩⟩
  · rintro rfl
    exact ⟨hexact (exactPair_add ..) (addo_completes heven hp),
      hnarrow (exactPair_add ..) (overflowAdd_narrow ..) (addo_completes heven hp)⟩
  · rintro rfl
    exact ⟨hexact (exactPair_add ..) (addio_completes heven hp),
      hnarrow (exactPair_add ..) (overflowAdd_narrow ..) (addio_completes heven hp)⟩
  · rintro rfl
    exact ⟨hexact (exactPair_sub ..) (subo_completes heven hp),
      hnarrow (exactPair_sub ..) (overflowSub_narrow ..) (subo_completes heven hp)⟩
  · rintro rfl
    exact ⟨hexact (exactPair_sub ..) (subio_completes heven hp),
      hnarrow (exactPair_sub ..) (overflowSub_narrow ..) (subio_completes heven hp)⟩
  · rintro rfl; exact hexact (exactPair_mul ..) (mulo_completes heven hp)
  · rintro rfl; exact hexact (exactPair_mul ..) (mulio_completes heven hp)

/-! ## The odd destination (R102) -/

/-- A word whose opcode is that of an "o" instruction, with register numbers in its register fields and an odd destination. -/
theorem decode_oddPair {opc : Opcodes} {m : Mnemonic} {w : Word} (hopc : Opcodes.injective opc = true) (hop : fieldOp w = opc.code m)
    (hreserved : reservedFieldSet m.format w = false) (hnumber : registerNumberBad m.format w = false)
    (hodd : oddPairField m w = true) : decode opc w = .illegal .oddPair := by
  simp only [decode_of_code hopc hop.symm, hreserved, hnumber, hodd, Bool.false_eq_true, if_false, if_true]

/-- The field of an odd register is odd. -/
theorem fieldOfReg_odd {r : RegNum} (h : RegNum.isEven r = false) : (fieldOfReg r).getLsbD 0 = true := by
  revert r; decide

theorem decode_rrr_odd {opc : Opcodes} {m : Mnemonic} {a b c : RegNum} (hopc : Opcodes.injective opc = true)
    (hm : m.format = .rrr ∧ m.writesPair = true) (ha : RegNum.isEven a = false) :
    decode opc (wordRRR (opc.code m) a b c) = .illegal .oddPair := by
  obtain ⟨hformat, hpair⟩ := hm
  refine decode_oddPair hopc (fieldOp_wordRRR ..) ?_ ?_ ?_
  · rw [hformat]; rfl
  · simp [hformat, registerNumberBad]
  · rw [oddPairField, hpair, fieldA_wordRRR, fieldOfReg_odd ha]; rfl

theorem decode_rri_odd {opc : Opcodes} {m : Mnemonic} {a b : RegNum} {k : BitVec 8} (hopc : Opcodes.injective opc = true)
    (hm : m.format = .rri ∧ m.writesPair = true) (ha : RegNum.isEven a = false) :
    decode opc (wordRRI (opc.code m) a b k) = .illegal .oddPair := by
  obtain ⟨hformat, hpair⟩ := hm
  refine decode_oddPair hopc (fieldOp_wordRRI ..) ?_ ?_ ?_
  · rw [hformat]; rfl
  · simp [hformat, registerNumberBad]
  · rw [oddPairField, hpair, fieldA_wordRRI, fieldOfReg_odd ha]; rfl

theorem registerForms_writePair : ∀ m ∈ [Mnemonic.addo, .subo, .mulo], m.format = .rrr ∧ m.writesPair = true := by decide

theorem immediateForms_writePair : ∀ m ∈ [Mnemonic.addio, .subio, .mulio], m.format = .rri ∧ m.writesPair = true := by decide

/-- An instruction that is not well formed is refused for its odd destination. -/
theorem native_refused {i : Instr} (h : i.wf = false) : native i = .refused .oddDestination := by
  rw [native, h]; rfl

/-- A constant form whose native and whose wide form are both illegal is refused for its odd destination, whatever its constant. -/
theorem immediate_refused {p : Params} {syms : Symbols} {rdes src1 : RegNum} {short : BitVec 8 → Instr} {long : Instr}
    (hshort : ∀ k, (short k).wf = false) (hlong : long.wf = false) (c : Const) :
    immediate p syms rdes src1 c short long = .refused .oddDestination := by
  unfold immediate
  rw [hlong]
  cases c with
  | label name => rfl
  | lit v =>
    cases hk : const8Field p.imm8Ext v with
    | some k => simp only [hk, native_refused (hshort k)]
    | none => simp only [hk]; rfl

/-- Settles O34: the fetched word by `decode_rrr_odd` and `decode_rri_odd`, the assembler by `native_refused` and
`immediate_refused`. -/
theorem oddDestinationIsRejected : Obligations.OddDestinationIsRejected := by
  intro rdes src1 src2 c hrdes
  have hodd : RegNum.isEven rdes = false := by
    rw [← Bool.not_eq_true, isEven_iff]; omega
  refine ⟨fun s w m hopc hs hw hword => ?_, fun p syms here => ⟨fun m hm => ?_, fun m hm k => ?_⟩⟩
  · refine stepFaults_of_illegal hs hw ?_
    rcases hword with ⟨hm, rfl⟩ | ⟨hm, rfl⟩
    · exact decode_rrr_odd hopc (registerForms_writePair m hm) hodd
    · exact decode_rri_odd hopc (immediateForms_writePair m hm) hodd
  · simp only [List.mem_cons, List.not_mem_nil, or_false] at hm
    rcases hm with rfl | rfl | rfl
    · exact native_refused (i := .addo rdes src1 src2) hodd
    · exact native_refused (i := .subo rdes src1 src2) hodd
    · exact native_refused (i := .mulo rdes src1 src2) hodd
  · simp only [List.mem_cons, List.not_mem_nil, or_false] at hm
    rcases hm with rfl | rfl | rfl
    · exact immediate_refused (short := .addio rdes src1) (long := .addo rdes src1 u0) (fun _ => hodd) hodd k
    · exact immediate_refused (short := .subio rdes src1) (long := .subo rdes src1 u0) (fun _ => hodd) hodd k
    · exact immediate_refused (short := .mulio rdes src1) (long := .mulo rdes src1 u0) (fun _ => hodd) hodd k

end Sys2Proof.Machine
end

section
/-! The logical operations (42_logical.md): each bit of the result is the truth table at the two operand bits. -/

namespace Sys2Proof.Machine

/-- Each bit of the nor is the negated disjunction of the operand bits (R120: the complement of the or). -/
theorem nor_getLsbD (x y : Word) {k : Nat} (hk : k < 32) : (~~~(x ||| y)).getLsbD k = !(x.getLsbD k || y.getLsbD k) := by
  rw [BitVec.getLsbD_not, BitVec.getLsbD_or, decide_eq_true hk, Bool.true_and]

/-- Settles O35: each of the four is `writeResult` of a bitwise operation, whose Boolean operation has the four entries of its
truth table. -/
theorem logicalTruthTables : Obligations.LogicalTruthTables := by
  intro rdes src1 src2 s table
  have follows {op entry : Bool → Bool → Bool} (hentry : ∀ p q, op p q = entry p q) {i : Instr} {v : Word}
      (hbits : ∀ k, k < 32 → v.getLsbD k = op ((s.reg src1).getLsbD k) ((s.reg src2).getLsbD k))
      (hi : exec i s = writeResult rdes v s) : Completes i s (table entry) :=
    completes_writeResult_of (fun k hk => (hbits k hk).trans (hentry _ _)) hi
  clear_value table -- `follows` says all of `table` that the four cases use
  refine ⟨?and, ?or, ?xor, ?nor⟩
  case and => exact follows (op := and) (by decide) (fun _ _ => BitVec.getLsbD_and) rfl
  case or => exact follows (op := or) (by decide) (fun _ _ => BitVec.getLsbD_or) rfl
  case xor => exact follows (op := xor) (by decide) (fun _ _ => BitVec.getLsbD_xor) rfl
  case nor => exact follows (op := fun p q => !(p || q)) (by decide) (fun _ => nor_getLsbD _ _) rfl

end Sys2Proof.Machine
end

section
/-! The shifts (43_shift.md): what R130 says of each by an amount of 0 to 31, and the readings of R131 for every larger amount. -/

namespace Sys2Proof.Machine

/-! ## Shifts by 0 to 31 (R130) -/

/-- `w` is what R130 gives for the shift `op` of `v` by `n`. -/
def Shifted : ShiftKind → Word → Nat → Word → Prop
  | .shl => ShiftedLeft
  | .shr => ShiftedRight
  | .shru => ShiftedRightUnsigned

theorem shiftedLeft_shiftLeft (v : Word) (n : Nat) : ShiftedLeft v n (v <<< n) := by
  refine ⟨fun i hi => ?_, by rw [BitVec.toNat_shiftLeft, Nat.shiftLeft_eq]⟩
  rw [BitVec.getLsbD_shiftLeft]
  by_cases hn : n ≤ i <;> simp [hi, hn, Nat.lt_of_not_le]

/-- Zeros come in where bit `i + n` lies above the word. -/
theorem shiftedRightUnsigned_ushiftRight (v : Word) (n : Nat) : ShiftedRightUnsigned v n (v >>> n) := by
  refine ⟨fun i _ => ?_, by rw [BitVec.toNat_ushiftRight, Nat.shiftRight_eq_div_pow]⟩
  rw [BitVec.getLsbD_ushiftRight, Nat.add_comm n i]
  split
  next => rfl
  next habove => exact BitVec.getLsbD_of_ge v _ (by omega)

/-- The bits that come in copy bit 31, and the quotient of the signed value rounds toward minus infinity. -/
theorem shiftedRight_sshiftRight (v : Word) (n : Nat) : ShiftedRight v n (v.sshiftRight n) := by
  refine ⟨fun i hi => ?bits, ?number⟩
  case bits =>
    rw [BitVec.getLsbD_sshiftRight, BitVec.msb_eq_getLsbD_last, Nat.add_comm n i]
    simp [Nat.not_le.2 hi, Nat.lt_succ_iff]
  case number =>
    have hpow : (0 : Int) ≤ 2 ^ n := by positivity
    rw [BitVec.toInt_sshiftRight, Int.shiftRight_eq_div_pow, Int.fdiv_eq_ediv_of_nonneg _ hpow, Nat.cast_pow, Nat.cast_ofNat]

theorem shifted_shiftBy (op : ShiftKind) (v : Word) (n : Nat) : Shifted op v n (shiftBy op v n) := by
  cases op with
  | shl => exact shiftedLeft_shiftLeft v n
  | shr => exact shiftedRight_sshiftRight v n
  | shru => exact shiftedRightUnsigned_ushiftRight v n

@[simp] theorem shiftBy_zero (op : ShiftKind) (v : Word) : shiftBy op v 0 = v := by
  cases op with
  | shl => exact BitVec.shiftLeft_zero v
  | shr => exact BitVec.sshiftRight_zero
  | shru => exact BitVec.ushiftRight_zero v

/-! ## The instructions -/

section Instructions

variable {p : ShiftBigReading} {op : ShiftKind} {v amount : Word} {i : Instr} {rdes : RegNum} {s : State}

/-- An instruction that writes a shift by at most 31 writes what R130 gives, under every reading of P_SHIFT_BIG. -/
theorem completes_shift_of_le (hi : exec i s = writeResult rdes (shift p op v amount) s) (h : amount.toNat ≤ 31) :
    Completes i s fun t => ∃ w, Shifted op v amount.toNat w ∧ (amount.toNat = 0 → w = v) ∧ OnlyWrites rdes w s t := by
  rw [shift_of_le p op v amount h] at hi
  have hzero (h0 : amount.toNat = 0) : shiftBy op v amount.toNat = v := by rw [h0, shiftBy_zero]
  obtain ⟨t, hexec, hwrites⟩ := completes_writeResult hi
  exact ⟨t, hexec, _, shifted_shiftBy op v amount.toNat, hzero, hwrites⟩

/-- An instruction that writes a shift by 32 or more writes what the reading of P_SHIFT_BIG gives (R131). -/
theorem completes_shift_of_ge (hi : exec i s = writeResult rdes (shift p op v amount) s) (h : 32 ≤ amount.toNat) :
    Completes i s (OnlyWrites rdes (shiftBig p op v amount.toNat) s) := by
  rw [shift_of_ge p op v amount h] at hi
  exact completes_writeResult hi

end Instructions

/-- Settles O36: each of the six writes a shift by at most 31, which has the bits and the number of R130. -/
theorem shiftsBelow32 : Obligations.ShiftsBelow32 := by
  intro rdes src1 src2 c s v law n k
  exact ⟨completes_shift_of_le (op := .shl) rfl, completes_shift_of_le (op := .shl) rfl,
    completes_shift_of_le (op := .shr) rfl, completes_shift_of_le (op := .shr) rfl,
    completes_shift_of_le (op := .shru) rfl, completes_shift_of_le (op := .shru) rfl⟩

/-! ## Shifts by 32 or more (R131) -/

theorem shiftBig_shl_shiftedOut (v : Word) (n : Nat) : shiftBig .shiftedOut .shl v n = 0 := rfl

theorem shiftBig_shru_shiftedOut (v : Word) (n : Nat) : shiftBig .shiftedOut .shru v n = 0 := rfl

/-- The 32 copies of the top bit are all ones exactly for a negative value. -/
theorem shiftBig_shr_shiftedOut (v : Word) (n : Nat) :
    shiftBig .shiftedOut .shr v n = if v.toInt < 0 then 0xFFFFFFFF else 0 := by
  simp only [shiftBig, BitVec.msb_eq_toInt, decide_eq_true_eq]
  rfl

/-- Settles O37: the reading itself is the function of the operation, the value and the amount, and the default reading shifts every
bit out. -/
theorem shiftsBy32OrMore : Obligations.ShiftsBy32OrMore := by
  refine ⟨fun p => ⟨shiftBig p, ?everyReading⟩, ?byDefault⟩
  case everyReading =>
    intro rdes src1 src2 c s hp law
    subst hp
    exact ⟨completes_shift_of_ge rfl, completes_shift_of_ge rfl, completes_shift_of_ge rfl, completes_shift_of_ge rfl,
      completes_shift_of_ge rfl, completes_shift_of_ge rfl⟩
  case byDefault =>
    intro rdes src1 src2 c s hdefault copies
    have shiftsTo {op : ShiftKind} {w : Word} (hw : ∀ n, shiftBig .shiftedOut op (s.reg src1) n = w)
        ⦃i : Instr⦄ ⦃amount : Word⦄ (hi : exec i s = writeResult rdes (shift s.launch.params.shiftBig op (s.reg src1) amount) s)
        (h : 32 ≤ amount.toNat) : Completes i s (OnlyWrites rdes w s) := by
      rw [← hw amount.toNat, ← hdefault]
      exact completes_shift_of_ge hi h
    have hshl := shiftsTo (shiftBig_shl_shiftedOut (s.reg src1))
    have hshru := shiftsTo (shiftBig_shru_shiftedOut (s.reg src1))
    have hshr := shiftsTo (shiftBig_shr_shiftedOut (s.reg src1))
    exact ⟨fun h => ⟨hshl rfl h, hshru rfl h, hshr rfl h⟩, fun h => ⟨hshl rfl h, hshru rfl h, hshr rfl h⟩⟩

end Sys2Proof.Machine
end

section
/-! The exchange (44_loadstore.md R150): the next state of `ex4` as one predicate, and that a second exchange undoes the first. -/

namespace Sys2Proof.Machine

/-! ## What a second access sees -/

/-- An effective address depends on the base register and the launch arguments alone. -/
theorem State.effAddr_congr {s t : State} {base : RegNum} (hbase : t.reg base = s.reg base) (hlaunch : t.launch = s.launch)
    (c : BitVec 8) : t.effAddr base c = s.effAddr base c := by
  rw [State.effAddr, State.effAddr, State.imm, State.imm, hbase, hlaunch]

/-- The checks of a write depend on the launch arguments alone (20_memory.md R31, R37). -/
theorem State.writeFault_congr {s t : State} (hlaunch : t.launch = s.launch) (addr : Word) (n : Width) :
    t.writeFault addr n = s.writeFault addr n := by
  have htext : t.inText = s.inText := funext (State.inText_congr hlaunch)
  have hbacked : t.backed = s.backed := funext fun a => by
    rw [State.backed, State.backed, State.inData, State.inData, htext, hlaunch]
  rw [State.writeFault, State.writeFault, State.readFault, State.readFault, htext, hbacked]

/-- Each byte of a loaded word is the byte at its place, in either order (20_memory.md R34). -/
theorem State.byteAt_eq_byteOfWord_loadWord (s : State) (addr : Word) {k : Nat} (hk : k < 4) :
    s.byteAt (addr.toNat + k) = byteOfWord s.launch.params.byteOrder (s.loadWord addr) k := by
  obtain ⟨h0, h1, h2, h3⟩ := byteOfWord_wordOfBytes s.launch.params.byteOrder (s.byteAt addr.toNat) (s.byteAt (addr.toNat + 1))
    (s.byteAt (addr.toNat + 2)) (s.byteAt (addr.toNat + 3))
  interval_cases k
  · exact h0.symm
  · exact h1.symm
  · exact h2.symm
  · exact h3.symm

/-- States that agree on the word at an address, on the bytes outside it and on the byte order agree on every byte. -/
theorem sameBytes_of_loadWord {s t : State} {addr : Word} (hword : t.loadWord addr = s.loadWord addr)
    (houtside : SameBytesBut addr.toNat 4 s t) (hlaunch : t.launch = s.launch) : SameBytes s t := by
  intro b
  by_cases hb : b < addr.toNat ∨ addr.toNat + 4 ≤ b
  · exact houtside b hb
  · obtain ⟨k, rfl⟩ : ∃ k, b = addr.toNat + k := ⟨b - addr.toNat, by omega⟩
    have hk : k < 4 := by omega
    rw [t.byteAt_eq_byteOfWord_loadWord addr hk, s.byteAt_eq_byteOfWord_loadWord addr hk, hword, hlaunch]

/-! ## One exchange -/

/-- `t` is `s` after the register `rdes` and the word at `addr` changed places and `pc` advanced. -/
structure Exchanged (rdes : RegNum) (addr : Word) (s t : State) : Prop where
  reg : t.reg rdes = written rdes (s.loadWord addr)
  otherRegs : SameRegsBut rdes s t
  word : t.loadWord addr = s.reg rdes
  otherBytes : SameBytesBut addr.toNat 4 s t
  pc : t.pc = s.pc + 4
  console : SameConsole s t
  status : t.status = s.status
  launch : t.launch = s.launch

theorem exec_ex4 (rdes src1 : RegNum) (c : BitVec 8) (s : State) :
    exec (.ex4 rdes src1 c) s = ifNoFault (s.writeFault (s.effAddr src1 c) .word) s
      (writeResult rdes (s.loadWord (s.effAddr src1 c)) (s.storeWord (s.effAddr src1 c) (s.reg rdes))) := rfl

/-- Storing the register's word and then writing the old word to the register exchanges the two. -/
theorem exchanged_of_onlyWrites {rdes : RegNum} {addr : Word} {s t : State}
    (h : OnlyWrites rdes (s.loadWord addr) (s.storeWord addr (s.reg rdes)) t) : Exchanged rdes addr s t := by
  obtain ⟨hreg, hregs, hpc, hbytes, hconsole, hstatus, hlaunch⟩ := h
  refine ⟨hreg, hregs, ?word, fun b hb => ?outside, hpc, hconsole, hstatus, hlaunch⟩
  case word =>
    refine (wordAt_iff t addr _).1 ((wordAt_congr ?_ (fun k _ => hbytes _) _).2 (wordAt_storeWord s addr _))
    rw [hlaunch]
  case outside => rw [hbytes b, s.storeWord_byteAt_outside addr _ b hb]

/-- An exchange whose checks pass completes. -/
theorem ex4_completes {rdes src1 : RegNum} {c : BitVec 8} {s : State} (h : s.writeFault (s.effAddr src1 c) .word = none) :
    Completes (.ex4 rdes src1 c) s (Exchanged rdes (s.effAddr src1 c) s) :=
  ⟨_, exec_of_check (exec_ex4 rdes src1 c s) h, exchanged_of_onlyWrites (onlyWrites_setReg _ _ _)⟩

/-! ## Two exchanges -/

section Twice
variable {rdes src1 : RegNum} {addr : Word} {c : BitVec 8} {s t u : State}

/-- A second exchange with the same word gives the register and the word back; the zero register never held the word. -/
theorem Exchanged.twice (h : Exchanged rdes addr s t) (h' : Exchanged rdes addr t u) (hr : rdes ≠ 0) :
    SameRegs s u ∧ SameBytes s u := by
  have hword : u.loadWord addr = s.loadWord addr := by rw [h'.word, h.reg, written, if_neg hr]
  have houtside : SameBytesBut addr.toNat 4 s u := fun b hb => (h'.otherBytes b hb).trans (h.otherBytes b hb)
  refine ⟨fun q => ?_, sameBytes_of_loadWord hword houtside (h'.launch.trans h.launch)⟩
  by_cases hq : q = rdes
  · subst hq
    rw [h'.reg, h.word, written, if_neg hr]
  · exact (h'.otherRegs q hq).trans (h.otherRegs q hq)

/-- Where the base is another register, the same instruction meets the same address and passes the same checks again. -/
theorem Exchanged.ex4_restores (h : Exchanged rdes (s.effAddr src1 c) s t)
    (hcheck : s.writeFault (s.effAddr src1 c) .word = none) (hr : rdes ≠ 0) (hbase : rdes ≠ src1) :
    Completes (.ex4 rdes src1 c) t fun u => SameRegs s u ∧ SameBytes s u := by
  have haddr : t.effAddr src1 c = s.effAddr src1 c := State.effAddr_congr (h.otherRegs src1 hbase.symm) h.launch c
  obtain ⟨u, hu, h'⟩ := ex4_completes (rdes := rdes) (s := t) (src1 := src1) (c := c)
    (by rw [haddr, State.writeFault_congr h.launch, hcheck])
  rw [haddr] at h'
  exact ⟨u, hu, h.twice h' hr⟩

end Twice

/-- Settles O42: the checks of `writeFault` one by one, the exchange that passes them, and the second one that undoes it. -/
theorem exchangeSwapsRegisterAndWord : Obligations.ExchangeSwapsRegisterAndWord := by
  intro rdes src1 c s addr a all text
  have faults {reason : FaultReason} := execFaults_of_check (reason := reason) (exec_ex4 rdes src1 c s)
  refine ⟨fun h4 => ?misaligned, fun h4 h => ?unbacked, fun h4 h ht => ?inText, fun h4 h ht => ?exchange⟩
  case misaligned => exact faults (writeFault_of_readFault (readFault_word_misaligned h4))
  case unbacked => exact faults (writeFault_of_readFault (readFault_word_unbacked h4 h))
  case inText => exact faults (writeFault_word_text (readFault_word_none.2 ⟨h4, h⟩) ht)
  case exchange =>
    have hcheck : s.writeFault addr .word = none := writeFault_word_none.2 ⟨h4, h, ht⟩
    obtain ⟨t, hexec, hex⟩ := ex4_completes (rdes := rdes) hcheck
    exact ⟨t, hexec, s.loadWord addr, (wordAt_iff s addr _).2 rfl, hex.reg, hex.otherRegs, (wordAt_iff t addr _).2 hex.word,
      hex.otherBytes, hex.pc, hex.console, ⟨hex.status, hex.launch⟩, hex.ex4_restores hcheck⟩

end Sys2Proof.Machine
end

section
/-! The comparisons (45_compare.md): each writes the truth word of its relation, as the statements' 1 or 0. -/

namespace Sys2Proof.Machine

section Comparisons
variable {p : Prop} [Decidable p] {i : Instr} {rdes src1 src2 : RegNum} {s : State}

theorem truthWord_decide : truthWord (decide p) = if p then 1 else 0 := by
  simp only [truthWord, decide_eq_true_eq]

/-- An instruction that writes the truth word of a relation completes with 1 or 0 (R160). -/
theorem completes_truthWord (hi : exec i s = writeResult rdes (truthWord (decide p)) s) :
    Completes i s (OnlyWrites rdes (if p then 1 else 0) s) := by
  rw [truthWord_decide] at hi
  exact completes_writeResult hi

theorem eq_completes :
    Completes (.eq rdes src1 src2) s (OnlyWrites rdes (if s.reg src1 = s.reg src2 then 1 else 0) s) := completes_truthWord rfl

theorem ges_completes : Completes (.ges rdes src1 src2) s
    (OnlyWrites rdes (if (s.reg src1).toInt ≥ (s.reg src2).toInt then 1 else 0) s) := completes_truthWord rfl

theorem gts_completes : Completes (.gts rdes src1 src2) s
    (OnlyWrites rdes (if (s.reg src1).toInt > (s.reg src2).toInt then 1 else 0) s) := completes_truthWord rfl

theorem geu_completes : Completes (.geu rdes src1 src2) s
    (OnlyWrites rdes (if (s.reg src1).toNat ≥ (s.reg src2).toNat then 1 else 0) s) := completes_truthWord rfl

theorem gtu_completes : Completes (.gtu rdes src1 src2) s
    (OnlyWrites rdes (if (s.reg src1).toNat > (s.reg src2).toNat then 1 else 0) s) := completes_truthWord rfl

end Comparisons

/-- Settles O45: each of the five writes the truth word of its relation. -/
theorem comparisonsWriteOneOrZero : Obligations.ComparisonsWriteOneOrZero :=
  fun _ _ _ _ => ⟨eq_completes, ges_completes, gts_completes, geu_completes, gtu_completes⟩

end Sys2Proof.Machine
end

section
/-! The synthetic forms that become one instruction (45_compare.md R166 to R169, 49_artificial.md R206 to R210): branches that write
no register, and the count of instructions that `b` gives `bezi`. -/

namespace Sys2Proof.Machine

/-! ## Branches that write no register -/

/-- The only effect is that `pc` becomes `target`. -/
def OnlyGoes (target : Word) (s t : State) : Prop :=
  t.pc = target ∧ SameRegs s t ∧ SameBytes s t ∧ SameConsole s t ∧ SameRun s t

theorem onlyGoes_setPc (s : State) (target : Word) : OnlyGoes target s (s.setPc target) :=
  ⟨rfl, fun _ => rfl, fun _ => rfl, ⟨rfl, rfl⟩, rfl, rfl⟩

/-- A meaning that is `branchTo` completes with that effect. -/
theorem completes_branchTo {i : Instr} {taken : Bool} {target : Word} {s : State} (hi : exec i s = branchTo taken target s) :
    Completes i s (OnlyGoes (if taken then target else s.pc + 4) s) := ⟨_, hi, onlyGoes_setPc s _⟩

/-- A link to the zero register is no link (10_state.md R12). -/
theorem linkAndGo_ze (taken : Bool) (target : Word) (s : State) : linkAndGo ze taken target s = branchTo taken target s := rfl

section OnZeroRegister -- the condition `x[ze] = 0` always holds (R12)
variable {src : RegNum} {s : State}

/-- `jez ze, ze, src` always jumps and links nowhere. -/
theorem jez_ze_completes : Completes (.jez ze ze src) s (OnlyGoes (s.reg src) s) :=
  completes_branchTo (taken := true) (linkAndGo_ze _ _ _)

/-- `bez ze, ze, src` always branches and links nowhere. -/
theorem bez_ze_completes : Completes (.bez ze ze src) s (OnlyGoes (s.pc + s.reg src) s) :=
  completes_branchTo (taken := true) (linkAndGo_ze _ _ _)

/-- `bezi ze, h` always branches. -/
theorem bezi_ze_completes {h : BitVec 16} :
    Completes (.bezi ze h) s (OnlyGoes (BitVec.ofInt 32 (s.pc.toNat + 4 * h.toInt)) s) := by
  rw [← pc_add_branchOffset]
  exact completes_branchTo (taken := true) rfl

end OnZeroRegister

/-- `add rdes, src1, ze` copies `src1`. -/
theorem add_ze_completes {rdes src1 : RegNum} {s : State} :
    Completes (.add rdes src1 ze) s (OnlyWrites rdes (s.reg src1) s) :=
  completes_writeResult (congrArg (writeResult rdes · s) (BitVec.add_zero (s.reg src1)))

/-! ## The count of `b` with a constant (R209, R210) -/

section Count
variable {here k : Word} {n : Int}

theorem countTo_of_not_whole (h : ((k.toNat : Int) - here.toNat) % 4 ≠ 0) : countTo here k = none := if_neg h

/-- At a distance of `n` whole instructions the count is `n`, where its field holds it. -/
theorem countTo_of_whole (h : (k.toNat : Int) - here.toNat = 4 * n) : countTo here k = countField n := by
  have hmod : 4 * n % 4 = 0 := Int.mul_emod_right 4 n
  have hdiv : 4 * n / 4 = n := Int.mul_ediv_cancel_left n (by decide)
  simp only [countTo, h, hmod, hdiv, if_true]

theorem toInt_ofInt_of_count (h : -32768 ≤ n ∧ n ≤ 32767) : (BitVec.ofInt 16 n).toInt = n :=
  BitVec.toInt_ofInt_eq_self (by decide) h.1 (Int.lt_of_le_sub_one h.2)

/-- From `here`, a count of `n` instructions leads to the constant `n` instructions away. -/
theorem ofInt_here_add_count (hk : (k.toNat : Int) - here.toNat = 4 * n) (hn : -32768 ≤ n ∧ n ≤ 32767) :
    BitVec.ofInt 32 (here.toNat + 4 * (BitVec.ofInt 16 n).toInt) = k := by
  have hsum : (here.toNat : Int) + 4 * n = k.toNat := by omega
  rw [toInt_ofInt_of_count hn, hsum, BitVec.ofInt_natCast, BitVec.ofNat_toNat, BitVec.setWidth_eq]

end Count

section BranchToConst
variable {p : Params} {syms : Symbols} {here k : Word} {c : Const} (hc : ConstIs syms c k)
include hc

theorem expand_b_of_count {h : BitVec 16} (hcount : countTo here k = some h) :
    expand p syms here ⟨.b, [.const c]⟩ = .ok [.bezi ze h] := by
  change branchToConst syms here c = _
  rw [branchToConst, constValue_of_constIs _ hc, hcount]

theorem expand_b_of_no_count (hcount : countTo here k = none) :
    expand p syms here ⟨.b, [.const c]⟩ = .refused .branchOutOfReach := by
  change branchToConst syms here c = _
  rw [branchToConst, constValue_of_constIs _ hc, hcount]

end BranchToConst

/-- Settles O57: the comparisons with their operands exchanged, the branches on the zero register, and `b` with a constant by the
count `countTo` gives it. -/
theorem oneInstructionForms : Obligations.OneInstructionForms := by
  intro p syms here rdes src1 src2 s a b runs goes
  refine ⟨⟨_, rfl, ges_completes⟩, ⟨_, rfl, gts_completes⟩, ⟨_, rfl, geu_completes⟩, ⟨_, rfl, gtu_completes⟩,
    ⟨_, rfl, add_ze_completes⟩, ⟨_, rfl, jez_ze_completes⟩, ⟨_, rfl, bez_ze_completes⟩, fun c k hc => ?const⟩
  refine ⟨fun hpart => ?notWhole, fun n hwhole => ⟨fun hreach hpc => ?inReach, fun hfar => ?outOfReach⟩⟩
  case notWhole => exact expand_b_of_no_count hc (countTo_of_not_whole hpart)
  case inReach =>
    have hcount : countTo here k = some (BitVec.ofInt 16 n) := (countTo_of_whole hwhole).trans (if_pos hreach)
    have hgoes := bezi_ze_completes (s := s) (h := BitVec.ofInt 16 n)
    rw [hpc, ofInt_here_add_count hwhole hreach] at hgoes
    exact ⟨_, expand_b_of_count hc hcount, hgoes⟩
  case outOfReach => exact expand_b_of_no_count hc ((countTo_of_whole hwhole).trans (if_neg hfar))

end Sys2Proof.Machine
end

section
/-! The jumps and branches (46_branch.md): the effect of each of the six, what all of them share whatever their condition, and the
synthetic jumps that bring their target into the scratch register first. -/

namespace Sys2Proof.Machine

/-! ## Each jump and branch (R176, R177, R180 to R183) -/

section Meanings
variable {i : Instr} {r : RegNum} {taken : Bool} {p : Prop} [Decidable p] {target : Word} {s : State}

/-- A meaning that is `linkAndGo` completes with that effect, `p` being its condition. -/
theorem completes_linkAndGo (hi : exec i s = linkAndGo r taken target s) (hp : taken = true ↔ p) :
    Completes i s (OnlyLinks r s.pc (if p then target else s.pc + 4) s) := by
  rw [← if_congr hp rfl rfl]
  exact ⟨_, hi, onlyLinks_link s r _⟩

/-- A meaning that is `branchTo` completes with that effect, `p` being its condition. -/
theorem completes_branchTo_of_iff (hi : exec i s = branchTo taken target s) (hp : taken = true ↔ p) :
    Completes i s (OnlyGoes (if p then target else s.pc + 4) s) := by
  rw [← if_congr hp rfl rfl]
  exact completes_branchTo hi

end Meanings

theorem jez_completes (rdes src1 src2 : RegNum) (s : State) :
    Completes (.jez rdes src1 src2) s (OnlyLinks rdes s.pc (if s.reg src1 = 0 then s.reg src2 else s.pc + 4) s) :=
  completes_linkAndGo rfl beq_iff_eq

theorem jnz_completes (rdes src1 src2 : RegNum) (s : State) :
    Completes (.jnz rdes src1 src2) s (OnlyLinks rdes s.pc (if s.reg src1 ≠ 0 then s.reg src2 else s.pc + 4) s) :=
  completes_linkAndGo rfl bne_iff_ne

/-- Settles O46: both jumps are `linkAndGo` to the old `src2`. -/
theorem jumpsLinkAndGo : Obligations.JumpsLinkAndGo :=
  fun rdes src1 src2 s => ⟨jez_completes rdes src1 src2 s, jnz_completes rdes src1 src2 s⟩

/-- The target of `bez` and `bnz`: the machine's sum is the sum of the numbers modulo 2^32. -/
theorem pc_add_reg (pc offset : Word) : pc + offset = BitVec.ofNat 32 (pc.toNat + offset.toNat) := by
  rw [BitVec.ofNat_add, BitVec.ofNat_toNat, BitVec.ofNat_toNat, BitVec.setWidth_eq, BitVec.setWidth_eq]

/-- Settles O47: both branches are `linkAndGo` to the sum of `pc` and the old `src2`. -/
theorem branchesLinkAndGo : Obligations.BranchesLinkAndGo := by
  intro rdes src1 src2 s target
  have htarget : target = s.pc + s.reg src2 := (pc_add_reg _ _).symm
  rw [htarget]
  exact ⟨completes_linkAndGo rfl beq_iff_eq, completes_linkAndGo rfl bne_iff_ne⟩

/-- Settles O48: both branches are `branchTo` to the sum of `pc` and the offset of the count. -/
theorem branchesByConstant : Obligations.BranchesByConstant := by
  intro src1 h s target goes
  have htarget : target = s.pc + branchOffset h := (pc_add_branchOffset _ _).symm
  rw [htarget]
  exact ⟨completes_branchTo_of_iff rfl beq_iff_eq, completes_branchTo_of_iff rfl bne_iff_ne⟩

/-! ## What every jump and branch does (R185) -/

/-- What the next state after a jump or branch shares whatever its target: status and launch arguments are kept, `pc` is the target
if taken, and the destination, if there is one, holds the link. -/
structure Transferred (i : Instr) (s t : State) : Prop where
  run : SameRun s t
  pc : t.pc = (takenTarget s i).getD (s.pc + 4)
  link : ∀ r ∈ destinations i, t.reg r = written r s.pc

section Shared
variable {i : Instr} {s t : State} {r : RegNum} {taken : Bool} {target : Word}

theorem transferred_of_linkAndGo (hi : exec i s = linkAndGo r taken target s) (hd : destinations i = [r])
    (ht : takenTarget s i = if taken then some target else none) : Completes i s (Transferred i s) := by
  obtain ⟨t, hexec, hlink, _, hpc, _, _, hrun⟩ := completes_linkAndGo hi Iff.rfl
  refine ⟨t, hexec, hrun, ?_, ?_⟩
  · rw [hpc, ht]; cases taken <;> rfl
  · rw [hd]; exact List.forall_mem_singleton.2 hlink

theorem transferred_of_branchTo (hi : exec i s = branchTo taken target s) (hd : destinations i = [])
    (ht : takenTarget s i = if taken then some target else none) : Completes i s (Transferred i s) := by
  obtain ⟨t, hexec, hpc, _, _, _, hrun⟩ := completes_branchTo hi
  refine ⟨t, hexec, hrun, ?_, ?_⟩
  · rw [hpc, ht]; cases taken <;> rfl
  · rw [hd]; exact List.forall_mem_nil _

/-- No jump or branch faults, whatever its target. -/
theorem transfer_completes (hi : isTransfer i = true) : Completes i s (Transferred i s) := by
  cases i
  case jez | jnz | bez | bnz => exact transferred_of_linkAndGo rfl rfl (by simp [takenTarget])
  case bezi | bnzi => exact transferred_of_branchTo rfl rfl (by simp [takenTarget, pc_add_branchOffset])
  all_goals cases hi

/-- A whole number of instructions from an aligned address leads to an aligned address, also across 2^32. -/
theorem ofInt_toNat_aligned {a : Nat} (ha : a % 4 = 0) (n : Int) : (BitVec.ofInt 32 (a + 4 * n)).toNat % 4 = 0 := by
  rw [BitVec.toNat_ofInt]; omega

/-- The target of a taken `bezi` or `bnzi` is a whole number of instructions from the branch. -/
theorem constBranch_target (hi : i.mnemonic ∈ [Mnemonic.bezi, .bnzi]) (htaken : takenTarget s i = some target) :
    ∃ n : Int, target = BitVec.ofInt 32 (s.pc.toNat + 4 * n) := by
  cases i
  case bezi src1 h | bnzi src1 h =>
    obtain ⟨_, htarget⟩ := Option.ite_none_right_eq_some.1 htaken
    exact ⟨h.toInt, (Option.some.inj htarget).symm⟩
  all_goals simp [Instr.mnemonic] at hi

/-- `bezi` and `bnzi` keep an aligned `pc` aligned; not taken, they go one instruction on. -/
theorem Transferred.aligned (ht : Transferred i s t) (hi : i.mnemonic ∈ [Mnemonic.bezi, .bnzi]) (hpc : s.pc.toNat % 4 = 0) :
    t.pc.toNat % 4 = 0 := by
  rw [ht.pc]
  cases htaken : takenTarget s i with
  | none =>
    have hnext : s.pc + 4 = BitVec.ofInt 32 (s.pc.toNat + 4 * 1) := pc_add_branchOffset s.pc 1
    rw [Option.getD_none, hnext]
    exact ofInt_toNat_aligned hpc 1
  | some target =>
    obtain ⟨n, rfl⟩ := constBranch_target hi htaken
    exact ofInt_toNat_aligned hpc n

end Shared

/-- Settles O49: `transfer_completes` gives the running next state, and the fetch faults of that state are those of O12. -/
theorem targetsAreCheckedAtNextFetch : Obligations.TargetsAreCheckedAtNextFetch := by
  intro i s hs hi
  obtain ⟨t, hexec, ht⟩ := transfer_completes (s := s) hi
  obtain ⟨hstatus, hlaunch⟩ := ht.run
  have hrunning : t.status = .running := hstatus.trans hs
  obtain ⟨hmisaligned, houtside, _⟩ := fetchChecksThenReadsTheWord t hrunning
  rw [hlaunch] at houtside
  exact ⟨t, hexec, hrunning, fun target htaken => by rw [ht.pc, htaken, Option.getD_some], ht.link,
    hmisaligned, houtside, ht.aligned⟩

/-! ## Jumps to a constant (R178, R179, R207) -/

/-- What a jump behind the `n` instructions that load `k` into the scratch register leaves: control at `dst`, `k` in the scratch
register, and the address of the jump itself in `link`. -/
def JumpEnds (n : Nat) (k : Word) (link : RegNum) (dst : Word) (s t : State) : Prop :=
  t.pc = dst ∧ t.reg u0 = k ∧ t.reg link = written link (s.pc + BitVec.ofNat 32 (4 * n)) ∧
    (∀ r, r ≠ u0 → r ≠ link → t.reg r = s.reg r) ∧ SameBytes s t ∧ SameConsole s t ∧ SameRun s t

theorem ScratchLoaded.jumpEnds {n : Nat} {k dst : Word} {link : RegNum} {s u t : State} (hu : ScratchLoaded n k s u)
    (ht : OnlyLinks link u.pc dst u t) (hlink : link ≠ u0) : JumpEnds n k link dst s t := by
  obtain ⟨hk, hregs, hpc, hbytes, ⟨hcin, hcout⟩, hstatus, hlaunch⟩ := hu
  obtain ⟨hreg, hregs', hpc', hbytes', ⟨hcin', hcout'⟩, hstatus', hlaunch'⟩ := ht
  exact ⟨hpc', (hregs' u0 hlink.symm).trans hk, by rw [hreg, hpc], fun r hr hr' => (hregs' r hr').trans (hregs r hr),
    fun a => (hbytes' a).trans (hbytes a), ⟨hcin'.trans hcin, hcout'.trans hcout⟩,
    hstatus'.trans hstatus, hlaunch'.trans hlaunch⟩

section ScratchJump
variable {syms : Symbols} {regs : List RegNum} {rdes src1 : RegNum} {c : Const} {k : Word} {s : State}

/-- A jump to the scratch register, run behind the instructions that load the constant, goes to the constant on its condition. The
condition's register is not the scratch register, so that the jump still sees its value of before. -/
theorem scratchJump_runs {last : Instr} {p : Word → Prop} [DecidablePred p] (hregs : regs.any (· == u0) = false)
    (hc : ConstIs syms c k) (hs : s.status = .running) (hrdes : rdes ≠ u0) (hsrc1 : src1 ≠ u0)
    (hlast : ∀ u, Completes last u (OnlyLinks rdes u.pc (if p (u.reg src1) then u.reg u0 else u.pc + 4) u)) :
    ∃ is t, withScratch syms regs c last = .ok is ∧ execAll is s = .next t ∧
      JumpEnds (loadSize c) k rdes (if p (s.reg src1) then k else s.pc + BitVec.ofNat 32 (4 * loadSize c) + 4) s t := by
  obtain ⟨u, hu, hload⟩ := load32_loads hc hs
  obtain ⟨t, hjump, ht⟩ := hlast u
  have ⟨hk, hothers, hpc, _⟩ := hu
  have hends := hu.jumpEnds ht hrdes
  rw [hothers src1 hsrc1, hk, hpc] at hends
  exact ⟨_, t, withScratch_of_constIs hregs hc, by rw [hload, execAll_one, hjump], hends⟩

end ScratchJump

/-- Settles O58: each form is `withScratch` around a jump to `u0`; `j` jumps on the zero register and links nowhere. -/
theorem jumpsToConstants : Obligations.JumpsToConstants := by
  intro p syms here rdes src1 c k s hc hs hrdes hsrc1 jump ends runs
  have hregs : [rdes, src1].any (· == u0) = false := by simpa using ⟨hrdes, hsrc1⟩
  refine ⟨?jezi, ?jnzi, ?j⟩
  case jezi => exact scratchJump_runs (p := (· = 0)) hregs hc hs hrdes hsrc1 (jez_completes rdes src1 u0)
  case jnzi => exact scratchJump_runs (p := (· ≠ 0)) hregs hc hs hrdes hsrc1 (jnz_completes rdes src1 u0)
  case j => exact scratchJump_runs (regs := []) (p := (· = 0)) rfl hc hs (by decide) (by decide) (jez_completes ze ze u0)

end Sys2Proof.Machine
end

section
/-! The console (47_console.md): the decoding of every word whose opcode takes one register and nothing else, what `cin` does on
empty and on non-empty input, and what `cout` appends. -/

namespace Sys2Proof

/-! ## Words with one register (30_encoding.md R52, R59) -/

theorem fieldH_eq_zero_iff (w : Word) : fieldH w = 0 ↔ fieldB w = 0 ∧ fieldC w = 0 := by
  have hB : fieldB w = (fieldH w).extractLsb' 8 8 := by rw [fieldH_eq]; exact BitVec.extractLsb'_append_eq_left.symm
  have hC : fieldC w = (fieldH w).extractLsb' 0 8 := by rw [fieldH_eq]; exact BitVec.extractLsb'_append_eq_right.symm
  refine ⟨fun h => ?_, fun ⟨hb, hc⟩ => ?_⟩
  · rw [hB, hC, h]; exact ⟨rfl, rfl⟩
  · rw [fieldH_eq, hb, hc]; rfl

/-- The two unused fields of format R are the half-word under the register. -/
theorem reservedFieldSet_r_iff (w : Word) : reservedFieldSet .r w = true ↔ fieldH w ≠ 0 := by
  rw [ne_eq, fieldH_eq_zero_iff, reservedFieldSet, Bool.or_eq_true, bne_iff_ne, bne_iff_ne, ← not_and_or]

theorem writesPair_of_format_r {m : Mnemonic} (h : m.format = .r) : m.writesPair = false := by
  cases m
  case cin | cout => rfl
  all_goals cases h

/-- A word of format R is legal exactly when the half-word under the register field is zero and that field names a register: of the
checks of R59 only (b) and (c) can fail, in this order. -/
theorem decode_format_r {op : BitVec 8} {instr : RegNum → Instr} (m : Mnemonic) (hformat : m.format = .r)
    (hcode : defaultCode m = op) (hinstr : ∀ w, instrOfFields m w = instr (regA w)) (a : BitVec 8) (h : BitVec 16) :
    decode defaultOpcodes (op ++ a ++ h) =
      if h ≠ 0 then .illegal .reservedField else if 64 ≤ a.toNat then .illegal .registerNumber
      else .legal (instr (a.setWidth 6)) := by
  obtain ⟨hop, ha, hh⟩ := fields_append_const16 op a h
  have hfield : defaultOpcodes.code m = fieldOp (op ++ a ++ h) := by rw [hop, defaultOpcodes_code, hcode]
  have hreg : regA (op ++ a ++ h) = a.setWidth 6 := by rw [regA, ha, regOfField_eq_setWidth]
  have hpair : oddPairField m (op ++ a ++ h) = false := by rw [oddPairField, writesPair_of_format_r hformat, Bool.false_and]
  have hbad : registerNumberBad .r (op ++ a ++ h) = true ↔ 64 ≤ a.toNat := by rw [registerNumberBad, ha, notARegister_iff]
  rw [decode_of_code defaultOpcodes_injective hfield, hformat, hinstr, hreg, hpair, if_neg Bool.false_ne_true]
  simp only [reservedFieldSet_r_iff, hh, hbad]

end Sys2Proof

namespace Sys2Proof.Machine

/-! ## The words (R52, R57) -/

/-- The words of both instructions, read off the table of all of them. -/
theorem encode_console (r : RegNum) :
    encode defaultOpcodes (.cin r) = 0x90#8 ++ (0#2 ++ r) ++ 0#16 ∧
      encode defaultOpcodes (.cout r) = 0x91#8 ++ (0#2 ++ r) ++ 0#16 := by
  obtain ⟨_, _, _, _, _, _, _, _, _, _, hcin, hcout, _⟩ := defaultWordOfEveryInstruction r 0 0 0 0
  exact ⟨hcin, hcout⟩

/-! ## `cin` (R195) -/

theorem exec_cin_nil {rdes : RegNum} {s : State} (h : s.cinQ = []) : exec (.cin rdes) s = .fault .stuckOnConsoleInput := by
  simp only [exec, execCin, h]

theorem exec_cin_cons {rdes : RegNum} {s : State} {b : Byte} {rest : List Byte} (h : s.cinQ = b :: rest) :
    exec (.cin rdes) s = writeResult rdes (b.zeroExtend 32) (s.setCin rest) := by
  simp only [exec, execCin, h]

/-- Settles O50: `cin` is a register write after the input lost its first byte, and its word is one of format R. -/
theorem consoleInputTakesFirstByte : Obligations.ConsoleInputTakesFirstByte := by
  intro rdes s
  refine ⟨exec_cin_nil, fun b rest hq => ?_, (encode_console rdes).1, decode_format_r .cin rfl rfl fun _ => rfl⟩
  have hvalue : (b.zeroExtend 32).toNat = b.toNat := BitVec.toNat_setWidth_of_le (by decide)
  obtain ⟨hreg, hregs, hpc, hbytes, ⟨hcin, hcout⟩, hrun⟩ := onlyWrites_setReg (s.setCin rest) rdes (b.zeroExtend 32)
  exact ⟨_, exec_cin_cons hq, b.zeroExtend 32, hvalue, hreg, hregs, hcin, hcout, hpc, hbytes, hrun⟩

/-! ## `cout` (R196) -/

theorem toNat_low_byte (v : Word) : (v.extractLsb' 0 8).toNat = v.toNat % 256 := by
  rw [BitVec.extractLsb'_toNat, Nat.shiftRight_zero]

/-- The next state of `cout`, whatever the register holds. -/
theorem exec_cout (src1 : RegNum) (s : State) :
    exec (.cout src1) s = .next (s.setCout (s.coutQ ++ [(s.reg src1).extractLsb' 0 8])).advance := rfl

/-- Settles O51: `cout` is an output and an advance, which reach no register and no byte, and its word is one of format R. -/
theorem consoleOutputAppendsLowByte : Obligations.ConsoleOutputAppendsLowByte := by
  intro src1 s
  refine ⟨⟨_, exec_cout src1 s, _, toNat_low_byte (s.reg src1), ?_⟩, ?_, decode_format_r .cout rfl rfl fun _ => rfl⟩
  · exact ⟨rfl, rfl, fun _ => rfl, rfl, fun _ => rfl, rfl, rfl⟩
  · exact (encode_console src1).2

end Sys2Proof.Machine
end

section
/-! How a step and a run end (60_exceptions.md, 48_halt.md, 70_reset_and_hazards.md R267): when there is no step, what a fault
changes, which faults an instruction can raise, and that `halt` alone ends a run well. -/

namespace Sys2Proof

/-! ## Words with no operand (30_encoding.md R52, R59) -/

/-- The word of format N is the opcode over 24 zero bits. -/
theorem wordN_eq_append (op : BitVec 8) : wordN op = op ++ 0#24 := by
  rw [wordN, BitVec.append_assoc, BitVec.append_assoc]; rfl

/-- A word of format N is legal exactly when the 24 bits under its opcode are zero: of the checks of R59 only (b) can fail. -/
theorem decode_halt (low : BitVec 24) :
    decode defaultOpcodes (0xA0#8 ++ low) = if low = 0 then .legal .halt else .illegal .reservedField := by
  have hop : fieldOp (0xA0#8 ++ low) = 0xA0#8 := BitVec.extractLsb'_append_eq_left
  have hcode : defaultOpcodes.code .halt = fieldOp (0xA0#8 ++ low) := by rw [hop, defaultOpcodes_code]; rfl
  by_cases hlow : low = 0
  · subst hlow
    rw [if_pos rfl]
    exact decode_encode (i := .halt) defaultOpcodes_injective rfl
  · have hreserved : reservedFieldSet .n (0xA0#8 ++ low) = true := by
      by_contra hclear
      have hword := wordN_fields (Bool.eq_false_iff.2 hclear)
      rw [hop, wordN_eq_append] at hword
      have hbits := congrArg (BitVec.extractLsb' 0 24) hword
      rw [BitVec.extractLsb'_append_eq_right, BitVec.extractLsb'_append_eq_right] at hbits
      exact hlow hbits.symm
    rw [decode_of_code defaultOpcodes_injective hcode, if_neg hlow]
    exact if_pos hreserved

end Sys2Proof

namespace Sys2Proof.Machine

/-! ## When there is a step (R230, R232, R233) -/

section Steps
variable {s t : State} {w : Word}

theorem State.isFinal_iff : s.isFinal = true ↔ s.status = .halted := beq_iff_eq

theorem step_of_halted (hs : s.status = .halted) : step s = .fault .halted := by simp only [step, hs]

theorem step_of_faulted {reason : FaultReason} (hs : s.status = .faulted reason) : step s = .fault (.faulted reason) := by
  simp only [step, hs]

/-- A running machine that fetches a legal word executes its instruction. -/
theorem step_of_legal {i : Instr} (hs : s.status = .running) (hf : fetch s = .word w)
    (hd : decode s.launch.params.opc w = .legal i) : step s = exec i s := by
  rw [step_of_fetch_word hs hf, hd]

/-- A running machine has a next state, but for a `cin` on empty input (R233). -/
theorem step_next_or_stuck (hs : s.status = .running) :
    (∃ t, step s = .next t) ∨ (step s = .fault .stuckOnConsoleInput ∧ s.cinQ = [] ∧
      ∃ w rdes, fetch s = .word w ∧ decode s.launch.params.opc w = .legal (.cin rdes)) := by
  cases hf : fetch s with
  | fault reason => exact .inl ⟨_, step_of_fetch_fault hs hf⟩
  | word w =>
    cases hd : decode s.launch.params.opc w with
    | illegal why =>
      obtain ⟨t, ht, -⟩ := stepFaults_of_illegal hs hf hd
      exact .inl ⟨t, ht⟩
    | legal i =>
      rw [step_of_legal hs hf hd]
      rcases exec_next_or_stuck i s with hnext | ⟨hstuck, hq, rdes, rfl⟩
      · exact .inl hnext
      · exact .inr ⟨hstuck, hq, w, rdes, rfl, hd⟩

/-- A step leaves the machine running, or changes the status alone, to a fault or to `Halted`. -/
theorem step_next_status (h : step s = .next t) :
    t.status = .running ∨ (∃ reason, t = s.setStatus (.faulted reason)) ∨ t = s.setStatus .halted := by
  obtain ⟨hs, -⟩ := step_next h
  have hstatus := (step_effect h).status
  rwa [hs] at hstatus

end Steps

/-- Settles O11: the four bytes at `pc` are the word that the fetch reads. -/
theorem stepRunsDecodedInstruction : Obligations.StepRunsDecodedInstruction :=
  fun _ _ hs haligned htext hd => step_of_legal hs (fetch_word.2 ⟨haligned, htext, rfl⟩) hd

/-- Settles O14: `step_next_or_stuck`, and that a `cin` on empty input has no next state. -/
theorem stuckExactlyOnEmptyConsoleInput : Obligations.StuckExactlyOnEmptyConsoleInput := by
  intro s hs
  refine ⟨⟨fun hstuck => ?onlyCin, fun ⟨hq, w, rdes, hf, hd⟩ => ?cin⟩, fun hnot => ?next, ?notFinal⟩
  case onlyCin =>
    rcases step_next_or_stuck hs with ⟨t, ht⟩ | ⟨-, hcin⟩
    · rw [hstuck] at ht; cases ht
    · exact hcin
  case cin => rw [step_of_legal hs hf hd, exec_cin_nil hq]
  case next => exact (step_next_or_stuck hs).resolve_right fun ⟨hstuck, _⟩ => hnot hstuck
  case notFinal => rw [Bool.eq_false_iff, ne_eq, State.isFinal_iff, hs]; nofun

/-- Settles O15: of the ways a step changes the status only the fault gives a faulted state. -/
theorem faultsArePrecise : Obligations.FaultsArePrecise := by
  intro s t reason h ht
  obtain ⟨hs, -⟩ := step_next h
  rcases step_next_status h with hrunning | ⟨f, rfl⟩ | rfl
  · rw [hrunning] at ht; cases ht
  · cases ht; exact ⟨hs, rfl, step_of_faulted rfl⟩
  · cases ht

/-! ## The outcomes of an attempt (R230) -/

section Attempts
variable {s t : State} {reason : FaultReason}

theorem attempt_of_next (h : step s = .next t) (ht : ∀ reason, t.status ≠ .faulted reason) : attempt s = .step t := by
  unfold attempt
  rw [h]
  cases hstatus : t.status with
  | faulted reason => exact absurd hstatus (ht reason)
  | running => simp only [hstatus]
  | halted => simp only [hstatus]

theorem attempt_of_next_faulted (h : step s = .next t) (ht : t.status = .faulted reason) : attempt s = .fault reason t := by
  simp only [attempt, h, ht]

theorem attempt_of_stuck (h : step s = .fault .stuckOnConsoleInput) : attempt s = .stuck := by simp only [attempt, h]

theorem attempt_of_halted (h : step s = .fault .halted) : attempt s = .halted := by simp only [attempt, h]

theorem attempt_of_faulted (h : step s = .fault (.faulted reason)) : attempt s = .faulted reason := by simp only [attempt, h]

end Attempts

/-- Settles O13: by the status, and for a running machine by what `step_next_or_stuck` and `step_next_status` leave. -/
theorem attemptHasOneOfTheOutcomes : Obligations.AttemptHasOneOfTheOutcomes := by
  intro s
  cases hs : s.status with
  | halted =>
    have hstep := step_of_halted hs
    exact .inr (.inr (.inr (.inl ⟨attempt_of_halted hstep, rfl, hstep⟩)))
  | faulted reason =>
    have hstep := step_of_faulted hs
    exact .inr (.inr (.inr (.inr ⟨reason, attempt_of_faulted hstep, rfl, hstep⟩)))
  | running =>
    rcases step_next_or_stuck hs with ⟨t, ht⟩ | ⟨hstuck, -⟩
    · rcases step_next_status ht with hrunning | ⟨reason, rfl⟩ | rfl
      · have hkept : ∀ reason, t.status ≠ .faulted reason := by rw [hrunning]; nofun
        exact .inl ⟨t, attempt_of_next ht hkept, rfl, ht, hkept⟩
      · exact .inr (.inl ⟨reason, attempt_of_next_faulted ht rfl, rfl, ht⟩)
      · exact .inl ⟨_, attempt_of_next ht nofun, rfl, ht, nofun⟩
    · exact .inr (.inr (.inl ⟨attempt_of_stuck hstuck, rfl, hstuck⟩))

/-! ## The faults of each family (R234) -/

section StatusKept
variable {s t : State} {r : RegNum}

theorem writeResult_status {v : Word} (h : writeResult r v s = .next t) : t.status = s.status := by
  rw [writeResult_next.1 h]; simp

theorem linkAndGo_status {taken : Bool} {target : Word} (h : linkAndGo r taken target s = .next t) : t.status = s.status := by
  rw [linkAndGo_next.1 h]; simp

theorem branchTo_status {taken : Bool} {target : Word} (h : branchTo taken target s = .next t) : t.status = s.status := by
  rw [branchTo_next.1 h]; simp

/-- An "o" operation with an even destination raises nothing (41_arithmetic.md R102). -/
theorem writeEvenPair_status {i : Instr} {a b : Word} (hr : RegNum.isEven r = true)
    (h : ifEvenPair r i s (writePair r a b s) = .next t) : t.status = s.status := by
  rw [ifEvenPair, if_pos hr] at h
  rw [writePair_next.1 h]; simp

end StatusKept

section Raised
variable {s t : State} {r : RegNum} {reason : FaultReason} (hs : s.status = .running) (ht : t.status = .faulted reason)
include hs ht

theorem not_faulted_of_kept (h : t.status = s.status) : False := by
  rw [ht, hs] at h; cases h

/-- A division raises only what the quotient or remainder answers. -/
theorem fault_of_division {d : DivResult} (h : writeDivResult r d s = .next t) :
    reason = .divideByZero ∨ reason = .divideOverflow := by
  rcases writeDivResult_next.1 h with ⟨v, -, rfl⟩ | ⟨-, rfl⟩ | ⟨-, rfl⟩
  · exact (not_faulted_of_kept hs ht (by simp)).elim
  · cases ht; exact .inl rfl
  · cases ht; exact .inr rfl

/-- An access raises only the fault of its checks. -/
theorem fault_of_access {f : Option FaultReason} {go : Result} (hgo : go = .next t → t.status = s.status)
    (h : ifNoFault f s go = .next t) : f = some reason := by
  rcases ifNoFault_next.1 h with ⟨-, h⟩ | ⟨f, hf, rfl⟩
  · exact (not_faulted_of_kept hs ht (hgo h)).elim
  · cases ht; exact hf

end Raised

theorem readFault_byte_some {s : State} {addr : Word} {f : FaultReason} (h : s.readFault addr .byte = some f) :
    f = .busFault addr := (readFault_some h).resolve_left nofun

theorem writeFault_byte_some {s : State} {addr : Word} {f : FaultReason} (h : s.writeFault addr .byte = some f) :
    f = .busFault addr ∨ f = .textWriteFault addr := (writeFault_some h).resolve_left nofun

theorem readFault_word_some {s : State} {addr : Word} {f : FaultReason} (h : s.readFault addr .word = some f) :
    f = .alignmentFault addr ∨ f = .busFault addr := (readFault_some h).imp_left And.left

theorem writeFault_word_some {s : State} {addr : Word} {f : FaultReason} (h : s.writeFault addr .word = some f) :
    f = .alignmentFault addr ∨ f = .busFault addr ∨ f = .textWriteFault addr := (writeFault_some h).imp_left And.left

/-- Settles O16: the divisions raise what their result says, the accesses what their checks say, and every other instruction keeps the
status or halts. -/
theorem faultsOfEachFamily : Obligations.FaultsOfEachFamily := by
  intro i s t reason hwf hs h ht
  cases i
  case div | divi | mod | modi => exact .inl ⟨by simp [Instr.mnemonic], fault_of_division hs ht h⟩
  case ld1 =>
    have hf := fault_of_access hs ht writeResult_status h
    exact .inr (.inl ⟨rfl, _, readFault_byte_some hf⟩)
  case ld4 =>
    have hf := fault_of_access hs ht writeResult_status h
    exact .inr (.inr (.inl ⟨rfl, _, readFault_word_some hf⟩))
  case st1 =>
    have hf := fault_of_access hs ht (fun hgo => by cases hgo; rfl) h
    exact .inr (.inr (.inr (.inl ⟨rfl, _, writeFault_byte_some hf⟩)))
  case st4 =>
    have hf := fault_of_access hs ht (fun hgo => by cases hgo; rfl) h
    exact .inr (.inr (.inr (.inr ⟨by simp [Instr.mnemonic], _, writeFault_word_some hf⟩)))
  case ex4 =>
    have hf := fault_of_access hs ht (fun hgo => (writeResult_status hgo).trans (s.setMem_status _)) h
    exact .inr (.inr (.inr (.inr ⟨by simp [Instr.mnemonic], _, writeFault_word_some hf⟩)))
  case halt => cases h; cases ht
  all_goals refine (not_faulted_of_kept hs ht ?_).elim
  case addo | subo | mulo | addio | subio | mulio => exact writeEvenPair_status hwf h
  case jez | jnz | bez | bnz => exact linkAndGo_status h
  case bezi | bnzi => exact branchTo_status h
  case cin rdes =>
    cases hq : s.cinQ with
    | nil => rw [exec_cin_nil hq] at h; cases h
    | cons b rest => rw [exec_cin_cons hq] at h; exact (writeResult_status h).trans (s.setCin_status rest)
  case cout => cases h; rfl
  all_goals exact writeResult_status h

/-! ## Halting (48_halt.md R200) -/

theorem exec_halt (s : State) : exec .halt s = .next (s.setStatus .halted) := rfl

/-- Settles O52: `exec_halt`, the last clause of O23, the table of all words and `decode_halt`. -/
theorem haltStopsTheProcessor : Obligations.HaltStopsTheProcessor := by
  refine ⟨fun s => ⟨_, exec_halt s, rfl, step_of_halted rfl, State.isFinal_iff.2 rfl⟩, fun i s t hs h hfinal => ?_, ?_, decode_halt⟩
  · obtain ⟨-, -, -, hhalted⟩ := programCounterAdvances i s t hs h
    exact hhalted.1 (State.isFinal_iff.1 hfinal)
  · obtain ⟨_, _, _, _, _, _, _, _, _, _, _, _, hword⟩ := defaultWordOfEveryInstruction 0 0 0 0 0
    exact hword

/-! ## The end of a run (70_reset_and_hazards.md R267) -/

section RunEnds
variable {k : Nat} {s t u : State}

/-- A step that gives a halted state executed a fetched `halt`. -/
theorem fetched_halt_of_step (h : step s = .next t) (ht : t.status = .halted) :
    ∃ w, fetch s = .word w ∧ decode s.launch.params.opc w = .legal .halt := by
  obtain ⟨hs, ⟨f, -, rfl⟩ | ⟨w, why, -, -, rfl⟩ | ⟨w, i, hf, hd, hexec⟩⟩ := step_next h
  · cases ht
  · cases ht
  · obtain ⟨-, -, -, hhalted⟩ := programCounterAdvances i s t hs hexec
    rw [hhalted.1 ht] at hd
    exact ⟨w, hf, hd⟩

theorem runsTo_snoc (h : RunsTo k s t) (hstep : step t = .next u) : RunsTo (k + 1) s u := by
  induction k generalizing s with
  | zero =>
    rw [runsTo_zero.1 h] at hstep
    exact runsTo_succ.2 ⟨u, hstep, runsTo_zero.2 rfl⟩
  | succ k ih =>
    obtain ⟨v, hv, h⟩ := runsTo_succ.1 h
    exact runsTo_succ.2 ⟨v, hv, ih h⟩

/-- A run from a state that is not running has no step. -/
theorem runsTo_of_not_running (hs : s.status ≠ .running) (h : RunsTo k s t) : t = s := by
  cases k with
  | zero => exact runsTo_zero.1 h
  | succ k =>
    obtain ⟨u, hu, -⟩ := runsTo_succ.1 h
    exact absurd (step_next hu).1 hs

/-- A run that reaches a halted state has a running state that fetches a `halt`, the one before the halted state. -/
theorem RunsTo.fetched_halt (h : RunsTo k s t) (hs : s.status = .running) (ht : t.status = .halted) :
    ∃ j u w, RunsTo j s u ∧ u.status = .running ∧ fetch u = .word w ∧ decode u.launch.params.opc w = .legal .halt := by
  induction k generalizing s with
  | zero =>
    rw [runsTo_zero.1 h, hs] at ht
    cases ht
  | succ k ih =>
    obtain ⟨v, hv, h⟩ := runsTo_succ.1 h
    by_cases hrunning : v.status = .running
    · obtain ⟨j, u, w, hu, hfetch⟩ := ih h hrunning
      exact ⟨j + 1, u, w, runsTo_succ.2 ⟨v, hv, hu⟩, hfetch⟩
    · rw [runsTo_of_not_running hrunning h] at ht
      obtain ⟨w, hfetch⟩ := fetched_halt_of_step hv ht
      exact ⟨0, s, w, runsTo_zero.2 rfl, hs, hfetch⟩

end RunEnds

/-- Settles O22: `RunsTo.fetched_halt`, and one step more from the state that fetches the `halt`. -/
theorem endsWellExactlyByHalt : Obligations.EndsWellExactlyByHalt := by
  intro s hs
  constructor
  · rintro ⟨k, t, h, hfinal⟩
    exact h.fetched_halt hs (State.isFinal_iff.1 hfinal)
  · rintro ⟨k, u, w, h, hu, hf, hd⟩
    exact ⟨k + 1, _, runsTo_snoc h (step_of_legal hu hf hd), State.isFinal_iff.2 rfl⟩

end Sys2Proof.Machine
end

section
/-! The launch (70_reset_and_hazards.md R260, R261): what an admitted launch's state holds, and that every other launch is refused. -/

namespace Sys2Proof.Machine

/-! ## The launch state (10_state.md R25) -/

section LaunchState
variable {l : Launch}

theorem Launch.kept_wf (h : l.wf = true) : l.kept.wf = true := by
  simp only [Launch.wf, Bool.and_eq_true] at h
  obtain ⟨⟨⟨⟨⟨⟨hkept, -⟩, -⟩, -⟩, -⟩, -⟩, -⟩ := h
  exact hkept

/-- Every register but the zero register holds the value the launch gives it. -/
theorem Launch.state_reg {r : RegNum} (hr : r ≠ 0) : l.state.reg r = l.registers[r.toNat]'r.isLt := by
  have hne : 0 ≠ r.toNat := fun h => hr (BitVec.eq_of_toNat_eq h.symm)
  rw [State.reg, if_neg hr]
  exact Vector.getElem_set_ne (by decide) r.isLt hne

/-- The contents of the data lie outside the text, since P_DATA does (R261). -/
theorem Admitted.content_outside_text (hl : Admitted l) {c : Host.Cell} (hc : c ∈ l.contents) :
    c.1 < l.textBase.toNat ∨ l.textBase.toNat + l.textBytes.length ≤ c.1 := by
  obtain ⟨r, hr, hlo, hhi⟩ := hl.contents c hc
  have hclear := hl.clear r hr
  rw [textBytes_length]
  omega

/-- Contents given once for each address stand in the launch state: the text is stored elsewhere. -/
theorem Admitted.state_byteAt_content (hl : Admitted l) (hnodup : (l.contents.map Prod.fst).Nodup) {c : Host.Cell}
    (hc : c ∈ l.contents) : l.state.byteAt c.1 = c.2 :=
  (Memory.readByte_writeBytes_outside _ _ _ _ (hl.content_outside_text hc)).trans (readByte_storeCells _ _ hnodup c hc)

/-- The memory of an admitted launch is in canonical form: every byte stored lies inside the address space. -/
theorem Admitted.memory_wf (hl : Admitted l) : Memory.wf l.memory = true := by
  refine Memory.wf_writeBytes (wf_storeCells rfl fun c hc => ?_) ?_
  · obtain ⟨r, hr, -, hhi⟩ := hl.contents c hc
    obtain ⟨-, -, hend⟩ := hl.ranges r hr
    exact Nat.lt_of_lt_of_le hhi hend
  · rw [textBytes_length]; exact hl.fits

theorem Launch.state_wf (h : l.wf = true) : State.wf l.state = true :=
  l.state.wf_iff.2 ⟨(admitted_of_wf h).memory_wf, Vector.getElem_set_self _, Launch.kept_wf h⟩

end LaunchState

/-- Settles O9: the launch gives `Launch.state`, and each field of it by its lemma. -/
theorem admittedLaunchGivesLaunchState : Obligations.AdmittedLaunchGivesLaunchState := by
  intro l hwf
  have hl := admitted_of_wf hwf
  exact ⟨l.state, launch_next.2 ⟨hwf, rfl⟩, rfl, l.state.reg_zero, fun _ => Launch.state_reg, fun _ => l.state_wordAt,
    fun hnodup _ => hl.state_byteAt_content hnodup, rfl, rfl, rfl, rfl, Launch.state_wf hwf⟩

/-- Settles O10: an admitted launch meets every condition of R261. -/
theorem malformedLaunchIsRefused : Obligations.MalformedLaunchIsRefused := by
  intro l hfails
  refine if_neg fun hwf => hfails ?_
  have hl := admitted_of_wf hwf
  refine ⟨hl.base, hl.fits, fun i hi => ⟨i, decode_encode hl.opcodes (hl.program i hi)⟩, fun r hr => ?_, hl.entryAligned,
    hl.entryFrom, hl.entryBelow⟩
  obtain ⟨hlo, hhi, -⟩ := hl.ranges r hr
  have hclear := hl.clear r hr
  exact ⟨hlo, hhi, fun a _ _ => by omega⟩

end Sys2Proof.Machine
end

section
/-! The stack forms (49_artificial.md R211 to R219): `push` and `pop` as two instructions each, a `pop` after a `push`, and the forms
the assembler refuses by name. -/

namespace Sys2Proof.Machine

/-! ## Running instructions in two parts -/

/-- An instruction that stops the machine is not followed by the rest. -/
theorem execAll_cons_of_stopped {i : Instr} {is : List Instr} {s t : State} (h : exec i s = .next t) (ht : t.status ≠ .running) :
    execAll (i :: is) s = .next t := by
  rw [execAll, h]
  cases hstatus : t.status with
  | running => exact absurd hstatus ht
  | halted | faulted => simp only [hstatus]

/-- Instructions that leave the machine running are followed by the others. -/
theorem execAll_append {is js : List Instr} {s t : State} (h : execAll is s = .next t) (ht : t.status = .running) :
    execAll (is ++ js) s = execAll js t := by
  induction is generalizing s with
  | nil => cases h; rfl
  | cons i is ih =>
    cases hi : exec i s with
    | next u =>
      by_cases hu : u.status = .running
      · rw [execAll_cons hi hu] at h
        rw [List.cons_append, execAll_cons hi hu, ih h]
      · rw [execAll_cons_of_stopped hi hu] at h
        cases h
        exact absurd ht hu
    | fault reason => simp [execAll, hi] at h
    | refused reason => simp [execAll, hi] at h

/-! ## The two instructions of each form (R213, R214) -/

/-- What `push src1` stands for. -/
def pushCode (src1 : RegNum) : List Instr := [.subi sp sp 4, .st4 src1 sp 0]

/-- What `pop rdes` stands for. -/
def popCode (rdes : RegNum) : List Instr := [.ld4 rdes sp 0, .addi sp sp 4]

section Expansion
variable {p : Params} {syms : Symbols} {here : Word} {r : RegNum}

theorem expand_push : expand p syms here ⟨.push, [.reg r]⟩ = .ok (pushCode r) := rfl

theorem expand_pop (hr : r ≠ sp) : expand p syms here ⟨.pop, [.reg r]⟩ = .ok (popCode r) := if_neg hr

theorem expand_pop_sp (hr : r = sp) : expand p syms here ⟨.pop, [.reg r]⟩ = .refused .popStackPointer := if_pos hr

end Expansion

theorem imm_four (s : State) : s.imm 4 = 4 := BitVec.eq_of_toNat_eq (imm_toNat_of_le s (by decide))

theorem effAddr_zero (s : State) (base : RegNum) : s.effAddr base 0 = s.reg base := by
  rw [State.effAddr, imm_zero]; exact BitVec.add_zero _

theorem subi_sp_completes (s : State) : Completes (.subi sp sp 4) s (OnlyWrites sp (s.reg sp - 4) s) := by
  rw [← imm_four s]; exact completes_writeResult rfl

theorem addi_sp_completes (s : State) : Completes (.addi sp sp 4) s (OnlyWrites sp (s.reg sp + 4) s) := by
  rw [← imm_four s]; exact completes_writeResult rfl

/-! ## `push` (R213) -/

/-- The address a `push` stores at. -/
def State.pushAddr (s : State) : Word := s.reg sp - 4

/-- The word a `push` stores: `sp` is read already lowered. -/
def State.pushValue (s : State) (src1 : RegNum) : Word := if src1 = sp then s.pushAddr else s.reg src1

/-- `t` is `s` with `value` on the stack and `pc` behind both instructions. -/
def Pushed (value : Word) (s t : State) : Prop :=
  t.reg sp = s.pushAddr ∧ SameRegsBut sp s t ∧ WordAt t s.pushAddr.toNat value ∧ SameBytesBut s.pushAddr.toNat 4 s t ∧
    t.pc = s.pc + 8 ∧ SameConsole s t ∧ SameRun s t

section Push
variable {src1 : RegNum} {s m : State}

/-- The operand of the store, read after `sp` was lowered. -/
theorem reg_of_lowered (h : OnlyWrites sp s.pushAddr s m) : m.reg src1 = s.pushValue src1 := by
  obtain ⟨hsp, hregs, -⟩ := h
  unfold State.pushValue
  split
  case isTrue hr => rw [hr]; exact hsp
  case isFalse hr => exact hregs src1 hr

/-- A `push` lowers `sp` and is then the store at its new value, whose checks are those of the state before. -/
theorem execAll_pushCode (src1 : RegNum) (hs : s.status = .running) : ∃ m, OnlyWrites sp s.pushAddr s m ∧
    execAll (pushCode src1) s =
      ifNoFault (s.writeFault s.pushAddr .word) m (.next (m.storeWord s.pushAddr (s.pushValue src1)).advance) := by
  obtain ⟨m, hsubi, hm⟩ := subi_sp_completes s
  have ⟨hsp, _, _, _, _, hstatus, hlaunch⟩ := hm
  have haddr : m.effAddr sp 0 = s.pushAddr := (effAddr_zero m sp).trans hsp
  refine ⟨m, hm, ?_⟩
  rw [pushCode, execAll_cons hsubi (hstatus.trans hs), execAll_one, exec_st4, haddr, State.writeFault_congr hlaunch,
    reg_of_lowered hm]

theorem push_faults {f : FaultReason} (hs : s.status = .running) (hf : s.writeFault s.pushAddr .word = some f) :
    ∃ m t, execAll (pushCode src1) s = .next t ∧ OnlyWrites sp s.pushAddr s m ∧ OnlyFaults f m t := by
  obtain ⟨m, hm, hexec⟩ := execAll_pushCode src1 hs
  rw [hf] at hexec
  exact ⟨m, _, hexec, hm, onlyFaults_setStatus m f⟩

theorem push_completes (hs : s.status = .running) (hf : s.writeFault s.pushAddr .word = none) :
    ∃ t, execAll (pushCode src1) s = .next t ∧ Pushed (s.pushValue src1) s t := by
  obtain ⟨m, ⟨hsp, hregs, hpc, hbytes, ⟨hcin, hcout⟩, hstatus, hlaunch⟩, hexec⟩ := execAll_pushCode src1 hs
  rw [hf] at hexec
  obtain ⟨hbytes', hregs', hpc', ⟨hcin', hcout'⟩, hstatus', hlaunch'⟩ :=
    onlyStores_storeWord m s.pushAddr (s.pushValue src1)
  refine ⟨_, hexec, (hregs' sp).trans hsp, fun r hr => (hregs' r).trans (hregs r hr), wordAt_storeWord m _ _,
    fun b hb => (hbytes' b hb).trans (hbytes b), ?_, ⟨hcin'.trans hcin, hcout'.trans hcout⟩, hstatus'.trans hstatus,
    hlaunch'.trans hlaunch⟩
  rw [hpc', hpc, BitVec.add_assoc]; rfl

end Push

/-! ## `pop` (R214) -/

/-- `t` is `s` with `w` taken from the stack into `rdes` and `pc` behind both instructions. -/
def Popped (rdes : RegNum) (w : Word) (s t : State) : Prop :=
  t.reg rdes = written rdes w ∧ t.reg sp = s.reg sp + 4 ∧ (∀ r, r ≠ rdes → r ≠ sp → t.reg r = s.reg r) ∧ SameBytes s t ∧
    t.pc = s.pc + 8 ∧ SameConsole s t ∧ SameRun s t

section Pop
variable {src1 rdes : RegNum} {s t : State}

theorem pop_faults {f : FaultReason} (hf : s.readFault (s.reg sp) .word = some f) :
    ∃ t, execAll (popCode rdes) s = .next t ∧ OnlyFaults f s t := by
  rw [← effAddr_zero s sp] at hf
  obtain ⟨t, hload, ht⟩ := execFaults_of_check (exec_ld4 rdes sp 0 s) hf
  have ⟨hstatus, _⟩ := ht
  exact ⟨t, execAll_cons_of_stopped hload (by rw [hstatus]; nofun), ht⟩

/-- A `pop` whose load passes its checks takes the word at `sp`; the load does not touch `sp`, which the second instruction raises. -/
theorem pop_completes (hs : s.status = .running) (hrdes : rdes ≠ sp) (hf : s.readFault (s.reg sp) .word = none) :
    ∃ t, execAll (popCode rdes) s = .next t ∧ Popped rdes (s.loadWord (s.reg sp)) s t := by
  have hload := exec_ld4 rdes sp 0 s
  rw [effAddr_zero] at hload
  obtain ⟨m, hm, hreg, hregs, hpc, hbytes, ⟨hcin, hcout⟩, hstatus, hlaunch⟩ := completes_writeResult (exec_of_check hload hf)
  obtain ⟨t, ht, hreg', hregs', hpc', hbytes', ⟨hcin', hcout'⟩, hstatus', hlaunch'⟩ := addi_sp_completes m
  have hsp : t.reg sp = s.reg sp + 4 := by rw [← hregs sp hrdes.symm]; exact hreg'
  refine ⟨t, ?_, (hregs' rdes hrdes).trans hreg, hsp, fun r hr hr' => (hregs' r hr').trans (hregs r hr),
    fun a => (hbytes' a).trans (hbytes a), ?_, ⟨hcin'.trans hcin, hcout'.trans hcout⟩, hstatus'.trans hstatus,
    hlaunch'.trans hlaunch⟩
  · rw [popCode, execAll_cons hm (hstatus.trans hs), execAll_one, ht]
  · rw [hpc', hpc, BitVec.add_assoc]; rfl

/-- A `pop` behind a `push` that passes its checks meets the stored word and passes its own. -/
theorem pop_after_push (hs : s.status = .running) (hrdes : rdes ≠ sp) (hf : s.writeFault s.pushAddr .word = none) :
    ∃ t, execAll (pushCode src1 ++ popCode rdes) s = .next t ∧ t.reg sp = s.reg sp ∧
      t.reg rdes = written rdes (s.pushValue src1) ∧ t.pc = s.pc + 16 := by
  obtain ⟨u, hpush, hsp, -, hword, -, hpc, -, hstatus, hlaunch⟩ := push_completes (src1 := src1) hs hf
  have hrunning : u.status = .running := hstatus.trans hs
  have hread : u.readFault (u.reg sp) .word = none := by
    rw [hsp]
    rw [← State.writeFault_congr hlaunch] at hf
    exact (writeFault_none.1 hf).1
  obtain ⟨t, hpop, hreg, hsp', -, -, hpc', -⟩ := pop_completes hrunning hrdes hread
  refine ⟨t, (execAll_append hpush hrunning).trans hpop, ?_, ?_, ?_⟩
  · rw [hsp', hsp, State.pushAddr, BitVec.sub_add_cancel]
  · rw [hreg, hsp, (wordAt_iff u s.pushAddr _).1 hword]
  · rw [hpc', hpc, BitVec.add_assoc]; rfl

end Pop

/-- Settles O59: each part by its lemma; the word a `pop` takes is the one `loadWord` reads. -/
theorem pushAndPop : Obligations.PushAndPop := by
  intro p syms here src1 rdes s hs top value
  refine ⟨_, expand_push, fun f hf => ?pushFaults, push_completes hs, expand_pop_sp,
    fun hrdes => ⟨_, expand_pop hrdes, fun f => pop_faults, fun hf => ?pop, pop_after_push hs hrdes⟩⟩
  case pushFaults =>
    obtain ⟨m, t, hexec, ⟨hsp, hregs, hpc, hbytes, hconsole, hrun⟩, hfaults⟩ := push_faults hs hf
    exact ⟨m, t, hexec, hsp, hregs, hpc, hbytes, hconsole, hrun, hfaults⟩
  case pop =>
    obtain ⟨t, hexec, hpopped⟩ := pop_completes hs hrdes hf
    exact ⟨t, _, hexec, (wordAt_iff s (s.reg sp) _).2 rfl, hpopped⟩

/-! ## The refused forms (R215 to R219) -/

/-- Settles O60: the expansion has an arm for each of the four forms, which names it. -/
theorem callEntryReturnAreRefused : Obligations.CallEntryReturnAreRefused :=
  fun _ _ _ _ _ => ⟨rfl, rfl, rfl, rfl⟩

end Sys2Proof.Machine
end
